-- ==== Sys2Proof/Word.lean ====
section
/-! DEFINITION. The value types of LZWDM (spec/00_scope.md rules R8, R9, R11): register words, bytes, codes, phrases. -/

namespace Sys2Proof

/-- A 32-bit register or command word (00_scope R9, 30_encoding R80). -/
abbrev Word := BitVec 32

/-- A byte: 8 bits, unsigned (00_scope R8). -/
abbrev Byte := BitVec 8

/-- A code: 16 bits, unsigned (00_scope R8). -/
abbrev Code := BitVec 16

/-- A byte sequence (00_scope R11); a stored phrase has length at least 1 (10_state R41). -/
abbrev Phrase := List Byte

/-- `zext_16` of a byte: the code of its singleton phrase (00_scope R8, R10). -/
abbrev Byte.code (b : Byte) : Code := b.setWidth 16

end Sys2Proof
end

