-- ==== Sys2Proof/Syntax.lean ====
section
/-! DEFINITION. The commands of LZWDM (30_encoding R83, one constructor per row of spec/opcode_table.json), the backends, and the
host actions a run is made of (00_scope R19, 70_reset R273). -/

namespace Sys2Proof

/-- The dictionary backend (00_scope R2): the byte-wise trie or the Patricia (radix) trie. -/
inductive Backend where
  | trie
  | patricia
  deriving DecidableEq, Repr

/-- A decoded command. The operands are the fields of the command word, each in exactly its width (30_encoding R82), so every term
is an encodable command and there is no ill-formed one to refuse; the operand checks of format T are made when the command is
performed (30_encoding R85). -/
inductive Instr where
  /-- NOP, format N (R101). -/
  | nop
  /-- DICT_INIT, format N (R102). -/
  | dictInit
  /-- DREAD, format C: NODE is the code to read (R104). -/
  | dread (node : Code)
  /-- T_CHILD, format T: R (true selects ROOT), BYTE, NODE (R121). -/
  | tChild (r : Bool) (byte : Byte) (node : Code)
  /-- T_INSERT, format T: R (true selects ROOT), BYTE, NODE (R122). -/
  | tInsert (r : Bool) (byte : Byte) (node : Code)
  /-- P_INSERT, format N: operands in POS, PLEN, IN_LEN, IBUF (R144). -/
  | pInsert
  /-- LPM, format N: operands in POS, IN_LEN, IBUF (R146). -/
  | lpm
  /-- ENCODE, format N: operands in IN_LEN, IBUF, CTRL.BACKEND (R174). -/
  | encode
  /-- DECODE, format N: operands in CODE_LEN, CBUF (R195). -/
  | decode
  /-- PACK, format N: operands in CODE_LEN, CBUF (R210). -/
  | pack
  /-- UNPACK, format N: operands in IN_LEN, IBUF (R211). -/
  | unpack
  deriving DecidableEq, Repr

/-- One action of the host (00_scope R19): the syntax of a run (70_reset R273). A register access carries its byte offset and its
width in bits, so that an access the block does not define (10_state R38) can be written down and refused; a buffer access is by
element index and moves one whole element (20_memory R64, R67). A command is a register write to CMD (10_state R24). -/
inductive HostAction where
  | regRead (offset width : Nat)
  | regWrite (offset width : Nat) (value : Word)
  | ibufRead (i : Nat)
  | ibufWrite (i : Nat) (b : Byte)
  | cbufRead (i : Nat)
  | cbufWrite (i : Nat) (c : Code)
  | obufRead (i : Nat)
  | obufWrite (i : Nat) (b : Byte)
  /-- The assertion and release of the block's reset (70_reset R260). -/
  | reset
  deriving DecidableEq, Repr

end Sys2Proof
end

