-- ==== Sys2Proof/Decode.lean ====
section
/-! DEFINITION. The command word (30_encoding R80 to R85, R91): its fields, the opcode map as a table of rows, the decoder, total on
every 32-bit word, and the encoder. -/

namespace Sys2Proof

/-- OPC, bits [31:25] of the command word (30_encoding R80). -/
def opcField (w : Word) : BitVec 7 := w.extractLsb' 25 7

/-- R, bit [24] (30_encoding R80). -/
def rField (w : Word) : Bool := w.getLsbD 24

/-- BYTE, bits [23:16] (30_encoding R80, R82). -/
def byteField (w : Word) : Byte := w.extractLsb' 16 8

/-- NODE, bits [15:0] (30_encoding R80, R82). -/
def nodeField (w : Word) : Code := w.extractLsb' 0 16

/-- The must-be-zero bits [24:0] of format N (30_encoding R85). -/
def mbzFormatN (w : Word) : BitVec 25 := w.extractLsb' 0 25

/-- The must-be-zero bits [24:16] of format C (30_encoding R85). -/
def mbzFormatC (w : Word) : BitVec 9 := w.extractLsb' 16 9

/-- Why a word is no command; both are reported as ILLEGAL_CMD (30_encoding R91). -/
inductive Reject where
  /-- The OPC is not in the opcode map (30_encoding R84). -/
  | reservedOpcode
  /-- The OPC is in the map but a must-be-zero bit is set (30_encoding R85). -/
  | mustBeZero
  deriving DecidableEq, Repr

/-- What the decoder says of a word: one command, or why there is none (30_encoding R91). -/
inductive Decoded where
  | instr (i : Instr)
  | reject (r : Reject)
  deriving DecidableEq, Repr

/-- A format-N command: legal when bits [24:0] are zero (30_encoding R81, R85). -/
def decodeFormatN (w : Word) (i : Instr) : Decoded :=
  if mbzFormatN w = 0 then .instr i else .reject .mustBeZero

/-- A format-C command: legal when bits [24:16] are zero; NODE is its operand (30_encoding R81, R85). -/
def decodeFormatC (w : Word) (mk : Code → Instr) : Decoded :=
  if mbzFormatC w = 0 then .instr (mk (nodeField w)) else .reject .mustBeZero

/-- A format-T command: every word of its opcode is legal (30_encoding R81, R85). -/
def decodeFormatT (w : Word) (mk : Bool → Byte → Code → Instr) : Decoded :=
  .instr (mk (rField w) (byteField w) (nodeField w))

/-- The decoder (30_encoding R91), total on every word: the opcode selects the row, the format's must-be-zero bits are checked. -/
def decode (w : Word) : Decoded :=
  if opcField w = 0x00 then decodeFormatN w .nop
  else if opcField w = 0x01 then decodeFormatN w .dictInit
  else if opcField w = 0x02 then decodeFormatC w .dread
  else if opcField w = 0x10 then decodeFormatT w .tChild
  else if opcField w = 0x11 then decodeFormatT w .tInsert
  else if opcField w = 0x20 then decodeFormatN w .pInsert
  else if opcField w = 0x21 then decodeFormatN w .lpm
  else if opcField w = 0x30 then decodeFormatN w .encode
  else if opcField w = 0x38 then decodeFormatN w .decode
  else if opcField w = 0x40 then decodeFormatN w .pack
  else if opcField w = 0x41 then decodeFormatN w .unpack
  else .reject .reservedOpcode

/-- The instruction the decoder reads from the word whose `nbits` low bits are `w` and whose other bits are 0; a word longer than
32 bits is no command (30_encoding R80: there is one length only). -/
def decodeTableWord (nbits w : Nat) : Option Instr :=
  if nbits ≤ 32 then
    match decode (BitVec.ofNat 32 (w % 2 ^ nbits)) with
    | .instr i => some i
    | .reject _ => none
  else none

/-- A command word from its four fields (30_encoding R80). -/
def assemble (opc : BitVec 7) (r : Bool) (byte : Byte) (node : Code) : Word :=
  opc ++ BitVec.ofBool r ++ byte ++ node

/-- The word of a command, from the opcode map of 30_encoding R83 and the formats of R81. -/
def encode : Instr → Word
  | .nop => assemble 0x00 false 0 0
  | .dictInit => assemble 0x01 false 0 0
  | .dread node => assemble 0x02 false 0 node
  | .tChild r byte node => assemble 0x10 r byte node
  | .tInsert r byte node => assemble 0x11 r byte node
  | .pInsert => assemble 0x20 false 0 0
  | .lpm => assemble 0x21 false 0 0
  | .encode => assemble 0x30 false 0 0
  | .decode => assemble 0x38 false 0 0
  | .pack => assemble 0x40 false 0 0
  | .unpack => assemble 0x41 false 0 0

/-- One row of the opcode map (30_encoding R83): a word selects it when `w &&& mask = word`. -/
structure OpcodeRow where
  opc : BitVec 7
  word : Word
  mask : Word
  deriving DecidableEq, Repr

/-- The word `w` matches the row (30_encoding R83). -/
def OpcodeRow.selects (row : OpcodeRow) (w : Word) : Bool :=
  w &&& row.mask == row.word

/-- The row of the opcode map (30_encoding R83) that a command belongs to. -/
def opcodeRow : Instr → OpcodeRow
  | .nop => ⟨0x00, 0x00000000, 0xFFFFFFFF⟩
  | .dictInit => ⟨0x01, 0x02000000, 0xFFFFFFFF⟩
  | .dread _ => ⟨0x02, 0x04000000, 0xFFFF0000⟩
  | .tChild _ _ _ => ⟨0x10, 0x20000000, 0xFE000000⟩
  | .tInsert _ _ _ => ⟨0x11, 0x22000000, 0xFE000000⟩
  | .pInsert => ⟨0x20, 0x40000000, 0xFFFFFFFF⟩
  | .lpm => ⟨0x21, 0x42000000, 0xFFFFFFFF⟩
  | .encode => ⟨0x30, 0x60000000, 0xFFFFFFFF⟩
  | .decode => ⟨0x38, 0x70000000, 0xFFFFFFFF⟩
  | .pack => ⟨0x40, 0x80000000, 0xFFFFFFFF⟩
  | .unpack => ⟨0x41, 0x82000000, 0xFFFFFFFF⟩

/-- The opcode map of 30_encoding R83, in the table's order. -/
def opcodeMap : List OpcodeRow :=
  [opcodeRow .nop, opcodeRow .dictInit, opcodeRow (.dread 0), opcodeRow (.tChild false 0 0), opcodeRow (.tInsert false 0 0),
   opcodeRow .pInsert, opcodeRow .lpm, opcodeRow .encode, opcodeRow .decode, opcodeRow .pack, opcodeRow .unpack]

end Sys2Proof
end

