-- ==== Sys2Proof/Machine/Dict.lean ====
section
/-! DEFINITION. The dictionary structures (10_state R43, R45), plain data, and the seeded dictionary of each backend
(40_dictionary_control R100). A tree is written as a forest (a node with its children, then its later siblings), so that a parent
owns its children and sharing and cycles cannot occur (10_state R43, R46). -/

namespace Sys2Proof.Machine

/-- Sibling nodes of a byte trie (10_state R43): each node has the byte that leads to it, its code, and its children. The children of
a node are the finite map `child : byte -> node`, kept in order of creation (93 I1: unobservable; log 6). -/
inductive Forest where
  | nil
  | node (byte : Byte) (code : Code) (children : Forest) (siblings : Forest)
  deriving DecidableEq, Repr

/-- Sibling edges of a Patricia trie (10_state R45): each edge has the label `key :: tail`, so that a label is never empty and its key
is its first byte, and leads to a node with an optional resident code and edges of its own. -/
inductive Radix where
  | nil
  | edge (key : Byte) (tail : List Byte) (code : Option Code) (children : Radix) (siblings : Radix)
  deriving DecidableEq, Repr

/-- The current dictionary: the children of its root (the root holds no code, 10_state R43, R45) in the structure of its backend. -/
inductive Dict where
  | trie (root : Forest)
  | patricia (root : Radix)
  deriving DecidableEq, Repr

/-- DBK, the backend tag of the current dictionary (10_state R49): it tells which structure is present. -/
def Dict.backend : Dict → Backend
  | .trie _ => .trie
  | .patricia _ => .patricia

/-- `k` childless trie nodes, for the bytes from `b` upward, each with its byte as its code (40_dictionary_control R100). -/
def Forest.seedFrom : (k b : Nat) → Forest
  | 0, _ => .nil
  | k + 1, b => .node (BitVec.ofNat 8 b) (BitVec.ofNat 16 b) .nil (Forest.seedFrom k (b + 1))

/-- `k` edgeless Patricia nodes, for the bytes from `b` upward, each with its byte as its label and code (40_dictionary_control R100). -/
def Radix.seedFrom : (k b : Nat) → Radix
  | 0, _ => .nil
  | k + 1, b => .edge (BitVec.ofNat 8 b) [] (some (BitVec.ofNat 16 b)) .nil (Radix.seedFrom k (b + 1))

/-- The root's children of a freshly seeded TRIE dictionary: the 256 singletons (40_dictionary_control R100). -/
def Forest.seed : Forest := Forest.seedFrom 256 0

/-- The root's edges of a freshly seeded PATRICIA dictionary: the 256 singletons (40_dictionary_control R100). -/
def Radix.seed : Radix := Radix.seedFrom 256 0

/-- The dictionary `DictInit(bk)` makes (40_dictionary_control R100). -/
def Dict.seed : Backend → Dict
  | .trie => .trie Forest.seed
  | .patricia => .patricia Radix.seed

end Sys2Proof.Machine
end

