-- ==== Sys2Proof/Machine/Patricia.lean ====
section
/-! DEFINITION. The Patricia trie (10_state R45 to R47; 42_patricia): insertion with edge splitting, the phrase of a code, and the
longest-prefix walk. -/

namespace Sys2Proof.Machine

/-- Where two byte sequences part: their common beginning, and what remains of each. -/
structure Parting where
  common : List Byte
  left : List Byte
  right : List Byte
  deriving DecidableEq, Repr

/-- The longest common beginning of two sequences and the two remainders (the `j` of 42_patricia R140). -/
def part : List Byte → List Byte → Parting
  | x :: xs, y :: ys =>
    if x = y then { part xs ys with common := x :: (part xs ys).common } else ⟨[], x :: xs, y :: ys⟩
  | xs, ys => ⟨[], xs, ys⟩

/-- What PatInsert returns (42_patricia R140). -/
inductive PatResult where
  | inserted
  | duplicate (code : Code)
  deriving DecidableEq, Repr

/-- The edges of the node made by a split: the old edge's remainder, then the new leaf edge if the phrase has bytes left
(42_patricia R143). -/
def splitEdges (x : Byte) (oldTail : List Byte) (oldCode : Option Code) (oldKids : Radix) (rest : List Byte) (c : Code) : Radix :=
  match rest with
  | [] => .edge x oldTail oldCode oldKids .nil
  | y :: more => .edge x oldTail oldCode oldKids (.edge y more (some c) .nil .nil)

/-- `PatInsert` of the phrase `b :: rest` under code `c`, at a node with the given edges (42_patricia R140): a new edge if none starts
with `b` (R141), the walk on or the node's code if the label is fully consumed (R142), a split if the phrase leaves the label inside
it (R143). -/
def Radix.insert : Radix → (c : Code) → (b : Byte) → (rest : List Byte) → Radix × PatResult
  | .nil, c, b, rest => (.edge b rest (some c) .nil .nil, .inserted)
  | .edge k tail code kids sibs, c, b, rest =>
    if k = b then
      match part tail rest with
      | ⟨_, [], []⟩ =>
        match code with
        | some c' => (.edge k tail code kids sibs, .duplicate c')
        | none => (.edge k tail (some c) kids sibs, .inserted)
      | ⟨_, [], y :: more⟩ =>
        let r := kids.insert c y more
        (.edge k tail code r.1 sibs, r.2)
      | ⟨common, x :: oldTail, left⟩ =>
        (.edge k common (if left.isEmpty then some c else none) (splitEdges x oldTail code kids left c) sibs, .inserted)
    else
      let r := sibs.insert c b rest
      (.edge k tail code kids r.1, r.2)

/-- A coded node reached after `i` bytes is the new best; a node without a code leaves the best found so far (42_patricia R145). -/
def recordBest : Option Code → (i : Nat) → (best : Option (Code × Nat)) → Option (Code × Nat)
  | some c, i, _ => some (c, i)
  | none, _, best => best

/-- The walk of PatLPM at a node with the given edges, `i` bytes matched and `best` found so far (42_patricia R145). -/
def Radix.walk : Radix → (i : Nat) → (best : Option (Code × Nat)) → List Byte → Option (Code × Nat)
  | .nil, _, best, _ => best
  | .edge _ _ _ _ _, _, best, [] => best
  | .edge k tail code kids sibs, i, best, b :: buf =>
    if k = b then
      if tail.isPrefixOf buf then
        kids.walk (i + 1 + tail.length) (recordBest code (i + 1 + tail.length) best) (buf.drop tail.length)
      else best
    else sibs.walk i best (b :: buf)

/-- `PatLPM(buf)` (42_patricia R145): `none` is the pair (none, 0). -/
def Radix.lpm (root : Radix) (buf : List Byte) : Option (Code × Nat) :=
  root.walk 0 none buf

/-- The concatenation of the labels from the root to the node of code `c` (10_state R47). -/
def Radix.phrase? : Radix → Code → Option Phrase
  | .nil, _ => none
  | .edge k tail code kids sibs, c =>
    if code = some c then some (k :: tail)
    else match kids.phrase? c with
      | some p => some (k :: tail ++ p)
      | none => sibs.phrase? c

/-- Every resident code, parents before children, children before later siblings. -/
def Radix.codes : Radix → List Code
  | .nil => []
  | .edge _ _ code kids sibs => code.toList ++ (kids.codes ++ sibs.codes)

/-- The first bytes of the labels of sibling edges, in order. -/
def Radix.keys : Radix → List Byte
  | .nil => []
  | .edge k _ _ _ sibs => k :: sibs.keys

/-- The first bytes of the labels leaving a node are pairwise distinct, at every node (10_state R46, first). -/
def Radix.mapLike : Radix → Bool
  | .nil => true
  | .edge k _ _ kids sibs => decide (k ∉ sibs.keys) && kids.mapLike && sibs.mapLike

/-- The edge that starts with byte `b`: the rest of its label, the code and the edges of its node (`n.edge[b]`, 10_state R45). -/
def Radix.edge? : Radix → Byte → Option (List Byte × Option Code × Radix)
  | .nil, _ => none
  | .edge k tail code kids sibs, b => if k = b then some (tail, code, kids) else sibs.edge? b

/-- The byte trie as a Patricia trie, node for node: every label one byte, every node coded (42_patricia R149). -/
def Forest.toRadix : Forest → Radix
  | .nil => .nil
  | .node k c kids sibs => .edge k [] (some c) kids.toRadix sibs.toRadix

end Sys2Proof.Machine
end

