-- ==== Sys2Proof/Machine/Trie.lean ====
section
/-! DEFINITION. The byte trie (10_state R43, R44; 41_prefix_trie): child lookup, attaching a node, the phrase of a code, and the
longest-prefix walk. -/

namespace Sys2Proof.Machine

/-- A node handle of format T (41_prefix_trie R120). -/
inductive Handle where
  | root
  | node (code : Code)
  deriving DecidableEq, Repr

/-- The sibling at byte `b`: its code and its children. -/
def Forest.child? : Forest → Byte → Option (Code × Forest)
  | .nil, _ => none
  | .node k c kids sibs, b => if k = b then some (c, kids) else sibs.child? b

/-- The children of the node whose resident code is `h` (41_prefix_trie R120). -/
def Forest.childrenOf? : Forest → Code → Option Forest
  | .nil, _ => none
  | .node _ c kids sibs, h =>
    if c = h then some kids
    else match kids.childrenOf? h with
      | some found => some found
      | none => sibs.childrenOf? h

/-- A new childless node of code `c` at byte `b`, after its siblings. -/
def Forest.snoc : Forest → Byte → Code → Forest
  | .nil, b, c => .node b c .nil .nil
  | .node k c' kids sibs, b, c => .node k c' kids (sibs.snoc b c)

/-- A new childless node of code `c` at byte `b` under the node whose resident code is `h`. -/
def Forest.addUnder : Forest → (h : Code) → (b : Byte) → (c : Code) → Forest
  | .nil, _, _, _ => .nil
  | .node k c' kids sibs, h, b, c =>
    if c' = h then .node k c' (kids.snoc b c) sibs
    else .node k c' (kids.addUnder h b c) (sibs.addUnder h b c)

/-- `n.child[b]` for the node `n` of a handle: the code of that child, or absence (41_prefix_trie R121). -/
def Forest.childAt (root : Forest) : Handle → Byte → Option Code
  | .root, b => (root.child? b).map (·.1)
  | .node h, b => ((root.childrenOf? h).bind (·.child? b)).map (·.1)

/-- `n.child[b] <- node(code c, no children)` for the node `n` of a handle (41_prefix_trie R122). -/
def Forest.attach (root : Forest) : Handle → Byte → Code → Forest
  | .root, b, c => root.snoc b c
  | .node h, b, c => root.addUnder h b c

/-- The sequence of bytes on the edges from the root to the node of code `c` (10_state R44). -/
def Forest.phrase? : Forest → Code → Option Phrase
  | .nil, _ => none
  | .node k c' kids sibs, c =>
    if c' = c then some [k]
    else match kids.phrase? c with
      | some p => some (k :: p)
      | none => sibs.phrase? c

/-- The walk of TrieLPM from a node already matched, with `best` its code and the length matched so far (41_prefix_trie R123). -/
def Forest.walk : Forest → (best : Code × Nat) → List Byte → Code × Nat
  | _, best, [] => best
  | kids, best, b :: buf =>
    match kids.child? b with
    | some (c, below) => Forest.walk below (c, best.2 + 1) buf
    | none => best

/-- `TrieLPM(buf)` (41_prefix_trie R123): `none` only for an empty `buf`, the root's child always existing (R124). -/
def Forest.lpm (root : Forest) : List Byte → Option (Code × Nat)
  | [] => none
  | b :: buf =>
    match root.child? b with
    | some (c, kids) => some (kids.walk (c, 1) buf)
    | none => none

/-- The code of `ROOT.child[b]`, which is `b` itself (41_prefix_trie R124); also where a state no run reaches lacks that child (log 7). -/
def Forest.rootChild (root : Forest) (b : Byte) : Code :=
  match root.child? b with
  | some (c, _) => c
  | none => b.code

/-- Every resident code, parents before children, children before later siblings. -/
def Forest.codes : Forest → List Code
  | .nil => []
  | .node _ c kids sibs => c :: (kids.codes ++ sibs.codes)

/-- The bytes that lead to the sibling nodes, in order. -/
def Forest.bytes : Forest → List Byte
  | .nil => []
  | .node k _ _ sibs => k :: sibs.bytes

/-- No two children of a node have the same byte, at any node: `child` is a map (10_state R43). -/
def Forest.mapLike : Forest → Bool
  | .nil => true
  | .node k _ kids sibs => decide (k ∉ sibs.bytes) && kids.mapLike && sibs.mapLike

end Sys2Proof.Machine
end

