-- ==== Sys2Proof/Machine/Abstract.lean ====
section
/-! DEFINITION. The abstract dictionary D (10_state R40, R41), the abstract longest-prefix match (42_patricia R145) and the abstract
LZW encode loop (43_encoder R170), which say what the two backends compute. -/

namespace Sys2Proof.Machine

/-- `Phrase(c)` of the current dictionary (10_state R40, R44, R47). -/
def Dict.phrase? : Dict → Code → Option Phrase
  | .trie root, c => root.phrase? c
  | .patricia root, c => root.phrase? c

/-- The resident codes of the current dictionary. -/
def Dict.codes : Dict → List Code
  | .trie root => root.codes
  | .patricia root => root.codes

/-- The longest-prefix match of the current dictionary's backend (41_prefix_trie R123, 42_patricia R145). -/
def Dict.lpm : Dict → List Byte → Option (Code × Nat)
  | .trie root, buf => root.lpm buf
  | .patricia root, buf => root.lpm buf

/-- `Code(p)` of the phrases listed in code order: the code of `p`, or none (10_state R40). -/
def codeOf? (phrases : List Phrase) (p : Phrase) : Option Code :=
  (phrases.idxOf? p).map (BitVec.ofNat 16)

/-- The longest of the first `k` beginnings of `buf` that is stored, with its length. -/
def longestStored (phrases : List Phrase) (buf : List Byte) : (k : Nat) → Option (Code × Nat)
  | 0 => none
  | k + 1 =>
    match codeOf? phrases (buf.take (k + 1)) with
    | some c => some (c, k + 1)
    | none => longestStored phrases buf k

/-- `LongestPrefix(D, buf)` for the phrases of D listed in code order (42_patricia R145): a stored phrase equal to the whole of `buf`
counts (90_conflicts C2); `none` is (none, 0). -/
def longestMatch (phrases : List Phrase) (buf : List Byte) : Option (Code × Nat) :=
  longestStored phrases buf buf.length

/-- The 256 singletons in code order (40_dictionary_control R100, 44_decoder R190). -/
def singletons : List Phrase :=
  (List.range 256).map fun b => [BitVec.ofNat 8 b]

/-- What the abstract encode gives: the codes and the phrases of D at the end, in code order. -/
structure AbstractRun where
  codes : List Code
  phrases : List Phrase
  deriving DecidableEq, Repr

/-- The loop of LZWEncode (43_encoder R170) on the input left, for at most `fuel` iterations. -/
def lzwEncodeLoop (cap : Nat) : (fuel : Nat) → List Byte → List Phrase → AbstractRun
  | 0, _, phrases => ⟨[], phrases⟩
  | fuel + 1, buf, phrases =>
    match longestMatch phrases buf with
    | none => ⟨[], phrases⟩
    | some (c, m) =>
      let phrases' := if m < buf.length ∧ phrases.length < cap then phrases ++ [buf.take (m + 1)] else phrases
      let r := lzwEncodeLoop cap fuel (buf.drop m) phrases'
      { r with codes := c :: r.codes }

/-- `LZWEncode(in)` on a freshly seeded dictionary of capacity `cap` (43_encoder R170): it ends after at most len(in) iterations. -/
def lzwEncode (cap : Nat) (input : List Byte) : AbstractRun :=
  lzwEncodeLoop cap input.length input singletons

end Sys2Proof.Machine
end

