-- ==== Sys2Proof/Machine/Decoder.lean ====
section
/-! DEFINITION. The array decoder (44_decoder R190 to R194) and the placing of its output in a buffer of bounded size
(44_decoder R195). The decoder table T (10_state R50) is an argument of the loop and exists nowhere else. -/

namespace Sys2Proof.Machine

/-- What LZWDecode gives: the sequence appended for each code, in order, and the index of the bad code, if it met one. -/
structure DecodeRun where
  chunks : List Phrase
  badAt : Option Nat
  deriving DecidableEq, Repr

/-- The run with one more sequence appended before it. -/
def DecodeRun.emit (p : Phrase) (r : DecodeRun) : DecodeRun := { r with chunks := p :: r.chunks }

/-- The sequence a code stands for after `prev`, or none if it is bad (44_decoder R191 to R193): an entry of the table, or the next
unused index of a table that is not frozen (the KwKwK case). -/
def resolveCode (cap : Nat) (table : List Phrase) (prev : Phrase) (c : Code) : Option Phrase :=
  if c.toNat < table.length then table[c.toNat]?
  else if c.toNat = table.length ∧ table.length < cap then some (prev ++ prev.take 1)
  else none

/-- The table after a code that stands for `cur`: one entry more, unless it is frozen (44_decoder R191, R194). -/
def growTable (cap : Nat) (table : List Phrase) (prev cur : Phrase) : List Phrase :=
  if table.length < cap then table ++ [prev ++ cur.take 1] else table

/-- The loop of LZWDecode from index `i` (44_decoder R191). -/
def lzwDecodeLoop (cap : Nat) : List Code → (i : Nat) → (table : List Phrase) → (prev : Phrase) → DecodeRun
  | [], _, _, _ => ⟨[], none⟩
  | c :: codes, i, table, prev =>
    match resolveCode cap table prev c with
    | none => ⟨[], some i⟩
    | some cur => (lzwDecodeLoop cap codes (i + 1) (growTable cap table prev cur) cur).emit cur

/-- `LZWDecode(codes)` (44_decoder R190, R191): the first code must be a singleton (R193); no codes give no output (R196). -/
def lzwDecode (cap : Nat) : List Code → DecodeRun
  | [] => ⟨[], none⟩
  | c :: codes =>
    match singletons[c.toNat]? with
    | none => ⟨[], some 0⟩
    | some p => (lzwDecodeLoop cap codes 1 singletons p).emit p

/-- What fits of the decoder's output: the bytes to write from OBUF[0] on, and the index of the code whose bytes did not fit. -/
structure Placed where
  bytes : List Byte
  overflowAt : Option Nat
  deriving DecidableEq, Repr

/-- Write sequences one after another into a buffer of `size` bytes, `o` of them taken, the first one that of code index `i`; stop at
the first that does not fit, keeping its first bytes (44_decoder R195, 60_exceptions R235). -/
def place (size : Nat) : List Phrase → (i o : Nat) → Placed
  | [], _, _ => ⟨[], none⟩
  | p :: chunks, i, o =>
    if size < o + p.length then ⟨p.take (size - o), some i⟩
    else
      let r := place size chunks (i + 1) (o + p.length)
      ⟨p ++ r.bytes, r.overflowAt⟩

end Sys2Proof.Machine
end

