-- ==== Sys2Proof/Config.lean ====
section
/-! DEFINITION. What an implementation of LZWDM fixes (00_scope R6, R7) and the values the spec leaves free (20_memory R76). -/

namespace Sys2Proof

/-- The configuration `(CAP, IBUF_SIZE, CBUF_SIZE, OBUF_SIZE)` of a block (00_scope R19).
The ranges it must lie in are `Config.wf` (Sys2Proof/WellFormed.lean). -/
structure Config where
  /-- The number of codes the dictionary can hold, singletons included (00_scope R6). -/
  cap : Nat
  /-- Bytes of IBUF (00_scope R7). -/
  ibufSize : Nat
  /-- 16-bit elements of CBUF (00_scope R7). -/
  cbufSize : Nat
  /-- Bytes of OBUF (00_scope R7). -/
  obufSize : Nat
  deriving DecidableEq, Repr

/-- The configuration of `State.reset`: CAP at the default of 00_scope R6, the buffer sizes those of the configuration DEF of
spec/95_test_vectors.md section 0. DESIGN CHOICE (log 1): the spec fixes no buffer size; no statement rests on these sizes. -/
def Config.standard : Config :=
  { cap := 65536, ibufSize := 64, cbufSize := 64, obufSize := 128 }

/-- FREE VALUE (20_memory R76, log 2): what IBUF[i] holds after the reset that made draw `d` the current one, until it is written. -/
opaque Config.freeIbuf (d i : Nat) : Byte

/-- FREE VALUE (20_memory R76, log 2): what CBUF[i] holds after the reset that made draw `d` the current one, until it is written. -/
opaque Config.freeCbuf (d i : Nat) : Code

/-- FREE VALUE (20_memory R76, log 2): what OBUF[i] holds after the reset that made draw `d` the current one, until it is written. -/
opaque Config.freeObuf (d i : Nat) : Byte

end Sys2Proof
end

