-- ==== Sys2Proof/Machine/State.lean ====
section
/-! DEFINITION. The state of LZWDM (10_state R20), its reset (70_reset R260), and the reasons a step can stop. -/

namespace Sys2Proof.Machine

/-- The result codes (60_exceptions R230). The reserved values 0xB..0xF are no constructor: no command produces them. -/
inductive RC where
  | ok
  | hit
  | miss
  | inserted
  | duplicate
  | full
  | nomatch
  | badCode
  | overflow
  | illegalCmd
  | badOperand
  deriving DecidableEq, Repr

/-- The complete state (10_state R20), with the configuration of the block and the host's remaining actions beside it. -/
structure State where
  /-- The parameters of the block (00_scope R6, R7); no step changes them (log 1). -/
  cfg : Config
  /-- STATUS.RC (10_state R25). -/
  rc : RC
  /-- STATUS.BUSY (10_state R25, 70_reset R264; log 4). -/
  busy : Bool
  /-- CTRL.BACKEND (10_state R27); the other bits of CTRL hold nothing. -/
  ctrl : Backend
  /-- IN_LEN (10_state R28). -/
  inLen : Word
  /-- POS (10_state R29). -/
  pos : Word
  /-- PLEN (10_state R30). -/
  plen : Word
  /-- CODE_LEN (10_state R31). -/
  codeLen : Word
  /-- OUT_LEN (10_state R33). -/
  outLen : Word
  /-- NEXT_CODE, bits [16:0] (10_state R32). -/
  nextCode : BitVec 17
  /-- RES_CODE, bits [15:0] (10_state R34). -/
  resCode : Code
  /-- RES_LEN (10_state R35). -/
  resLen : Word
  /-- ERR_INDEX (10_state R36). -/
  errIndex : Word
  /-- IBUF (20_memory R61): what has been written since the last reset. -/
  ibuf : List Host.Cell
  /-- CBUF (20_memory R62): what has been written since the last reset; an element is a 16-bit code. -/
  cbuf : List (Nat × Code)
  /-- OBUF (20_memory R63): what has been written since the last reset. -/
  obuf : List Host.Cell
  /-- The dictionary: the backend structure, which carries the abstract map D and the tag DBK (10_state R40, R43, R45, R49). -/
  dict : Dict
  /-- The model's own: which draw of the free buffer contents is in force (20_memory R76; log 2). -/
  draw : Nat
  /-- The model's own: the host actions still to be taken, the first one next (70_reset R273; log 3). -/
  host : List HostAction
  /-- The model's own: what the most recent host read returned, if the host has read yet (log 5). -/
  lastRead : Option Word
  deriving DecidableEq, Repr

/-- Why the machine stops with a fault. -/
inductive Fault where
  /-- Raised by the step when the host takes an action other than a read of STATUS while BUSY = 1 (70_reset R265: "a host-protocol
  violation, and its effect on the block is undefined"). Safe: the machine stops where the block would go on. -/
  | hostProtocol
  deriving DecidableEq, Repr

/-- Why the model gives an action no meaning. -/
inductive Refusal where
  /-- A command that has no meaning yet, by its mnemonic; raised only by an arm of `exec` (no arm does). Safe. -/
  | notModelled (mnemonic : String)
  /-- Raised by a host register access of another width than 32 bits, at an unaligned offset or outside the window (10_state R38:
  "not an access the block defines, and a model refuses it"). Safe. -/
  | registerAccess
  /-- Raised by a host buffer access at an index outside the buffer (20_memory R64: "not an access the block defines, and a model
  refuses it"). Safe. -/
  | bufferIndex
  deriving DecidableEq, Repr

/-- What a meaning or a step answers. -/
abbrev Outcome := Host.Outcome State Fault Refusal

/-- A block of configuration `g` right after reset (70_reset R260, R261; 10_state R23, R25, R39): OK, not busy, every register 0 but
NEXT_CODE = 256, the seeded TRIE dictionary, the buffers all unwritten. The model's own fields start at the first draw, no host action
and nothing read (log 2, 3, 5). -/
def State.resetOf (g : Config) : State where
  cfg := g
  rc := .ok
  busy := false
  ctrl := .trie
  inLen := 0
  pos := 0
  plen := 0
  codeLen := 0
  outLen := 0
  nextCode := 256
  resCode := 0
  resLen := 0
  errIndex := 0
  ibuf := []
  cbuf := []
  obuf := []
  dict := Dict.seed .trie
  draw := 0
  host := []
  lastRead := none

/-- The machine right after reset, in the configuration of log 1. -/
def State.reset : State := State.resetOf Config.standard

end Sys2Proof.Machine
end

