-- ==== Sys2Proof/Machine/Ops.lean ====
section
/-! DEFINITION. Named operations over the buffers and the registers: sparse memories in one canonical form, reads that supply the free
value of an unwritten element (20_memory R76), block reads and writes `MemRead` and `MemWrite`, and the two ways a command ends,
`finish` and `raise` (00_scope R12). LZWDM takes no exception and returns from none (60_exceptions R236, R239): `raise` is all an error
does. -/

namespace Sys2Proof.Machine

variable {α : Type}

/-- The entries from index `lo` on rise strictly and lie below `size`. -/
def Memory.risingFrom (size : Nat) : (lo : Nat) → List (Nat × α) → Bool
  | _, [] => true
  | lo, (a, _) :: m => decide (lo ≤ a) && decide (a < size) && Memory.risingFrom size (a + 1) m

/-- The canonical form of a buffer of `size` elements: indices strictly rising, all inside the buffer. An unlisted element reads as no
value, so that no entry can equal what an unlisted one reads as. -/
def Memory.wf (size : Nat) (m : List (Nat × α)) : Bool :=
  Memory.risingFrom size 0 m

/-- The value written at index `i` since the last reset, if any. -/
def Memory.get? : List (Nat × α) → Nat → Option α
  | [], _ => none
  | (a, v) :: m, i => if i = a then some v else Memory.get? m i

/-- Write `v` at index `i`, keeping the canonical form. -/
def Memory.set : List (Nat × α) → Nat → α → List (Nat × α)
  | [], i, v => [(i, v)]
  | (a, x) :: m, i, v =>
    if i < a then (i, v) :: (a, x) :: m
    else if i = a then (i, v) :: m
    else (a, x) :: Memory.set m i v

/-- `MemWrite(space, i, len vs, vs)` (00_scope R12): write the elements of `vs` at `i`, `i + 1`, and so on. -/
def Memory.setAll : List (Nat × α) → Nat → List α → List (Nat × α)
  | m, _, [] => m
  | m, i, v :: vs => Memory.setAll (Memory.set m i v) (i + 1) vs

/-- IBUF[i] (20_memory R61, R64): the last value written, or the element's free value (R76). -/
def State.ibufAt (s : State) (i : Nat) : Byte :=
  (Memory.get? s.ibuf i).getD (Config.freeIbuf s.draw i)

/-- CBUF[i] (20_memory R62, R64): the last value written, or the element's free value (R76). -/
def State.cbufAt (s : State) (i : Nat) : Code :=
  (Memory.get? s.cbuf i).getD (Config.freeCbuf s.draw i)

/-- OBUF[i] (20_memory R63, R64): the last value written, or the element's free value (R76). -/
def State.obufAt (s : State) (i : Nat) : Byte :=
  (Memory.get? s.obuf i).getD (Config.freeObuf s.draw i)

/-- `MemRead(IBUF, i, n)` (00_scope R12). -/
def State.readIbuf (s : State) (i n : Nat) : List Byte :=
  (List.range n).map fun k => s.ibufAt (i + k)

/-- `MemRead(CBUF, i, n)` (00_scope R12). -/
def State.readCbuf (s : State) (i n : Nat) : List Code :=
  (List.range n).map fun k => s.cbufAt (i + k)

/-- `MemRead(OBUF, i, n)` (00_scope R12). -/
def State.readObuf (s : State) (i n : Nat) : List Byte :=
  (List.range n).map fun k => s.obufAt (i + k)

/-- STATUS.RC <- rc. -/
def State.setRc (s : State) (rc : RC) : State := { s with rc := rc }

/-- Replace the dictionary and NEXT_CODE together. -/
def State.setDict (s : State) (d : Dict) (next : BitVec 17) : State := { s with dict := d, nextCode := next }

/-- RES_CODE <- c. -/
def State.setResCode (s : State) (c : Code) : State := { s with resCode := c }

/-- RES_LEN <- n. -/
def State.setResLen (s : State) (n : Word) : State := { s with resLen := n }

/-- ERR_INDEX <- i. -/
def State.setErrIndex (s : State) (i : Word) : State := { s with errIndex := i }

/-- `MemWrite(OBUF, 0, len bs, bs)` and OUT_LEN <- len bs: what every command that writes OBUF does (20_memory R63). -/
def State.putOutput (s : State) (bs : List Byte) : State :=
  { s with obuf := Memory.setAll s.obuf 0 bs, outLen := BitVec.ofNat 32 bs.length }

/-- `MemWrite(CBUF, 0, len cs, cs)` and CODE_LEN <- len cs: what every command that writes CBUF does (20_memory R62). -/
def State.putCodes (s : State) (cs : List Code) : State :=
  { s with cbuf := Memory.setAll s.cbuf 0 cs, codeLen := BitVec.ofNat 32 cs.length }

/-- `finish RC` (00_scope R12): the command ends with a result that is not an error. -/
def State.finish (s : State) (rc : RC) : Outcome := .next (s.setRc rc)

/-- `raise RC` (00_scope R12): the command ends with an error, every register and buffer as the rule has left it so far. No control is
transferred, nothing is saved and no mode changes (60_exceptions R236, R239). -/
def State.raise (s : State) (rc : RC) : Outcome := .next (s.setRc rc)

/-- `DictInit(bk)` (40_dictionary_control R100): a fresh seeded dictionary of backend `bk` and NEXT_CODE = 256. -/
def State.dictInit (s : State) (bk : Backend) : State := s.setDict (Dict.seed bk) 256

/-- The code the dictionary assigns next, as a code (10_state R32); NEXT_CODE < CAP <= 65536 whenever it is assigned (00_scope R15). -/
def nextAsCode (next : BitVec 17) : Code := next.setWidth 16

/-- DBK (10_state R49), read off the dictionary. -/
def State.dbk (s : State) : Backend := s.dict.backend

/-- The dictionary is frozen: NEXT_CODE >= CAP (40_dictionary_control R105). -/
def State.frozen (s : State) : Bool := decide (s.cfg.cap ≤ s.nextCode.toNat)

end Sys2Proof.Machine
end

