-- ==== Sys2Proof/Machine/Operands.lean ====
section
/-! DEFINITION. The operand forms: the handle of format T (41_prefix_trie R120), the code operand of format C (40_dictionary_control
R104), the operand registers of format N with their range checks (30_encoding R82, 60_exceptions R233), and the buffer ranges they
name (20_memory R65). Every comparison is on natural numbers, so no sum wraps (00_scope R13). -/

namespace Sys2Proof.Machine

/-- `Handle(R, NODE)` (41_prefix_trie R120): `none` is BAD_OPERAND. -/
def State.handle? (s : State) (r : Bool) (node : Code) : Option Handle :=
  if r then
    if node = 0 then some .root else none
  else if node.toNat < s.nextCode.toNat then some (.node node)
  else none

/-- The code operand names an assigned code: NODE < NEXT_CODE (40_dictionary_control R104). -/
def State.codeAssigned (s : State) (c : Code) : Bool := decide (c.toNat < s.nextCode.toNat)

/-- IN_LEN <= IBUF_SIZE (10_state R28). -/
def State.inLenOk (s : State) : Bool := decide (s.inLen.toNat ≤ s.cfg.ibufSize)

/-- CODE_LEN <= CBUF_SIZE (10_state R31). -/
def State.codeLenOk (s : State) : Bool := decide (s.codeLen.toNat ≤ s.cfg.cbufSize)

/-- The operands of P_INSERT are in range (42_patricia R144): a phrase of at least one byte inside IBUF[0..IN_LEN). -/
def State.phraseOk (s : State) : Bool :=
  s.inLenOk && decide (s.plen.toNat ≠ 0) && decide (s.pos.toNat + s.plen.toNat ≤ s.inLen.toNat)

/-- The operands of LPM are in range (42_patricia R146). -/
def State.matchOk (s : State) : Bool :=
  s.inLenOk && decide (s.pos.toNat ≤ s.inLen.toNat)

/-- IBUF[0..IN_LEN), the input of ENCODE and UNPACK (20_memory R65). -/
def State.input (s : State) : List Byte := s.readIbuf 0 s.inLen.toNat

/-- IBUF[POS..POS+PLEN), the phrase of P_INSERT (42_patricia R144). -/
def State.phrase (s : State) : Phrase := s.readIbuf s.pos.toNat s.plen.toNat

/-- IBUF[POS..IN_LEN), the buffer of LPM (42_patricia R146). -/
def State.matchBuf (s : State) : List Byte := s.readIbuf s.pos.toNat (s.inLen.toNat - s.pos.toNat)

/-- CBUF[0..CODE_LEN), the input of DECODE and PACK (20_memory R65). -/
def State.codes (s : State) : List Code := s.readCbuf 0 s.codeLen.toNat

end Sys2Proof.Machine
end

