-- ==== Sys2Proof/Machine/DecodeCommand.lean ====
section
/-! DEFINITION. The meaning of DECODE (44_decoder R195). -/

namespace Sys2Proof.Machine

/-- DECODE (R195): LZWDecode of CBUF[0..CODE_LEN), its output placed in OBUF. Codes are taken in index order and a bad code is found
before its bytes are written, so an overflow comes only from a code before it (60_exceptions R238). -/
def execDecode (s : State) : Outcome :=
  if s.codeLenOk then
    let run := lzwDecode s.cfg.cap s.codes
    let out := place s.cfg.obufSize run.chunks 0 0
    match out.overflowAt, run.badAt with
    | some i, _ => ((s.putOutput out.bytes).setErrIndex (BitVec.ofNat 32 i)).raise .overflow
    | none, some i => ((s.putOutput out.bytes).setErrIndex (BitVec.ofNat 32 i)).raise .badCode
    | none, none => (s.putOutput out.bytes).finish .ok
  else s.raise .badOperand

end Sys2Proof.Machine
end

