-- ==== Sys2Proof/Machine/DictControl.lean ====
section
/-! DEFINITION. The meanings of NOP, DICT_INIT and DREAD (40_dictionary_control R101, R102, R104). -/

namespace Sys2Proof.Machine

/-- NOP (R101): STATUS.RC <- OK and nothing else. -/
def execNop (s : State) : Outcome := s.finish .ok

/-- DICT_INIT (R102): a fresh seeded dictionary of the backend CTRL.BACKEND selects. -/
def execDictInit (s : State) : Outcome := (s.dictInit s.ctrl).finish .ok

/-- What DREAD does with the phrase `p` of code `c` (R104): results first, then as much of `p` as OBUF holds. -/
def State.deliverPhrase (s : State) (c : Code) (p : Phrase) : Outcome :=
  let s' := (s.setResCode c).setResLen (BitVec.ofNat 32 p.length)
  if s.cfg.obufSize < p.length then (s'.putOutput (p.take s.cfg.obufSize)).raise .overflow
  else (s'.putOutput p).finish .ok

/-- DREAD c (R104): BAD_OPERAND when the dictionary has no such code. An assigned code always has a phrase (10_state R40); in a state no
run reaches that lacks it, there is "no such code" either (log 7). -/
def execDread (node : Code) (s : State) : Outcome :=
  if s.codeAssigned node then
    match s.dict.phrase? node with
    | some p => s.deliverPhrase node p
    | none => s.raise .badOperand
  else s.raise .badOperand

end Sys2Proof.Machine
end

