-- ==== Sys2Proof/Machine/Encoder.lean ====
section
/-! DEFINITION. The encode loops of the two backends (43_encoder R171, R172). The encoder cursor (10_state R51) is an argument of the
loops and exists nowhere else. -/

namespace Sys2Proof.Machine

/-- What an encode loop leaves: the codes emitted, the dictionary, and NEXT_CODE. -/
structure EncodeRun (δ : Type) where
  codes : List Code
  dict : δ
  next : BitVec 17
  deriving DecidableEq, Repr

/-- The run with one more code emitted before it. -/
def EncodeRun.emit {δ : Type} (c : Code) (r : EncodeRun δ) : EncodeRun δ := { r with codes := c :: r.codes }

/-- The loop of EncTrie from the node `cur` on the bytes left (43_encoder R171): a hit moves the cursor; a miss emits the code of `cur`,
learns the child unless the dictionary is frozen (40_dictionary_control R105), and starts again from the root; the end emits `cur`. So
every emission but the last makes exactly one insertion attempt, and from a seeded dictionary each code emitted is below the NEXT_CODE of
that time (43_encoder R175; proved in Sys2Proof/Laws/Encoder.lean). -/
def encTrieLoop (cap : Nat) : List Byte → (cur : Code) → Forest → BitVec 17 → EncodeRun Forest
  | [], cur, root, next => ⟨[cur], root, next⟩
  | b :: input, cur, root, next =>
    match root.childAt (.node cur) b with
    | some c => encTrieLoop cap input c root next
    | none =>
      if next.toNat < cap then
        let root' := root.attach (.node cur) b (nextAsCode next)
        (encTrieLoop cap input (root'.rootChild b) root' (next + 1)).emit cur
      else (encTrieLoop cap input (root.rootChild b) root next).emit cur

/-- `EncTrie(in)` (43_encoder R171). -/
def encTrie (cap : Nat) (input : List Byte) (root : Forest) (next : BitVec 17) : EncodeRun Forest :=
  match input with
  | [] => ⟨[], root, next⟩
  | b :: rest => encTrieLoop cap rest (root.rootChild b) root next

/-- The loop of EncPat on the bytes left, for at most `fuel` iterations (43_encoder R172): emit the longest match, learn it with the
byte that follows unless there is none or the dictionary is frozen, and advance by the length matched. A match always exists and is
at least one byte long (42_patricia R148), so `fuel` = the length of the input never runs out (70_reset R271; log 7). -/
def encPatLoop (cap : Nat) : (fuel : Nat) → List Byte → Radix → BitVec 17 → EncodeRun Radix
  | 0, _, root, next => ⟨[], root, next⟩
  | _ + 1, [], root, next => ⟨[], root, next⟩
  | fuel + 1, b :: buf, root, next =>
    match root.lpm (b :: buf) with
    | none => ⟨[], root, next⟩
    | some (c, m) =>
      if m < (b :: buf).length ∧ next.toNat < cap then
        match root.insert (nextAsCode next) b (buf.take m) with
        | (root', .inserted) => (encPatLoop cap fuel ((b :: buf).drop m) root' (next + 1)).emit c
        | (root', .duplicate _) => (encPatLoop cap fuel ((b :: buf).drop m) root' next).emit c
      else (encPatLoop cap fuel ((b :: buf).drop m) root next).emit c

/-- `EncPat(in)` (43_encoder R172). -/
def encPat (cap : Nat) (input : List Byte) (root : Radix) (next : BitVec 17) : EncodeRun Radix :=
  encPatLoop cap input.length input root next

/-- The encode loop of the current dictionary's backend (43_encoder R174). -/
def encodeInput (cap : Nat) (input : List Byte) (d : Dict) (next : BitVec 17) : EncodeRun Dict :=
  match d with
  | .trie root =>
    let r := encTrie cap input root next
    ⟨r.codes, .trie r.dict, r.next⟩
  | .patricia root =>
    let r := encPat cap input root next
    ⟨r.codes, .patricia r.dict, r.next⟩

end Sys2Proof.Machine
end

