-- ==== Sys2Proof/Machine/EncodeCommand.lean ====
section
/-! DEFINITION. The meaning of ENCODE (43_encoder R174). -/

namespace Sys2Proof.Machine

/-- ENCODE (R174): a fresh dictionary of the backend CTRL.BACKEND selects, the encode loop over IBUF[0..IN_LEN), the codes to
CBUF[0..CODE_LEN). How many codes that is, what bounds each, and the NEXT_CODE it ends with are the output size law (R175), which follows from
the loop: every emission but the last makes one insertion attempt. -/
def execEncode (s : State) : Outcome :=
  if s.inLenOk then
    let fresh := s.dictInit s.ctrl
    let run := encodeInput s.cfg.cap fresh.input fresh.dict fresh.nextCode
    ((fresh.setDict run.dict run.next).putCodes run.codes).finish .ok
  else s.raise .badOperand

end Sys2Proof.Machine
end

