-- ==== Sys2Proof/Machine/PatriciaCommands.lean ====
section
/-! DEFINITION. The meanings of P_INSERT and LPM (42_patricia R144, R146). -/

namespace Sys2Proof.Machine

/-- P_INSERT (R144): the backend check, the operand checks, FULL, and only then the insertion of IBUF[POS..POS+PLEN) under NEXT_CODE
(60_exceptions R238). -/
def execPInsert (s : State) : Outcome :=
  match s.dict with
  | .trie _ => s.raise .illegalCmd
  | .patricia root =>
    if s.phraseOk then
      if s.frozen then s.finish .full
      else match s.phrase with
        | [] => s.raise .badOperand
        | b :: rest =>
          match root.insert (nextAsCode s.nextCode) b rest with
          | (_, .duplicate c) => ((s.setResLen s.plen).setResCode c).finish .duplicate
          | (root', .inserted) =>
            (((s.setResLen s.plen).setResCode (nextAsCode s.nextCode)).setDict (.patricia root') (s.nextCode + 1)).finish .inserted
    else s.raise .badOperand

/-- LPM (R146): the longest-prefix match of IBUF[POS..IN_LEN) on the current backend; NOMATCH is the result (none, 0), which a seeded
dictionary gives exactly for an empty buffer (R145). -/
def execLpm (s : State) : Outcome :=
  if s.matchOk then
    match s.dict.lpm s.matchBuf with
    | none => (s.setResLen 0).finish .nomatch
    | some (c, m) => ((s.setResCode c).setResLen (BitVec.ofNat 32 m)).finish .ok
  else s.raise .badOperand

end Sys2Proof.Machine
end

