-- ==== Sys2Proof/Machine/StreamCommands.lean ====
section
/-! DEFINITION. The meanings of PACK and UNPACK (45_stream R210, R211) and the stream format they share (00_scope R16). -/

namespace Sys2Proof.Machine

/-- c[15:8], the byte of a code that comes first in the stream (00_scope R16, 20_memory R67). -/
def codeHigh (c : Code) : Byte := c.extractLsb' 8 8

/-- c[7:0], the byte of a code that comes second (00_scope R16, 20_memory R67). -/
def codeLow (c : Code) : Byte := c.extractLsb' 0 8

/-- The big-endian byte stream of a code sequence (45_stream R210). -/
def packCodes : List Code → List Byte
  | [] => []
  | c :: codes => codeHigh c :: codeLow c :: packCodes codes

/-- The codes of a byte stream; an odd trailing byte is dropped (45_stream R211, R213). -/
def unpackBytes : List Byte → List Code
  | [] => []
  | [_] => []
  | hi :: lo :: bytes => (hi ++ lo : BitVec 16) :: unpackBytes bytes

/-- PACK (R210): CBUF[0..CODE_LEN) as bytes to OBUF[0..2*CODE_LEN). -/
def execPack (s : State) : Outcome :=
  if s.codeLenOk then (s.putOutput (packCodes s.codes)).finish .ok
  else s.raise .badOperand

/-- UNPACK (R211): IBUF[0..IN_LEN) as codes to CBUF[0..IN_LEN div 2). -/
def execUnpack (s : State) : Outcome :=
  if s.inLenOk then (s.putCodes (unpackBytes s.input)).finish .ok
  else s.raise .badOperand

end Sys2Proof.Machine
end

