-- ==== Sys2Proof/Machine/TrieCommands.lean ====
section
/-! DEFINITION. The meanings of T_CHILD and T_INSERT (41_prefix_trie R121, R122). -/

namespace Sys2Proof.Machine

/-- T_CHILD (R121): the backend check, then the operand check, then the lookup (60_exceptions R238). -/
def execTChild (r : Bool) (byte : Byte) (node : Code) (s : State) : Outcome :=
  match s.dict with
  | .patricia _ => s.raise .illegalCmd
  | .trie root =>
    match s.handle? r node with
    | none => s.raise .badOperand
    | some h =>
      match root.childAt h byte with
      | some c => (s.setResCode c).finish .hit
      | none => s.finish .miss

/-- T_INSERT (R122): the backend check, the operand check, FULL, DUPLICATE, and only then the insertion (60_exceptions R238). -/
def execTInsert (r : Bool) (byte : Byte) (node : Code) (s : State) : Outcome :=
  match s.dict with
  | .patricia _ => s.raise .illegalCmd
  | .trie root =>
    match s.handle? r node with
    | none => s.raise .badOperand
    | some h =>
      if s.frozen then s.finish .full
      else match root.childAt h byte with
        | some c => (s.setResCode c).finish .duplicate
        | none =>
          let c := nextAsCode s.nextCode
          ((s.setDict (.trie (root.attach h byte c)) (s.nextCode + 1)).setResCode c).finish .inserted

end Sys2Proof.Machine
end

