-- ==== Sys2Proof/Machine/Dispatch.lean ====
section
/-! DEFINITION. Perform a decoded command (30_encoding R91): one arm per command, each one call of its meaning. -/

namespace Sys2Proof.Machine

def exec (i : Instr) (s : State) : Host.Outcome State Fault Refusal :=
  match i with
  | .nop => Sys2Proof.Machine.execNop s
  | .dictInit => Sys2Proof.Machine.execDictInit s
  | .dread node => Sys2Proof.Machine.execDread node s
  | .tChild r byte node => Sys2Proof.Machine.execTChild r byte node s
  | .tInsert r byte node => Sys2Proof.Machine.execTInsert r byte node s
  | .pInsert => Sys2Proof.Machine.execPInsert s
  | .lpm => Sys2Proof.Machine.execLpm s
  | .encode => Sys2Proof.Machine.execEncode s
  | .decode => Sys2Proof.Machine.execDecode s
  | .pack => Sys2Proof.Machine.execPack s
  | .unpack => Sys2Proof.Machine.execUnpack s

end Sys2Proof.Machine
end

