-- ==== Sys2Proof/Machine/Flags.lean ====
section
/-! DEFINITION. The flags and fields of STATUS (10_state R25, R53) and the encoding and classes of the result codes
(60_exceptions R230, R231). -/

namespace Sys2Proof.Machine

/-- STATUS.RC as its four bits (60_exceptions R230). -/
def RC.bits : RC → BitVec 4
  | .ok => 0x0
  | .hit => 0x1
  | .miss => 0x2
  | .inserted => 0x3
  | .duplicate => 0x4
  | .full => 0x5
  | .nomatch => 0x6
  | .badCode => 0x7
  | .overflow => 0x8
  | .illegalCmd => 0x9
  | .badOperand => 0xA

/-- The classes of result codes (60_exceptions R231). -/
inductive RCClass where
  | result
  | signal
  | error
  deriving DecidableEq, Repr

/-- The class of each result code (60_exceptions R230, R231). -/
def rcClass : RC → RCClass
  | .ok => .result
  | .hit => .result
  | .miss => .result
  | .inserted => .signal
  | .duplicate => .signal
  | .full => .signal
  | .nomatch => .result
  | .badCode => .error
  | .overflow => .error
  | .illegalCmd => .error
  | .badOperand => .error

/-- BACKEND and DBK as a bit: 0 is TRIE, 1 is PATRICIA (10_state R25, R27). -/
def backendBit : Backend → Bool
  | .trie => false
  | .patricia => true

/-- STATUS.FULL, computed from NEXT_CODE (10_state R25): 1 exactly when the dictionary is frozen. -/
def State.fullFlag (s : State) : Bool := s.frozen

/-- STATUS.DBK (10_state R25). -/
def State.dbkFlag (s : State) : Bool := backendBit s.dbk

/-- STATUS as the host reads it: RC [3:0], FULL [4], DBK [5], BUSY [6], bits [31:7] zero (10_state R25). -/
def State.status (s : State) : Word :=
  (0 : BitVec 25) ++ BitVec.ofBool s.busy ++ BitVec.ofBool s.dbkFlag ++ BitVec.ofBool s.fullFlag ++ s.rc.bits

end Sys2Proof.Machine
end

