-- ==== Sys2Proof/Machine/Window.lean ====
section
/-! DEFINITION. The register window (10_state R22 to R39): offsets, host reads, and the host writes that only store a value. -/

namespace Sys2Proof.Machine

/-- The registers of the window (10_state R23). -/
inductive Reg where
  | cmd
  | status
  | ctrl
  | inLen
  | pos
  | plen
  | codeLen
  | outLen
  | nextCode
  | resCode
  | resLen
  | errIndex
  | cap
  deriving DecidableEq, Repr

/-- The byte offset of a register (10_state R23). -/
def Reg.offset : Reg → Nat
  | .cmd => 0x00
  | .status => 0x04
  | .ctrl => 0x08
  | .inLen => 0x0C
  | .pos => 0x10
  | .plen => 0x14
  | .codeLen => 0x18
  | .outLen => 0x1C
  | .nextCode => 0x20
  | .resCode => 0x24
  | .resLen => 0x28
  | .errIndex => 0x2C
  | .cap => 0x30

/-- The register at a byte offset; none at a reserved offset (10_state R23). -/
def regAt (offset : Nat) : Option Reg :=
  if offset = 0x00 then some .cmd
  else if offset = 0x04 then some .status
  else if offset = 0x08 then some .ctrl
  else if offset = 0x0C then some .inLen
  else if offset = 0x10 then some .pos
  else if offset = 0x14 then some .plen
  else if offset = 0x18 then some .codeLen
  else if offset = 0x1C then some .outLen
  else if offset = 0x20 then some .nextCode
  else if offset = 0x24 then some .resCode
  else if offset = 0x28 then some .resLen
  else if offset = 0x2C then some .errIndex
  else if offset = 0x30 then some .cap
  else none

/-- The access is one the block defines: 32 bits, word-aligned, in 0x00..0x3C (10_state R38). -/
def regAccessDefined (offset width : Nat) : Bool :=
  decide (width = 32) && decide (offset % 4 = 0) && decide (offset < 64)

/-- CTRL as the host reads it: BACKEND in bit [0], bits [31:1] zero (10_state R27). -/
def State.ctrlWord (s : State) : Word := (0 : BitVec 31) ++ BitVec.ofBool (backendBit s.ctrl)

/-- What a host read of a register returns (10_state R23): CMD reads 0 (R24), reserved bits read 0 (R38), CAP is hardwired (R37). -/
def State.readReg (s : State) : Reg → Word
  | .cmd => 0
  | .status => s.status
  | .ctrl => s.ctrlWord
  | .inLen => s.inLen
  | .pos => s.pos
  | .plen => s.plen
  | .codeLen => s.codeLen
  | .outLen => s.outLen
  | .nextCode => s.nextCode.setWidth 32
  | .resCode => s.resCode.setWidth 32
  | .resLen => s.resLen
  | .errIndex => s.errIndex
  | .cap => BitVec.ofNat 32 s.cfg.cap

/-- What a host read at a defined offset returns: a reserved offset reads 0 (10_state R38). -/
def State.readOffset (s : State) (offset : Nat) : Word :=
  match regAt offset with
  | some r => s.readReg r
  | none => 0

/-- The backend bit [0] of a value written to CTRL (10_state R27). -/
def backendOfBit (v : Word) : Backend := if v.getLsbD 0 then .patricia else .trie

/-- A host write to a register other than CMD (10_state R23, R38): an RW register stores the value, CTRL its bit [0] only, a write to an
RO register is ignored. CMD holds no state (R24); its write is the command (`State.issue`). -/
def State.writeReg (s : State) (v : Word) : Reg → State
  | .ctrl => { s with ctrl := backendOfBit v }
  | .inLen => { s with inLen := v }
  | .pos => { s with pos := v }
  | .plen => { s with plen := v }
  | .codeLen => { s with codeLen := v }
  | .cmd => s
  | .status => s
  | .outLen => s
  | .nextCode => s
  | .resCode => s
  | .resLen => s
  | .errIndex => s
  | .cap => s

/-- A host write at a defined offset other than that of CMD: one to a reserved offset is ignored (10_state R38). -/
def State.writeOffset (s : State) (offset : Nat) (v : Word) : State :=
  match regAt offset with
  | some r => s.writeReg v r
  | none => s

end Sys2Proof.Machine
end

