-- ==== Sys2Proof/Machine/HostPort.lean ====
section
/-! DEFINITION. What each host action does (00_scope R19): register accesses, the CMD write that decodes and performs a command
(10_state R24, 30_encoding R91), buffer accesses (20_memory R64), and RESET (70_reset R260). -/

namespace Sys2Proof.Machine

/-- The engine decodes the word written to CMD and performs it (30_encoding R91): a word that is no command sets STATUS.RC to ILLEGAL_CMD
and changes nothing else (R84, R85). -/
def State.issue (s : State) (w : Word) : Outcome :=
  match decode w with
  | .instr i => exec i s
  | .reject _ => s.raise .illegalCmd

/-- The host receives `v` from a read, which changes nothing of the block (20_memory R69). -/
def State.returned (s : State) (v : Word) : Outcome := .next { s with lastRead := some v }

/-- RESET (70_reset R260): every register, STATUS and the dictionary as after reset, and fresh unspecified buffer contents, which the next
draw gives (20_memory R76). The configuration and the host's side stay (log 3, 5). -/
def State.resetAction (s : State) : State :=
  { State.resetOf s.cfg with draw := s.draw + 1, host := s.host, lastRead := s.lastRead }

/-- A host register access: refused unless the block defines it (10_state R38). -/
def regAccess (offset width : Nat) (go : Outcome) : Outcome :=
  if regAccessDefined offset width then go else .refused .registerAccess

/-- A host buffer access: refused outside the buffer (20_memory R64). -/
def bufAccess (size i : Nat) (go : Outcome) : Outcome :=
  if i < size then go else .refused .bufferIndex

/-- Perform one host action. -/
def State.perform (s : State) : HostAction → Outcome
  | .regRead offset width => regAccess offset width (s.returned (s.readOffset offset))
  | .regWrite offset width v =>
    regAccess offset width (if offset = Reg.offset .cmd then s.issue v else .next (s.writeOffset offset v))
  | .ibufRead i => bufAccess s.cfg.ibufSize i (s.returned ((s.ibufAt i).setWidth 32))
  | .ibufWrite i b => bufAccess s.cfg.ibufSize i (.next { s with ibuf := Memory.set s.ibuf i b })
  | .cbufRead i => bufAccess s.cfg.cbufSize i (s.returned ((s.cbufAt i).setWidth 32))
  | .cbufWrite i c => bufAccess s.cfg.cbufSize i (.next { s with cbuf := Memory.set s.cbuf i c })
  | .obufRead i => bufAccess s.cfg.obufSize i (s.returned ((s.obufAt i).setWidth 32))
  | .obufWrite i b => bufAccess s.cfg.obufSize i (.next { s with obuf := Memory.set s.obuf i b })
  | .reset => .next s.resetAction

/-- The one action allowed while BUSY = 1: a read of STATUS (70_reset R264). -/
def isStatusRead : HostAction → Bool
  | .regRead offset width => decide (offset = Reg.offset .status) && decide (width = 32)
  | .regWrite _ _ _ => false
  | .ibufRead _ => false
  | .ibufWrite _ _ => false
  | .cbufRead _ => false
  | .cbufWrite _ _ => false
  | .obufRead _ => false
  | .obufWrite _ _ => false
  | .reset => false

/-- Take one host action: a host-protocol violation while BUSY = 1 is a fault (70_reset R265). -/
def State.take (s : State) (a : HostAction) : Outcome :=
  if s.busy && !isStatusRead a then .fault .hostProtocol else s.perform a

end Sys2Proof.Machine
end

