-- ==== Sys2Proof/Machine/Step.lean ====
section
/-! DEFINITION. One step of LZWDM: the host takes its next action (00_scope R19). With no action left the engine waits
(70_reset R260). -/

namespace Sys2Proof.Machine

/-- Take the first of the host's remaining actions; with none left nothing happens, since "the engine never acts on its own"
(00_scope R19). -/
def step (s : State) : Host.Outcome State Fault Refusal :=
  match s.host with
  | [] => .next s
  | a :: rest => State.take { s with host := rest } a

/-- The state whose next step issues the command word of `nbits` low bits `w`: the host's next action is the CMD write of that word, and
the block is not busy (log 3). -/
def State.withFetchWord (s : State) (nbits w : Nat) : State :=
  { s with busy := false, host := .regWrite (Reg.offset .cmd) 32 (BitVec.ofNat 32 (w % 2 ^ nbits)) :: s.host }

end Sys2Proof.Machine
end

