-- ==== Sys2Proof/Machine/Program.lean ====
section
/-! DEFINITION. The forms a program is written in (30_encoding R87) and the pseudo-instructions (R88), as the host actions they stand
for. The text itself (comments, numerals, quoted strings) is not parsed (log 12). -/

namespace Sys2Proof.Machine

/-- A command: one CMD write of its word (R87). -/
def cmd (i : Instr) : HostAction := .regWrite (Reg.offset .cmd) 32 (encode i)

/-- A bare command word on a line: one CMD write of that word (spec/95_test_vectors.md P7). -/
def cmdWord (w : Word) : HostAction := .regWrite (Reg.offset .cmd) 32 w

/-- `WR <reg>, <value>` (R87). -/
def wr (r : Reg) (v : Word) : HostAction := .regWrite r.offset 32 v

/-- `RD <reg>` (R87). -/
def rd (r : Reg) : HostAction := .regRead r.offset 32

/-- `WRI <i>, <bytes>` (R87). -/
def wri : (i : Nat) → List Byte → List HostAction
  | _, [] => []
  | i, b :: bs => .ibufWrite i b :: wri (i + 1) bs

/-- `WRC <i>, <codes>` (R87). -/
def wrc : (i : Nat) → List Code → List HostAction
  | _, [] => []
  | i, c :: cs => .cbufWrite i c :: wrc (i + 1) cs

/-- `RDO <i>, <n>` (R87). -/
def rdo : (i n : Nat) → List HostAction
  | _, 0 => []
  | i, n + 1 => .obufRead i :: rdo (i + 1) n

/-- `RDC <i>, <n>` (R87). -/
def rdc : (i n : Nat) → List HostAction
  | _, 0 => []
  | i, n + 1 => .cbufRead i :: rdc (i + 1) n

/-- `T_CHILD ROOT, b` (R87): R = 1 and NODE = 0. -/
def tChildRoot (b : Byte) : Instr := .tChild true b 0

/-- `T_CHILD c, b` (R87): R = 0 and NODE = c. -/
def tChildOf (c : Code) (b : Byte) : Instr := .tChild false b c

/-- `T_INSERT ROOT, b` (R87): R = 1 and NODE = 0. -/
def tInsertRoot (b : Byte) : Instr := .tInsert true b 0

/-- `T_INSERT c, b` (R87): R = 0 and NODE = c. -/
def tInsertOf (c : Code) (b : Byte) : Instr := .tInsert false b c

/-- `COMPRESS` (R88). -/
def compress : List HostAction := [cmd .encode, cmd .pack]

/-- `DECOMPRESS` (R88). -/
def decompress : List HostAction := [cmd .unpack, cmd .decode]

/-- `SETBK TRIE` and `SETBK PATRICIA` (R88). -/
def setbk : Backend → List HostAction
  | .trie => [wr .ctrl 0, cmd .dictInit]
  | .patricia => [wr .ctrl 1, cmd .dictInit]

/-- `INSERT_PHRASE <pos>, <len>` (R88). -/
def insertPhrase (pos len : Word) : List HostAction := [wr .pos pos, wr .plen len, cmd .pInsert]

/-- `MATCH <pos>` (R88). -/
def matchFrom (pos : Word) : List HostAction := [wr .pos pos, cmd .lpm]

/-- `CLRST` (R88). -/
def clrst : HostAction := cmd .nop

end Sys2Proof.Machine
end

