-- ==== Sys2Proof/WellFormed.lean ====
section
/-! DEFINITION. Static checks: which configurations are blocks of this spec (00_scope R6, R7) and which host actions the block
defines (10_state R38, 20_memory R64). An `Instr` needs no check: its operands are typed by the widths of the fields. -/

namespace Sys2Proof

/-- CAP lies in [256, 65536] (00_scope R6). -/
def Config.capInRange (g : Config) : Bool :=
  decide (256 ≤ g.cap) && decide (g.cap ≤ 65536)

/-- The buffer sizes meet the constraints of 00_scope R7. -/
def Config.sizesInRange (g : Config) : Bool :=
  decide (1 ≤ g.ibufSize) && decide (g.ibufSize ≤ g.cbufSize) && decide (2 * g.cbufSize ≤ g.obufSize) &&
    decide (g.obufSize ≤ 2 ^ 32 - 1)

/-- The configuration is one this spec admits (00_scope R6, R7). -/
def Config.wf (g : Config) : Bool :=
  g.capInRange && g.sizesInRange

/-- The host action is one the block defines, on a block of configuration `g`: a register access is 32 bits wide, word-aligned and
in 0x00..0x3C (10_state R38), a buffer access is inside its buffer (20_memory R64), and RESET always is (70_reset R260). -/
def HostAction.wf (g : Config) : HostAction → Bool
  | .regRead offset width => decide (width = 32) && decide (offset % 4 = 0) && decide (offset ≤ 0x3C)
  | .regWrite offset width _ => decide (width = 32) && decide (offset % 4 = 0) && decide (offset ≤ 0x3C)
  | .ibufRead i => decide (i < g.ibufSize)
  | .ibufWrite i _ => decide (i < g.ibufSize)
  | .cbufRead i => decide (i < g.cbufSize)
  | .cbufWrite i _ => decide (i < g.cbufSize)
  | .obufRead i => decide (i < g.obufSize)
  | .obufWrite i _ => decide (i < g.obufSize)
  | .reset => true

end Sys2Proof
end

