-- ==== Sys2Proof/Safety.lean ====
section
/-! DEFINITION. What a run is and when it fails (70_reset R273), and the invariants between commands (10_state R41, R43, R46; 20_memory),
in the terms the statements use. -/

namespace Sys2Proof.Machine

/-- The state after a step, if the step answers one. -/
def nextOf : Outcome → Option State
  | .next s => some s
  | .fault _ => none
  | .refused _ => none

/-- The step from `s` reports an error class: it takes a CMD write whose command ends in an error (60_exceptions R231), or it is a
host-protocol fault (70_reset R265). -/
def stepFails (s : State) : Bool :=
  match s.host, step s with
  | .regWrite offset _ _ :: _, .next s' => decide (offset = Reg.offset .cmd) && decide (rcClass s'.rc = .error)
  | _, .fault .hostProtocol => true
  | _, _ => false

/-- A run of the host actions still in `s` fails (70_reset R273): some step of it does, `k` steps being looked at. -/
def runFails : (k : Nat) → State → Bool
  | 0, _ => false
  | k + 1, s =>
    stepFails s ||
      match step s with
      | .next s' => runFails k s'
      | .fault _ => false
      | .refused _ => false

/-- Phrase(n) of the node a handle names, the empty sequence for ROOT (41_prefix_trie R120); none where the handle is BAD_OPERAND. -/
def State.handlePhrase? (s : State) (r : Bool) (node : Code) : Option Phrase :=
  match s.handle? r node with
  | none => none
  | some .root => some []
  | some (.node c) => s.dict.phrase? c

/-- `p` is the phrase of code `c` and the longest stored phrase that is a beginning of `buf` (42_patricia R145). -/
def IsLongestPrefix (d : Dict) (buf : List Byte) (c : Code) (p : Phrase) : Prop :=
  d.phrase? c = some p ∧ p <+: buf ∧ ∀ c' p', d.phrase? c' = some p' → p' <+: buf → p'.length ≤ p.length

/-- The command does not run on the current backend (60_exceptions R232, third case). -/
def backendMismatch (i : Instr) (bk : Backend) : Bool :=
  match i with
  | .nop => false
  | .dictInit => false
  | .dread _ => false
  | .tChild _ _ _ => decide (bk = .patricia)
  | .tInsert _ _ _ => decide (bk = .patricia)
  | .pInsert => decide (bk = .trie)
  | .lpm => false
  | .encode => false
  | .decode => false
  | .pack => false
  | .unpack => false

/-- The operands of the command are out of range, row by row as 60_exceptions R233 lists them. -/
def operandOutOfRange (i : Instr) (s : State) : Prop :=
  match i with
  | .nop => False
  | .dictInit => False
  | .dread node => s.nextCode.toNat ≤ node.toNat
  | .tChild r _ node => (r = true ∧ node ≠ 0) ∨ (r = false ∧ s.nextCode.toNat ≤ node.toNat)
  | .tInsert r _ node => (r = true ∧ node ≠ 0) ∨ (r = false ∧ s.nextCode.toNat ≤ node.toNat)
  | .pInsert => s.cfg.ibufSize < s.inLen.toNat ∨ s.plen.toNat = 0 ∨ s.inLen.toNat < s.pos.toNat + s.plen.toNat
  | .lpm => s.cfg.ibufSize < s.inLen.toNat ∨ s.inLen.toNat < s.pos.toNat
  | .encode => s.cfg.ibufSize < s.inLen.toNat
  | .decode => s.cfg.cbufSize < s.codeLen.toNat
  | .pack => s.cfg.cbufSize < s.codeLen.toNat
  | .unpack => s.cfg.ibufSize < s.inLen.toNat

/-- The result codes a performed command can report: the "written by" column of 60_exceptions R230 with the errors of R232 and R233. -/
def reportable : Instr → List RC
  | .nop => [.ok]
  | .dictInit => [.ok]
  | .dread _ => [.ok, .overflow, .badOperand]
  | .tChild _ _ _ => [.hit, .miss, .illegalCmd, .badOperand]
  | .tInsert _ _ _ => [.inserted, .duplicate, .full, .illegalCmd, .badOperand]
  | .pInsert => [.inserted, .duplicate, .full, .illegalCmd, .badOperand]
  | .lpm => [.ok, .nomatch, .badOperand]
  | .encode => [.ok, .badOperand]
  | .decode => [.ok, .badCode, .overflow, .badOperand]
  | .pack => [.ok, .badOperand]
  | .unpack => [.ok, .badOperand]

/-- The host's next action is the CMD write of a word that decodes to the command (10_state R24). -/
def issues (s : State) (i : Instr) : Prop :=
  ∃ w rest, s.host = .regWrite (Reg.offset .cmd) 32 w :: rest ∧ decode w = .instr i

/-- The action writes CMD (10_state R24). -/
def isCmdWrite : HostAction → Bool
  | .regRead _ _ => false
  | .regWrite offset _ _ => decide (offset = Reg.offset .cmd)
  | .ibufRead _ => false
  | .ibufWrite _ _ => false
  | .cbufRead _ => false
  | .cbufWrite _ _ => false
  | .obufRead _ => false
  | .obufWrite _ _ => false
  | .reset => false

/-- The codes assigned are exactly those below NEXT_CODE, each once (10_state R40, R41, R43, R46). -/
def CodesBelow (codes : List Code) (next : BitVec 17) : Prop :=
  codes.Nodup ∧ ∀ c : Code, c ∈ codes ↔ c.toNat < next.toNat

/-- The invariants of a TRIE dictionary (10_state R43, 41_prefix_trie R124): children are maps, each code below NEXT_CODE is at one node,
and the root has the child of every byte, with that byte as its code. -/
structure TrieInv (root : Forest) (next : BitVec 17) : Prop where
  maps : root.mapLike = true
  codes : CodesBelow root.codes next
  seeded : ∀ b : Byte, ∃ kids, root.child? b = some (b.code, kids)

/-- The invariants of a PATRICIA dictionary (10_state R46, 42_patricia R148): keys are pairwise distinct at every node, each code below
NEXT_CODE is at one node, and the root has, for every byte, the edge labelled with it to the node of its code. -/
structure PatriciaInv (root : Radix) (next : BitVec 17) : Prop where
  maps : root.mapLike = true
  codes : CodesBelow root.codes next
  seeded : ∀ b : Byte, ∃ kids, root.edge? b = some ([], some b.code, kids)

/-- The invariants of the current dictionary. -/
def DictInv : Dict → BitVec 17 → Prop
  | .trie root, next => TrieInv root next
  | .patricia root, next => PatriciaInv root next

/-- What holds of the registers and buffers between commands: the configuration is a block's, 256 <= NEXT_CODE <= CAP (10_state R32,
R41), the block is not busy (R25), and the three buffers are in canonical form inside their sizes. -/
structure WindowInv (s : State) : Prop where
  cfg : s.cfg.wf = true
  nextLow : 256 ≤ s.nextCode.toNat
  nextHigh : s.nextCode.toNat ≤ s.cfg.cap
  idle : s.busy = false
  ibuf : Memory.wf s.cfg.ibufSize s.ibuf = true
  cbuf : Memory.wf s.cfg.cbufSize s.cbuf = true
  obuf : Memory.wf s.cfg.obufSize s.obuf = true

/-- The invariant between commands: that of the registers and buffers and that of the dictionary. -/
structure Inv (s : State) : Prop where
  window : WindowInv s
  dict : DictInv s.dict s.nextCode

end Sys2Proof.Machine
end

