-- ==== Sys2Proof/Certificates/Slice0/Obligations.lean ====
section
/-! DEFINITION. The statements for the provers. Each one's docstring names the rules of spec/ it formalises. -/

open Sys2Proof Sys2Proof.Machine

/-! ### Encoding -/

/-- 30_encoding R80 to R83: decoding the word of any command, with every operand at every value, gives the command back. -/
def Obligations.DecodeOfEncodeIsTheCommand : Prop :=
  ∀ i : Instr, decode (encode i) = .instr i

/-- 30_encoding R81 to R85: a word that decodes to a command is that command's word, so no bit of a legal word is ignored. -/
def Obligations.EncodeOfDecodeIsTheWord : Prop :=
  ∀ (w : Word) (i : Instr), decode w = .instr i → encode i = w

/-- 30_encoding R83: the opcode map is the eleven rows of the table, one per command in the table's order, of which at most one matches a
word; a word is a command exactly when one does, and then it is a command of that row; every other opcode is reserved. That the rows do not
overlap is the spec's own inference, below the table. -/
def Obligations.WordSelectsAtMostOneRow : Prop :=
  opcodeMap =
    [⟨0x00, 0x00000000, 0xFFFFFFFF⟩, ⟨0x01, 0x02000000, 0xFFFFFFFF⟩, ⟨0x02, 0x04000000, 0xFFFF0000⟩, ⟨0x10, 0x20000000, 0xFE000000⟩,
     ⟨0x11, 0x22000000, 0xFE000000⟩, ⟨0x20, 0x40000000, 0xFFFFFFFF⟩, ⟨0x21, 0x42000000, 0xFFFFFFFF⟩, ⟨0x30, 0x60000000, 0xFFFFFFFF⟩,
     ⟨0x38, 0x70000000, 0xFFFFFFFF⟩, ⟨0x40, 0x80000000, 0xFFFFFFFF⟩, ⟨0x41, 0x82000000, 0xFFFFFFFF⟩] ∧
  (∀ (r : Bool) (b : Byte) (c : Code), opcodeMap =
    [opcodeRow .nop, opcodeRow .dictInit, opcodeRow (.dread c), opcodeRow (.tChild r b c), opcodeRow (.tInsert r b c), opcodeRow .pInsert,
     opcodeRow .lpm, opcodeRow .encode, opcodeRow .decode, opcodeRow .pack, opcodeRow .unpack]) ∧
  ∀ w : Word,
    (∀ row ∈ opcodeMap, ∀ row' ∈ opcodeMap, w &&& row.mask = row.word → w &&& row'.mask = row'.word → row = row') ∧
    ((∃ i, decode w = .instr i) ↔ ∃ row ∈ opcodeMap, w &&& row.mask = row.word) ∧
    (∀ i, decode w = .instr i → opcodeRow i ∈ opcodeMap ∧ w &&& (opcodeRow i).mask = (opcodeRow i).word) ∧
    (decode w = .reject .reservedOpcode ↔ ∀ row ∈ opcodeMap, row.opc ≠ w.extractLsb' 25 7)

/-- 30_encoding R84: an opcode outside the table is one of the reserved ranges, and performing such a word sets STATUS.RC to ILLEGAL_CMD and
changes nothing else. -/
def Obligations.ReservedOpcodeOnlySetsIllegalCmd : Prop :=
  (∀ o : BitVec 7, (∀ row ∈ opcodeMap, row.opc ≠ o) ↔
    ((0x03 ≤ o.toNat ∧ o.toNat ≤ 0x0F) ∨ (0x12 ≤ o.toNat ∧ o.toNat ≤ 0x1F) ∨ (0x22 ≤ o.toNat ∧ o.toNat ≤ 0x2F) ∨
      (0x31 ≤ o.toNat ∧ o.toNat ≤ 0x37) ∨ (0x39 ≤ o.toNat ∧ o.toNat ≤ 0x3F) ∨ (0x42 ≤ o.toNat ∧ o.toNat ≤ 0x7F))) ∧
  ∀ (s : State) (w : Word), (∀ row ∈ opcodeMap, row.opc ≠ w.extractLsb' 25 7) → s.issue w = .next { s with rc := .illegalCmd }

/-- 30_encoding R85: a must-be-zero bit set, [24:0] in format N and [24:16] in format C, sets ILLEGAL_CMD and nothing else; a format-T word
has no must-be-zero bits, and its operand check, made when it is performed, raises BAD_OPERAND (on a TRIE dictionary, R238). -/
def Obligations.MustBeZeroBitsOnlySetIllegalCmd : Prop :=
  ∀ (s : State) (w : Word),
    (w.extractLsb' 25 7 ∈ ([0x00, 0x01, 0x20, 0x21, 0x30, 0x38, 0x40, 0x41] : List (BitVec 7)) → w.extractLsb' 0 25 ≠ 0 →
      s.issue w = .next { s with rc := .illegalCmd }) ∧
    (w.extractLsb' 25 7 = 0x02 → w.extractLsb' 16 9 ≠ 0 → s.issue w = .next { s with rc := .illegalCmd }) ∧
    (w.extractLsb' 25 7 = 0x10 → decode w = .instr (.tChild (w.getLsbD 24) (w.extractLsb' 16 8) (w.extractLsb' 0 16))) ∧
    (w.extractLsb' 25 7 = 0x11 → decode w = .instr (.tInsert (w.getLsbD 24) (w.extractLsb' 16 8) (w.extractLsb' 0 16))) ∧
    (w.extractLsb' 25 7 ∈ ([0x10, 0x11] : List (BitVec 7)) → s.dbk = .trie →
      (w.getLsbD 24 = true ∧ w.extractLsb' 0 16 ≠ 0) ∨ (w.getLsbD 24 = false ∧ s.nextCode.toNat ≤ (w.extractLsb' 0 16).toNat) →
      s.issue w = .next { s with rc := .badOperand })

/-- 30_encoding R83 and spec/95_test_vectors.md: words written out from the opcode map decode to their commands. -/
def Obligations.WrittenOutWordsDecode : Prop :=
  decode 0x00000000 = .instr .nop ∧ decode 0x02000000 = .instr .dictInit ∧ decode 0x04000102 = .instr (.dread 258) ∧
  decode 0x20420041 = .instr (.tChild false 0x42 0x41) ∧ decode 0x21FF0000 = .instr (.tChild true 0xFF 0) ∧
  decode 0x22410100 = .instr (.tInsert false 0x41 256) ∧ decode 0x40000000 = .instr .pInsert ∧ decode 0x42000000 = .instr .lpm ∧
  decode 0x60000000 = .instr .encode ∧ decode 0x70000000 = .instr .decode ∧ decode 0x80000000 = .instr .pack ∧
  decode 0x82000000 = .instr .unpack ∧ decode 0x06000000 = .reject .reservedOpcode ∧ decode 0x04010041 = .reject .mustBeZero

/-! ### The step and the host's actions -/

/-- 30_encoding R91, 10_state R24: when the host's next action writes a word to CMD on a block that is not busy, the step is the command the
word decodes to, performed with that action taken off the host's list; a word that decodes to none sets ILLEGAL_CMD only. -/
def Obligations.StepPerformsTheDecodedCommand : Prop :=
  ∀ (s : State) (w : Word) (rest : List HostAction), s.busy = false → s.host = .regWrite 0x00 32 w :: rest →
    (∀ i, decode w = .instr i → step s = exec i { s with host := rest }) ∧
    (∀ r, decode w = .reject r → step s = .next { s with host := rest, rc := .illegalCmd })

/-- 00_scope R19 (the engine never acts on its own), by the model's convention of log 3: with no host action left a step changes nothing. -/
def Obligations.EngineWaitsForTheHost : Prop :=
  ∀ s : State, s.host = [] → step s = .next s

/-- 70_reset R265: while BUSY = 1, a host action other than a read of STATUS is a fault; the read of STATUS returns it and changes nothing
of the block. -/
def Obligations.HostActionWhileBusyFaults : Prop :=
  ∀ (s : State) (a : HostAction) (rest : List HostAction), s.busy = true → s.host = a :: rest →
    (a ≠ .regRead 0x04 32 → step s = .fault .hostProtocol) ∧
    (a = .regRead 0x04 32 → step s = .next { s with host := rest, lastRead := some s.status })

/-- 10_state R38, 20_memory R64, R67, R68: on a block that is not busy, a host action is refused exactly when the block does not define it:
a register access of another width, unaligned or outside the window, a buffer index outside the buffer. -/
def Obligations.UndefinedHostActionsAreRefused : Prop :=
  ∀ (s : State) (a : HostAction) (rest : List HostAction), s.busy = false → s.host = a :: rest →
    ((∃ r, step s = .refused r) ↔ a.wf s.cfg = false)

/-- 20_memory R69, 10_state R23, R24, R38: a host read returns the register's or the element's value and changes nothing of the block. The
registers stand at the offsets of R23's table: CMD reads 0, RES_CODE, NEXT_CODE and CAP read zero-extended, a reserved offset reads 0. -/
def Obligations.HostReadsChangeNothing : Prop :=
  ∀ (s : State) (rest : List HostAction), s.busy = false →
    (∀ p ∈ ([(0x00, 0), (0x04, s.status), (0x08, if s.ctrl = .patricia then 1 else 0), (0x0C, s.inLen), (0x10, s.pos), (0x14, s.plen),
        (0x18, s.codeLen), (0x1C, s.outLen), (0x20, s.nextCode.setWidth 32), (0x24, s.resCode.setWidth 32), (0x28, s.resLen),
        (0x2C, s.errIndex), (0x30, BitVec.ofNat 32 s.cfg.cap), (0x34, 0), (0x38, 0), (0x3C, 0)] : List (Nat × Word)),
      s.host = .regRead p.1 32 :: rest → step s = .next { s with host := rest, lastRead := some p.2 }) ∧
    (∀ r : Reg, s.host = .regRead r.offset 32 :: rest → step s = .next { s with host := rest, lastRead := some (s.readReg r) }) ∧
    (∀ i, i < s.cfg.ibufSize → s.host = .ibufRead i :: rest →
      step s = .next { s with host := rest, lastRead := some ((s.ibufAt i).setWidth 32) }) ∧
    (∀ i, i < s.cfg.cbufSize → s.host = .cbufRead i :: rest →
      step s = .next { s with host := rest, lastRead := some ((s.cbufAt i).setWidth 32) }) ∧
    (∀ i, i < s.cfg.obufSize → s.host = .obufRead i :: rest →
      step s = .next { s with host := rest, lastRead := some ((s.obufAt i).setWidth 32) })

/-- 10_state R23, R27 to R38: a host write to an RW register, at its offset of R23's table, stores the value, of CTRL only bit [0], and is
read back; a write to an RO register or a reserved offset is ignored; no other register and nothing else of the block changes. -/
def Obligations.RegisterWritesStoreOrAreIgnored : Prop :=
  ∀ (s : State) (v : Word) (rest : List HostAction), s.busy = false →
    (s.host = .regWrite 0x08 32 v :: rest →
      step s = .next { s with host := rest, ctrl := if v.getLsbD 0 = true then .patricia else .trie }) ∧
    (s.host = .regWrite 0x0C 32 v :: rest → step s = .next { s with host := rest, inLen := v }) ∧
    (s.host = .regWrite 0x10 32 v :: rest → step s = .next { s with host := rest, pos := v }) ∧
    (s.host = .regWrite 0x14 32 v :: rest → step s = .next { s with host := rest, plen := v }) ∧
    (s.host = .regWrite 0x18 32 v :: rest → step s = .next { s with host := rest, codeLen := v }) ∧
    (∀ o ∈ [0x04, 0x1C, 0x20, 0x24, 0x28, 0x2C, 0x30, 0x34, 0x38, 0x3C], s.host = .regWrite o 32 v :: rest →
      step s = .next { s with host := rest }) ∧
    (∀ r : Reg, r ≠ .cmd → s.host = .regWrite r.offset 32 v :: rest →
      ∃ t, step s = .next t ∧
        t.readReg r = (if r = .ctrl then v &&& 1 else if r ∈ [Reg.inLen, .pos, .plen, .codeLen] then v else s.readReg r) ∧
        (∀ r', r' ≠ r → t.readReg r' = s.readReg r') ∧
        t = { s with host := rest, ctrl := t.ctrl, inLen := t.inLen, pos := t.pos, plen := t.plen, codeLen := t.codeLen })

/-- 10_state R25, 60_exceptions R230: the fields of STATUS as the host reads them: RC in [3:0] with the eleven values of R230's table, FULL in
[4] computed from NEXT_CODE and CAP, DBK in [5], BUSY in [6], the rest 0. -/
def Obligations.StatusReadsItsFields : Prop :=
  ∀ s : State,
    (∀ p ∈ ([(.ok, 0x0), (.hit, 0x1), (.miss, 0x2), (.inserted, 0x3), (.duplicate, 0x4), (.full, 0x5), (.nomatch, 0x6), (.badCode, 0x7),
        (.overflow, 0x8), (.illegalCmd, 0x9), (.badOperand, 0xA)] : List (RC × BitVec 4)),
      s.rc = p.1 → (s.readReg .status).extractLsb' 0 4 = p.2 ∧ s.rc.bits = p.2) ∧
    ((s.readReg .status).getLsbD 4 = true ↔ s.cfg.cap ≤ s.nextCode.toNat) ∧
    ((s.readReg .status).getLsbD 5 = true ↔ s.dict.backend = .patricia) ∧
    (s.readReg .status).getLsbD 6 = s.busy ∧
    (s.readReg .status).extractLsb' 7 25 = 0 ∧
    s.readReg .status = s.status

/-- 20_memory R64, one element at a time: inside a buffer, a host write stores exactly the value, every other element and everything else
stays, and a host read returns what the element holds; outside it, the access is refused. -/
def Obligations.BufferAccessesMoveOneElement : Prop :=
  ∀ (s : State) (i : Nat) (b : Byte) (c : Code) (rest : List HostAction), s.busy = false →
    (i < s.cfg.ibufSize →
      (s.host = .ibufWrite i b :: rest → ∃ t, step s = .next t ∧ t.ibufAt i = b ∧ (∀ j, j ≠ i → t.ibufAt j = s.ibufAt j) ∧
        t = { s with host := rest, ibuf := t.ibuf }) ∧
      (s.host = .ibufRead i :: rest → step s = .next { s with host := rest, lastRead := some ((s.ibufAt i).setWidth 32) })) ∧
    (i < s.cfg.cbufSize →
      (s.host = .cbufWrite i c :: rest → ∃ t, step s = .next t ∧ t.cbufAt i = c ∧ (∀ j, j ≠ i → t.cbufAt j = s.cbufAt j) ∧
        t = { s with host := rest, cbuf := t.cbuf }) ∧
      (s.host = .cbufRead i :: rest → step s = .next { s with host := rest, lastRead := some ((s.cbufAt i).setWidth 32) })) ∧
    (i < s.cfg.obufSize →
      (s.host = .obufWrite i b :: rest → ∃ t, step s = .next t ∧ t.obufAt i = b ∧ (∀ j, j ≠ i → t.obufAt j = s.obufAt j) ∧
        t = { s with host := rest, obuf := t.obuf }) ∧
      (s.host = .obufRead i :: rest → step s = .next { s with host := rest, lastRead := some ((s.obufAt i).setWidth 32) })) ∧
    (s.cfg.ibufSize ≤ i → s.host = .ibufWrite i b :: rest ∨ s.host = .ibufRead i :: rest → step s = .refused .bufferIndex) ∧
    (s.cfg.cbufSize ≤ i → s.host = .cbufWrite i c :: rest ∨ s.host = .cbufRead i :: rest → step s = .refused .bufferIndex) ∧
    (s.cfg.obufSize ≤ i → s.host = .obufWrite i b :: rest ∨ s.host = .obufRead i :: rest → step s = .refused .bufferIndex)

/-- 70_reset R260, R261: RESET gives every register its reset value and the seeded TRIE dictionary of the 256 singletons. That every buffer
element then holds the free value of a new draw is the model's convention (log 2). -/
def Obligations.ResetActionReseedsTheBlock : Prop :=
  ∀ (s : State) (rest : List HostAction), s.busy = false → s.host = .reset :: rest →
    ∃ t, step s = .next t ∧ t.cfg = s.cfg ∧ t.host = rest ∧ t.lastRead = s.lastRead ∧ t.draw = s.draw + 1 ∧
      t.rc = .ok ∧ t.busy = false ∧ t.ctrl = .trie ∧ t.inLen = 0 ∧ t.pos = 0 ∧ t.plen = 0 ∧ t.codeLen = 0 ∧ t.outLen = 0 ∧
      t.nextCode = 256 ∧ t.resCode = 0 ∧ t.resLen = 0 ∧ t.errIndex = 0 ∧ t.dict.backend = .trie ∧
      (∀ c : Code, t.dict.phrase? c = if c.toNat < 256 then some [c.setWidth 8] else none) ∧
      (∀ i, t.ibufAt i = Config.freeIbuf t.draw i ∧ t.cbufAt i = Config.freeCbuf t.draw i ∧ t.obufAt i = Config.freeObuf t.draw i)

/-- 10_state R39 with the tables of R23 and R25: right after reset, in every configuration, the sixteen offsets of the window read their
reset values, STATUS 0x10 when CAP = 256 and 0 otherwise, and the dictionary is the seeded TRIE dictionary. -/
def Obligations.ResetWindowReadsItsTable : Prop :=
  ∀ g : Config, g.wf = true →
    ([0x00, 0x04, 0x08, 0x0C, 0x10, 0x14, 0x18, 0x1C, 0x20, 0x24, 0x28, 0x2C, 0x30, 0x34, 0x38, 0x3C].map
        (State.resetOf g).readOffset =
      [0, if g.cap = 256 then 0x10 else 0, 0, 0, 0, 0, 0, 0, 256, 0, 0, 0, BitVec.ofNat 32 g.cap, 0, 0, 0]) ∧
    (State.resetOf g).dict = Dict.seed .trie

/-! ### Invariants -/

/-- The invariant between commands holds right after reset, in every configuration (10_state R32, R41, R43; 20_memory). -/
def Obligations.ResetMeetsTheInvariant : Prop :=
  ∀ g : Config, g.wf = true → Inv (State.resetOf g)

/-- 10_state R25, R32, R41 (fifth): from every state that meets it, a step keeps 256 <= NEXT_CODE <= CAP, the configuration, BUSY = 0, and
the canonical form of the three buffers inside their sizes (00_scope R7: ENCODE, PACK and UNPACK cannot pass the end of theirs). -/
def Obligations.StepKeepsTheWindowInvariant : Prop :=
  ∀ s s' : State, WindowInv s → step s = .next s' → WindowInv s'

/-- 10_state R40, R41, R43, R46: from every state that meets the whole invariant, that of the dictionary included, a step keeps it. -/
def Obligations.StepKeepsTheInvariant : Prop :=
  ∀ s s' : State, Inv s → step s = .next s' → Inv s'

/-- 10_state R40: D is defined at exactly the codes 0..NEXT_CODE-1. -/
def Obligations.AssignedCodesHavePhrases : Prop :=
  ∀ s : State, Inv s → ∀ c : Code, (∃ p, s.dict.phrase? c = some p) ↔ c.toNat < s.nextCode.toNat

/-- 10_state R41, first, second, fourth and fifth: phrases and codes are in one-to-one correspondence, code b is the singleton [b], every
phrase has a byte, and NEXT_CODE <= CAP. -/
def Obligations.PhrasesAreInjectiveAndSeeded : Prop :=
  ∀ s : State, Inv s →
    (∀ c c' p, s.dict.phrase? c = some p → s.dict.phrase? c' = some p → c = c') ∧
    (∀ b : Byte, s.dict.phrase? b.code = some [b]) ∧
    (∀ c p, s.dict.phrase? c = some p → 1 ≤ p.length) ∧
    s.nextCode.toNat ≤ s.cfg.cap

/-- 10_state R41, third, and 40_dictionary_control R106: within one dictionary's lifetime no code is reassigned or removed: a command other
than DICT_INIT and ENCODE leaves every stored phrase under its code. -/
def Obligations.StoredPhrasesKeepTheirCodes : Prop :=
  ∀ (i : Instr) (s s' : State), Inv s → i ≠ .dictInit → i ≠ .encode → exec i s = .next s' →
    ∀ c p, s.dict.phrase? c = some p → s'.dict.phrase? c = some p

/-- 10_state R42, in part, the spec's inference from R122: a TRIE dictionary is prefix-closed. -/
def Obligations.TrieDictionaryIsPrefixClosed : Prop :=
  ∀ (s : State) (root : Forest), Inv s → s.dict = .trie root →
    ∀ (c : Code) (p : Phrase), s.dict.phrase? c = some p → 2 ≤ p.length → ∃ c', s.dict.phrase? c' = some p.dropLast

/-! ### Rules of the whole machine -/

/-- 60_exceptions R236, R230, 30_encoding R91: every command ends in a next state, whatever the state, and reports one of the result codes
the table allows it. -/
def Obligations.EveryCommandReportsAResult : Prop :=
  ∀ (i : Instr) (s : State), ∃ s', exec i s = .next s' ∧ s'.rc ∈ reportable i

/-- 10_state R32: NEXT_CODE is set to 256 by DICT_INIT, set by ENCODE, incremented by exactly 1, only while it is below CAP, by an insertion
that returns INSERTED, and changed by no other command. -/
def Obligations.NextCodeMovesOnlyByInsertion : Prop :=
  ∀ (i : Instr) (s s' : State), exec i s = .next s' →
    (i = .dictInit → s'.nextCode = 256) ∧
    (i ≠ .dictInit → i ≠ .encode →
      (s'.rc = .inserted → s.nextCode.toNat < s.cfg.cap ∧ s'.nextCode = s.nextCode + 1) ∧
      (s'.rc ≠ .inserted → s'.nextCode = s.nextCode)) ∧
    (s'.rc = .inserted → (∃ r b c, i = .tInsert r b c) ∨ i = .pInsert)

/-- 10_state R49: DICT_INIT and ENCODE set DBK from CTRL.BACKEND, reset sets it to TRIE, and it changes at no other time. -/
def Obligations.BackendTagChangesOnlyByInitEncodeReset : Prop :=
  ∀ s s' : State, s.busy = false → step s = .next s' →
    (issues s .dictInit → s'.dbk = s.ctrl) ∧
    (issues s .encode → s'.rc = .ok → s'.dbk = s.ctrl) ∧
    (∀ rest, s.host = .reset :: rest → s'.dbk = .trie) ∧
    (s'.dbk ≠ s.dbk → issues s .dictInit ∨ issues s .encode ∨ ∃ rest, s.host = .reset :: rest)

/-- 10_state R27 to R30, 20_memory R61: no command writes IBUF, IN_LEN, POS, PLEN or CTRL, and none touches the configuration, BUSY, the
draw of the free contents or the host's side. -/
def Obligations.CommandsLeaveTheirOperands : Prop :=
  ∀ (i : Instr) (s s' : State), exec i s = .next s' →
    s'.ibuf = s.ibuf ∧ s'.inLen = s.inLen ∧ s'.pos = s.pos ∧ s'.plen = s.plen ∧ s'.ctrl = s.ctrl ∧ s'.cfg = s.cfg ∧
    s'.busy = s.busy ∧ s'.draw = s.draw ∧ s'.host = s.host ∧ s'.lastRead = s.lastRead

/-- 20_memory R65, 10_state R31 to R36: each result register and buffer is written only by the commands whose rules say so, ERR_INDEX only
by DECODE and only on BAD_CODE and OVERFLOW. -/
def Obligations.ResultsHaveOnlyTheirWriters : Prop :=
  ∀ (i : Instr) (s s' : State), exec i s = .next s' →
    (s'.dict ≠ s.dict → i = .dictInit ∨ (∃ r b c, i = .tInsert r b c) ∨ i = .pInsert ∨ i = .encode) ∧
    (s'.cbuf ≠ s.cbuf ∨ s'.codeLen ≠ s.codeLen → i = .encode ∨ i = .unpack) ∧
    (s'.obuf ≠ s.obuf ∨ s'.outLen ≠ s.outLen → i = .pack ∨ i = .decode ∨ ∃ c, i = .dread c) ∧
    (s'.resCode ≠ s.resCode →
      (∃ r b c, i = .tChild r b c) ∨ (∃ r b c, i = .tInsert r b c) ∨ i = .pInsert ∨ i = .lpm ∨ ∃ c, i = .dread c) ∧
    (s'.resLen ≠ s.resLen → i = .pInsert ∨ i = .lpm ∨ ∃ c, i = .dread c) ∧
    (s'.errIndex ≠ s.errIndex → i = .decode ∧ (s'.rc = .badCode ∨ s'.rc = .overflow))

/-- 10_state R48, 70_reset R266, R270: a host action other than a CMD write and RESET leaves the dictionary, NEXT_CODE, the result code and
every result register as they are. -/
def Obligations.HostActionsLeaveTheDictionary : Prop :=
  ∀ (s s' : State) (a : HostAction) (rest : List HostAction), s.host = a :: rest → isCmdWrite a = false → a ≠ .reset →
    step s = .next s' →
    s'.dict = s.dict ∧ s'.nextCode = s.nextCode ∧ s'.rc = s.rc ∧ s'.outLen = s.outLen ∧ s'.resCode = s.resCode ∧
    s'.resLen = s.resLen ∧ s'.errIndex = s.errIndex ∧ s'.cfg = s.cfg ∧ s'.busy = s.busy ∧ s'.draw = s.draw ∧ s'.host = rest

/-- 60_exceptions R232: a word written to CMD reports ILLEGAL_CMD exactly when its opcode is reserved or a must-be-zero bit is set, or the
command does not run on the current backend; then nothing but STATUS.RC changes. -/
def Obligations.IllegalCmdExactlyWhenListed : Prop :=
  ∀ (s : State) (w : Word),
    ((∃ s', s.issue w = .next s' ∧ s'.rc = .illegalCmd) ↔
      (∃ r, decode w = .reject r) ∨ ∃ i, decode w = .instr i ∧ backendMismatch i s.dbk = true) ∧
    ∀ s', s.issue w = .next s' → s'.rc = .illegalCmd → s' = { s with rc := .illegalCmd }

/-- 60_exceptions R233, R238: a command on its own backend reports BAD_OPERAND exactly when an operand is out of range as its row of the
table says; then nothing but STATUS.RC changes. -/
def Obligations.BadOperandExactlyWhenListed : Prop :=
  ∀ (i : Instr) (s : State), Inv s → backendMismatch i s.dbk = false →
    ((∃ s', exec i s = .next s' ∧ s'.rc = .badOperand) ↔ operandOutOfRange i s) ∧
    ∀ s', exec i s = .next s' → s'.rc = .badOperand → s' = { s with rc := .badOperand }

/-- 10_state R53: no command reads STATUS.RC: with any result code before it, a command does the same. -/
def Obligations.CommandsDoNotReadTheResultCode : Prop :=
  ∀ (i : Instr) (s : State) (rc : RC), exec i { s with rc := rc } = exec i s

/-- 10_state R52, which the spec derives from R173 and R147: the backend structure shows in no result: two blocks that agree on everything
but the structure and CTRL, with the same phrases under the same codes, still do so after a command both backends accept. -/
def Obligations.BackendIsNotObservable : Prop :=
  ∀ (i : Instr) (s t : State), Inv s → Inv t → (∀ bk, backendMismatch i bk = false) →
    t = { s with dict := t.dict, ctrl := t.ctrl } → (∀ c, t.dict.phrase? c = s.dict.phrase? c) →
    ∃ s' t', exec i s = .next s' ∧ exec i t = .next t' ∧ t' = { s' with dict := t'.dict, ctrl := t'.ctrl } ∧
      ∀ c, t'.dict.phrase? c = s'.dict.phrase? c

/-- 70_reset R273, 60_exceptions R231: a step fails exactly when it takes a CMD write that reports an error class (BAD_CODE, OVERFLOW,
ILLEGAL_CMD, BAD_OPERAND) or is a host-protocol fault; a signal (INSERTED, DUPLICATE, FULL) is no failure. -/
def Obligations.StepFailsOnErrorsAndViolations : Prop :=
  ∀ s : State, stepFails s = true ↔
    (s.busy = false ∧ ∃ w rest s', s.host = .regWrite 0x00 32 w :: rest ∧ step s = .next s' ∧
      s'.rc ∈ [RC.badCode, RC.overflow, RC.illegalCmd, RC.badOperand]) ∨
    (s.busy = true ∧ ∃ a rest, s.host = a :: rest ∧ a ≠ .regRead 0x04 32)

/-! ### NOP, DICT_INIT, DREAD -/

/-- 40_dictionary_control R101: NOP, word 0, writes STATUS.RC <- OK and changes nothing else; a word of its opcode with any bit of [24:0]
set is ILLEGAL_CMD. -/
def Obligations.NopClearsTheStatus : Prop :=
  encode .nop = 0x00000000 ∧
  (∀ s : State, exec .nop s = .next { s with rc := .ok }) ∧
  ∀ (s : State) (w : Word), w.extractLsb' 25 7 = 0x00 →
    s.issue w = .next { s with rc := if w.extractLsb' 0 25 = 0 then .ok else .illegalCmd }

/-- 40_dictionary_control R102: DICT_INIT reports OK with a fresh dictionary of the backend in CTRL.BACKEND that holds exactly the 256
singletons, NEXT_CODE = 256 and FULL = (256 >= CAP); nothing else changes; its word is 0x02000000, and a word of its opcode with any bit of
[24:0] set is ILLEGAL_CMD. -/
def Obligations.DictInitSeedsTheSelectedBackend : Prop :=
  encode .dictInit = 0x02000000 ∧
  (∀ (s : State) (w : Word), w.extractLsb' 25 7 = 0x01 → w.extractLsb' 0 25 ≠ 0 → s.issue w = .next { s with rc := .illegalCmd }) ∧
  ∀ s : State, ∃ s', exec .dictInit s = .next s' ∧ s'.rc = .ok ∧ s'.dbk = s.ctrl ∧ s'.nextCode = 256 ∧
    (s'.fullFlag = true ↔ s.cfg.cap ≤ 256) ∧
    (∀ c : Code, s'.dict.phrase? c = if c.toNat < 256 then some [c.setWidth 8] else none) ∧
    s' = { s with rc := .ok, dict := s'.dict, nextCode := 256 }

/-- 40_dictionary_control R104: DREAD of an assigned code whose phrase fits reports OK, gives the code, the length and the phrase's bytes in
OBUF[0..OUT_LEN), and changes nothing else, OBUF beyond the phrase included. -/
def Obligations.DreadDeliversThePhrase : Prop :=
  ∀ (s : State) (c : Code) (p : Phrase), s.cfg.wf = true → c.toNat < s.nextCode.toNat → s.dict.phrase? c = some p →
    p.length ≤ s.cfg.obufSize →
    ∃ s', exec (.dread c) s = .next s' ∧ s'.rc = .ok ∧ s'.resCode = c ∧ s'.resLen.toNat = p.length ∧ s'.outLen.toNat = p.length ∧
      (∀ i (h : i < p.length), s'.obufAt i = p[i]) ∧ (∀ i, p.length ≤ i → s'.obufAt i = s.obufAt i) ∧
      s' = { s with rc := .ok, resCode := c, resLen := s'.resLen, outLen := s'.outLen, obuf := s'.obuf }

/-- 40_dictionary_control R104, 60_exceptions R235: DREAD of a phrase longer than OBUF reports OVERFLOW, fills OBUF with its first OBUF_SIZE
bytes, and still gives the code and the full length (as a 32-bit value). -/
def Obligations.DreadOverflowTruncates : Prop :=
  ∀ (s : State) (c : Code) (p : Phrase), s.cfg.wf = true → c.toNat < s.nextCode.toNat → s.dict.phrase? c = some p →
    s.cfg.obufSize < p.length →
    ∃ s', exec (.dread c) s = .next s' ∧ s'.rc = .overflow ∧ s'.resCode = c ∧ s'.resLen = BitVec.ofNat 32 p.length ∧
      s'.outLen.toNat = s.cfg.obufSize ∧
      (∀ i (h : i < s.cfg.obufSize) (h' : i < p.length), s'.obufAt i = p[i]) ∧
      (∀ i, s.cfg.obufSize ≤ i → s'.obufAt i = s.obufAt i) ∧
      s' = { s with rc := .overflow, resCode := c, resLen := s'.resLen, outLen := s'.outLen, obuf := s'.obuf }

/-! ### T_CHILD, T_INSERT -/

/-- 41_prefix_trie R121, with the handle of R120: the fields of T_CHILD's word; ILLEGAL_CMD on a PATRICIA dictionary, BAD_OPERAND at an
invalid handle; at a handle whose node has phrase q, HIT with the code of q ++ [b] when that phrase is stored and MISS when it is not, at
ROOT always HIT with code b; nothing else changes. -/
def Obligations.TChildFindsTheExtendedPhrase : Prop :=
  (∀ (r : Bool) (b : Byte) (node : Code),
    (encode (.tChild r b node)).extractLsb' 25 7 = 0x10 ∧ (encode (.tChild r b node)).getLsbD 24 = r ∧
    (encode (.tChild r b node)).extractLsb' 16 8 = b ∧ (encode (.tChild r b node)).extractLsb' 0 16 = node) ∧
  (∀ (s : State) (r : Bool) (b : Byte) (node : Code), s.dbk = .patricia →
    exec (.tChild r b node) s = .next { s with rc := .illegalCmd }) ∧
  (∀ (s : State) (r : Bool) (b : Byte) (node : Code), s.dbk = .trie →
    (r = true ∧ node ≠ 0) ∨ (r = false ∧ s.nextCode.toNat ≤ node.toNat) →
    exec (.tChild r b node) s = .next { s with rc := .badOperand }) ∧
  (∀ (s : State) (r : Bool) (b : Byte) (node : Code) (q : Phrase), Inv s → s.dbk = .trie → s.handlePhrase? r node = some q →
    (∀ c, s.dict.phrase? c = some (q ++ [b]) → exec (.tChild r b node) s = .next { s with rc := .hit, resCode := c }) ∧
    ((∀ c, s.dict.phrase? c ≠ some (q ++ [b])) → exec (.tChild r b node) s = .next { s with rc := .miss })) ∧
  (∀ (s : State) (b : Byte), Inv s → s.dbk = .trie → exec (.tChild true b 0) s = .next { s with rc := .hit, resCode := b.code })

/-- 41_prefix_trie R122: T_INSERT on a TRIE dictionary that is not frozen, at a node of phrase q without a child at b, reports INSERTED,
assigns NEXT_CODE to q ++ [b], increments NEXT_CODE, and keeps every other phrase; nothing else changes. -/
def Obligations.TInsertAssignsTheNextCode : Prop :=
  ∀ (s : State) (r : Bool) (b : Byte) (node : Code) (q : Phrase), Inv s → s.dbk = .trie → s.handlePhrase? r node = some q →
    s.nextCode.toNat < s.cfg.cap → (∀ c, s.dict.phrase? c ≠ some (q ++ [b])) →
    ∃ s', exec (.tInsert r b node) s = .next s' ∧ s'.rc = .inserted ∧ s'.resCode.toNat = s.nextCode.toNat ∧
      s'.nextCode.toNat = s.nextCode.toNat + 1 ∧ s'.dbk = .trie ∧
      (∀ c : Code, s'.dict.phrase? c = if c.toNat = s.nextCode.toNat then some (q ++ [b]) else s.dict.phrase? c) ∧
      s' = { s with rc := .inserted, resCode := s'.resCode, nextCode := s'.nextCode, dict := s'.dict }

/-- 41_prefix_trie R122, 60_exceptions R238: at a valid handle, a frozen dictionary gives FULL, before any duplicate; otherwise an existing
child gives DUPLICATE with its code; neither mutates anything. -/
def Obligations.TInsertFullBeforeDuplicate : Prop :=
  ∀ (s : State) (r : Bool) (b : Byte) (node : Code) (q : Phrase), Inv s → s.dbk = .trie → s.handlePhrase? r node = some q →
    (s.cfg.cap ≤ s.nextCode.toNat → exec (.tInsert r b node) s = .next { s with rc := .full }) ∧
    (∀ c, s.nextCode.toNat < s.cfg.cap → s.dict.phrase? c = some (q ++ [b]) →
      exec (.tInsert r b node) s = .next { s with rc := .duplicate, resCode := c })

/-! ### P_INSERT, LPM -/

/-- 42_patricia R144, R140: P_INSERT of a phrase in range that is not stored, on a PATRICIA dictionary that is not frozen, reports INSERTED,
assigns NEXT_CODE to it, increments NEXT_CODE, and keeps every other phrase; nothing else changes. -/
def Obligations.PInsertAssignsTheNextCode : Prop :=
  ∀ s : State, Inv s → s.dbk = .patricia → s.inLen.toNat ≤ s.cfg.ibufSize → s.plen.toNat ≠ 0 →
    s.pos.toNat + s.plen.toNat ≤ s.inLen.toNat → s.nextCode.toNat < s.cfg.cap →
    (∀ c, s.dict.phrase? c ≠ some (s.readIbuf s.pos.toNat s.plen.toNat)) →
    ∃ s', exec .pInsert s = .next s' ∧ s'.rc = .inserted ∧ s'.resCode.toNat = s.nextCode.toNat ∧ s'.resLen = s.plen ∧
      s'.nextCode.toNat = s.nextCode.toNat + 1 ∧ s'.dbk = .patricia ∧
      (∀ c : Code, s'.dict.phrase? c =
        if c.toNat = s.nextCode.toNat then some (s.readIbuf s.pos.toNat s.plen.toNat) else s.dict.phrase? c) ∧
      s' = { s with rc := .inserted, resCode := s'.resCode, resLen := s.plen, nextCode := s'.nextCode, dict := s'.dict }

/-- 42_patricia R144, 60_exceptions R238: for operands in range, a frozen dictionary gives FULL, before any duplicate; otherwise a stored
phrase gives DUPLICATE with its code and the phrase's length; neither mutates the dictionary. -/
def Obligations.PInsertFullBeforeDuplicate : Prop :=
  ∀ s : State, Inv s → s.dbk = .patricia → s.inLen.toNat ≤ s.cfg.ibufSize → s.plen.toNat ≠ 0 →
    s.pos.toNat + s.plen.toNat ≤ s.inLen.toNat →
    (s.cfg.cap ≤ s.nextCode.toNat → exec .pInsert s = .next { s with rc := .full }) ∧
    (∀ c, s.nextCode.toNat < s.cfg.cap → s.dict.phrase? c = some (s.readIbuf s.pos.toNat s.plen.toNat) →
      exec .pInsert s = .next { s with rc := .duplicate, resCode := c, resLen := s.plen })

/-- 42_patricia R147, which the spec derives from R140 and R145, and R148: on either backend, LPM of a non-empty buffer reports OK with the
code and the length of the longest stored phrase that is a beginning of IBUF[POS..IN_LEN), at least one byte long; nothing else changes. -/
def Obligations.LpmAnswersTheLongestPrefix : Prop :=
  ∀ s : State, Inv s → s.inLen.toNat ≤ s.cfg.ibufSize → s.pos.toNat < s.inLen.toNat →
    ∃ c p, IsLongestPrefix s.dict (s.readIbuf s.pos.toNat (s.inLen.toNat - s.pos.toNat)) c p ∧ 1 ≤ p.length ∧
      exec .lpm s = .next { s with rc := .ok, resCode := c, resLen := BitVec.ofNat 32 p.length }

/-- 42_patricia R146: LPM of an empty buffer reports NOMATCH with RES_LEN = 0 and leaves RES_CODE and everything else. -/
def Obligations.LpmOfNothingIsNomatch : Prop :=
  ∀ s : State, s.inLen.toNat ≤ s.cfg.ibufSize → s.pos = s.inLen → exec .lpm s = .next { s with rc := .nomatch, resLen := 0 }

/-! ### ENCODE -/

/-- 43_encoder R174, 20_memory R66: ENCODE with IN_LEN in range reports OK on every backend, with at most IN_LEN codes; the dictionary it
leaves is of the backend in CTRL.BACKEND; CBUF from CODE_LEN on and everything else stay. -/
def Obligations.EncodeCompletes : Prop :=
  ∀ s : State, s.cfg.wf = true → s.inLen.toNat ≤ s.cfg.ibufSize →
    ∃ s', exec .encode s = .next s' ∧ s'.rc = .ok ∧ s'.dbk = s.ctrl ∧ s'.codeLen.toNat ≤ s.inLen.toNat ∧
      (∀ i, s'.codeLen.toNat ≤ i → s'.cbufAt i = s.cbufAt i) ∧
      s' = { s with rc := .ok, dict := s'.dict, nextCode := s'.nextCode, cbuf := s'.cbuf, codeLen := s'.codeLen }

/-- 43_encoder R173, which the spec derives from R123, R147 and R170: on either backend, ENCODE writes to CBUF[0..CODE_LEN) the code
sequence of the abstract LZWEncode of IBUF[0..IN_LEN), and leaves the abstract dictionary and NEXT_CODE of that encode. -/
def Obligations.EncodeComputesLzwEncode : Prop :=
  ∀ s s' : State, s.cfg.wf = true → s.inLen.toNat ≤ s.cfg.ibufSize → exec .encode s = .next s' →
    s'.codeLen.toNat = (lzwEncode s.cfg.cap (s.readIbuf 0 s.inLen.toNat)).codes.length ∧
    (∀ i (h : i < (lzwEncode s.cfg.cap (s.readIbuf 0 s.inLen.toNat)).codes.length),
      s'.cbufAt i = (lzwEncode s.cfg.cap (s.readIbuf 0 s.inLen.toNat)).codes[i]) ∧
    (∀ c : Code, s'.dict.phrase? c = (lzwEncode s.cfg.cap (s.readIbuf 0 s.inLen.toNat)).phrases[c.toNat]?) ∧
    s'.nextCode.toNat = (lzwEncode s.cfg.cap (s.readIbuf 0 s.inLen.toNat)).phrases.length

/-- 43_encoder R175, which the spec derives from R170, R172 and R105: for n >= 1 input bytes ENCODE emits k codes, 1 <= k <= n; the i-th
emitted code is below the NEXT_CODE of the time it is emitted, which is min(CAP, 256 + i) after i insertion attempts, so below CAP <= 65536;
and NEXT_CODE ends at min(CAP, 256 + k - 1). -/
def Obligations.EncodeOutputSize : Prop :=
  ∀ s s' : State, s.cfg.wf = true → 1 ≤ s.inLen.toNat → s.inLen.toNat ≤ s.cfg.ibufSize → exec .encode s = .next s' →
    1 ≤ s'.codeLen.toNat ∧ s'.codeLen.toNat ≤ s.inLen.toNat ∧
    (∀ i, i < s'.codeLen.toNat → (s'.cbufAt i).toNat < min s.cfg.cap (256 + i)) ∧ s.cfg.cap ≤ 65536 ∧
    s'.nextCode.toNat = min s.cfg.cap (256 + s'.codeLen.toNat - 1)

/-- 43_encoder R176, which the spec derives from R173 and R174: the code sequence of ENCODE depends only on IBUF[0..IN_LEN) and CAP: two
states that agree on these, whatever their CTRL.BACKEND, dictionaries and other registers, get the same codes. -/
def Obligations.EncodeDependsOnlyOnItsInput : Prop :=
  ∀ s t s' t' : State, s.cfg.wf = true → t.cfg.wf = true → s.cfg.cap = t.cfg.cap → s.inLen = t.inLen →
    s.inLen.toNat ≤ s.cfg.ibufSize → t.inLen.toNat ≤ t.cfg.ibufSize → (∀ i, i < s.inLen.toNat → s.ibufAt i = t.ibufAt i) →
    exec .encode s = .next s' → exec .encode t = .next t' →
    s'.codeLen = t'.codeLen ∧ ∀ i, i < s'.codeLen.toNat → s'.cbufAt i = t'.cbufAt i

/-- 42_patricia R149, which the spec derives from R140, R141 and R172: after ENCODE the PATRICIA structure is the byte trie, node for node:
the tree the TRIE backend builds from the same state, every label one byte and every node coded. That the children of each node also stand
in the same order in both is the model's choice (log 6), not R149's: the spec leaves the child container open (93 I1). -/
def Obligations.EncodeNeverSplitsAnEdge : Prop :=
  ∀ s s' t' : State, s.cfg.wf = true → s.inLen.toNat ≤ s.cfg.ibufSize → exec .encode { s with ctrl := .patricia } = .next s' →
    exec .encode { s with ctrl := .trie } = .next t' →
    ∃ root : Forest, t'.dict = .trie root ∧ s'.dict = .patricia root.toRadix

/-! ### DECODE -/

/-- 44_decoder R195, R197: when every code of CBUF[0..CODE_LEN) is good and the output fits, DECODE reports OK with the output of LZWDecode
in OBUF[0..OUT_LEN), and changes nothing else, OBUF beyond it and ERR_INDEX included. -/
def Obligations.DecodeWritesTheDecoding : Prop :=
  ∀ (s : State) (chunks : List Phrase), s.cfg.wf = true → s.codeLen.toNat ≤ s.cfg.cbufSize →
    lzwDecode s.cfg.cap (s.readCbuf 0 s.codeLen.toNat) = ⟨chunks, none⟩ → chunks.flatten.length ≤ s.cfg.obufSize →
    ∃ s', exec .decode s = .next s' ∧ s'.rc = .ok ∧ s'.outLen.toNat = chunks.flatten.length ∧
      (∀ i (h : i < chunks.flatten.length), s'.obufAt i = chunks.flatten[i]) ∧
      (∀ i, chunks.flatten.length ≤ i → s'.obufAt i = s.obufAt i) ∧
      s' = { s with rc := .ok, outLen := s'.outLen, obuf := s'.obuf }

/-- 44_decoder R195, 60_exceptions R234: at a bad code of index i, with the output of the codes before it fitting, DECODE reports BAD_CODE,
ERR_INDEX = i, and OBUF[0..OUT_LEN) the bytes of the codes before it; nothing else changes. -/
def Obligations.DecodeStopsAtABadCode : Prop :=
  ∀ (s : State) (chunks : List Phrase) (i : Nat), s.cfg.wf = true → s.codeLen.toNat ≤ s.cfg.cbufSize →
    lzwDecode s.cfg.cap (s.readCbuf 0 s.codeLen.toNat) = ⟨chunks, some i⟩ → chunks.flatten.length ≤ s.cfg.obufSize →
    chunks.length = i ∧ i < s.codeLen.toNat ∧
    ∃ s', exec .decode s = .next s' ∧ s'.rc = .badCode ∧ s'.errIndex.toNat = i ∧ s'.outLen.toNat = chunks.flatten.length ∧
      (∀ j (h : j < chunks.flatten.length), s'.obufAt j = chunks.flatten[j]) ∧
      (∀ j, chunks.flatten.length ≤ j → s'.obufAt j = s.obufAt j) ∧
      s' = { s with rc := .badCode, errIndex := s'.errIndex, outLen := s'.outLen, obuf := s'.obuf }

/-- 44_decoder R195, 60_exceptions R235, R238: when the output of the codes before any bad one does not fit, DECODE reports OVERFLOW, fills
OBUF with its first OBUF_SIZE bytes, and ERR_INDEX is the index i of the code whose bytes did not fit; nothing else changes. -/
def Obligations.DecodeOverflowTruncates : Prop :=
  ∀ (s : State) (run : DecodeRun) (i : Nat), s.cfg.wf = true → s.codeLen.toNat ≤ s.cfg.cbufSize →
    lzwDecode s.cfg.cap (s.readCbuf 0 s.codeLen.toNat) = run → i < run.chunks.length →
    (run.chunks.take i).flatten.length ≤ s.cfg.obufSize → s.cfg.obufSize < (run.chunks.take (i + 1)).flatten.length →
    ∃ s', exec .decode s = .next s' ∧ s'.rc = .overflow ∧ s'.errIndex.toNat = i ∧ s'.outLen.toNat = s.cfg.obufSize ∧
      (∀ j, j < s.cfg.obufSize → some (s'.obufAt j) = run.chunks.flatten[j]?) ∧
      (∀ j, s.cfg.obufSize ≤ j → s'.obufAt j = s.obufAt j) ∧
      s' = { s with rc := .overflow, errIndex := s'.errIndex, outLen := s'.outLen, obuf := s'.obuf }

/-- 44_decoder R190 to R193, and R194, which the spec derives from R170 and R191: after `prev`, a code is the table's entry if there is one,
prev ++ prev[0..1) if it is the next unused index of a table that is not frozen, and bad otherwise; the first code is bad exactly when it is
no singleton. The table starts as the 256 singletons and gains prev ++ cur[0..1) after each further code while it is shorter than CAP, and
nothing once it is frozen; so a decoding without a bad code has every code below CAP. -/
def Obligations.CodesResolveOrAreBad : Prop :=
  (∀ (cap : Nat) (table : List Phrase) (prev : Phrase) (c : Code),
    (∀ h : c.toNat < table.length, resolveCode cap table prev c = some table[c.toNat]) ∧
    (c.toNat = table.length → table.length < cap → resolveCode cap table prev c = some (prev ++ prev.take 1)) ∧
    (c.toNat = table.length → cap ≤ table.length → resolveCode cap table prev c = none) ∧
    (table.length < c.toNat → resolveCode cap table prev c = none)) ∧
  (∀ (cap : Nat) (table : List Phrase) (prev cur : Phrase),
    (table.length < cap → growTable cap table prev cur = table ++ [prev ++ cur.take 1]) ∧
    (cap ≤ table.length → growTable cap table prev cur = table)) ∧
  (∀ (cap i : Nat) (table : List Phrase) (prev : Phrase) (c : Code) (codes : List Code),
    lzwDecodeLoop cap [] i table prev = ⟨[], none⟩ ∧
    (resolveCode cap table prev c = none → lzwDecodeLoop cap (c :: codes) i table prev = ⟨[], some i⟩) ∧
    (∀ cur, resolveCode cap table prev c = some cur →
      (lzwDecodeLoop cap (c :: codes) i table prev).chunks =
        cur :: (lzwDecodeLoop cap codes (i + 1) (growTable cap table prev cur) cur).chunks ∧
      (lzwDecodeLoop cap (c :: codes) i table prev).badAt =
        (lzwDecodeLoop cap codes (i + 1) (growTable cap table prev cur) cur).badAt)) ∧
  (singletons.length = 256 ∧ ∀ b : Byte, singletons[b.toNat]? = some [b]) ∧
  (∀ (cap : Nat) (c : Code) (codes : List Code),
    (256 ≤ c.toNat ↔ (lzwDecode cap (c :: codes)).badAt = some 0) ∧
    (256 ≤ c.toNat → (lzwDecode cap (c :: codes)).chunks = []) ∧
    (c.toNat < 256 →
      (lzwDecode cap (c :: codes)).chunks = [c.setWidth 8] :: (lzwDecodeLoop cap codes 1 singletons [c.setWidth 8]).chunks ∧
      (lzwDecode cap (c :: codes)).badAt = (lzwDecodeLoop cap codes 1 singletons [c.setWidth 8]).badAt)) ∧
  ∀ (cap : Nat) (codes : List Code), 256 ≤ cap → (lzwDecode cap codes).badAt = none → ∀ c ∈ codes, c.toNat < cap

/-- 44_decoder R198, which the spec derives from R194 and R173: decoding what ENCODE wrote, on the same block, reports OK and gives exactly
the bytes of the input, on both backends. -/
def Obligations.DecodeOfEncodeIsTheInput : Prop :=
  ∀ s s1 : State, s.cfg.wf = true → s.inLen.toNat ≤ s.cfg.ibufSize → exec .encode s = .next s1 →
    ∃ s2, exec .decode s1 = .next s2 ∧ s2.rc = .ok ∧ s2.outLen = s.inLen ∧ ∀ i, i < s.inLen.toNat → s2.obufAt i = s.ibufAt i

/-! ### PACK, UNPACK -/

/-- 45_stream R210: PACK reports OK with the codes of CBUF[0..CODE_LEN) in OBUF[0..2*CODE_LEN), high byte first, whatever the codes, and
changes nothing else; CODE_LEN > CBUF_SIZE gives BAD_OPERAND and nothing else; its word is 0x80000000, and a word of its opcode with any bit
of [24:0] set is ILLEGAL_CMD. -/
def Obligations.PackWritesBigEndianPairs : Prop :=
  encode .pack = 0x80000000 ∧
  (∀ (s : State) (w : Word), w.extractLsb' 25 7 = 0x40 → w.extractLsb' 0 25 ≠ 0 → s.issue w = .next { s with rc := .illegalCmd }) ∧
  (∀ s : State, s.cfg.cbufSize < s.codeLen.toNat → exec .pack s = .next { s with rc := .badOperand }) ∧
  ∀ s : State, s.cfg.wf = true → s.codeLen.toNat ≤ s.cfg.cbufSize →
    ∃ s', exec .pack s = .next s' ∧ s'.rc = .ok ∧ s'.outLen.toNat = 2 * s.codeLen.toNat ∧
      (∀ i, i < s.codeLen.toNat → s'.obufAt (2 * i) = (s.cbufAt i).extractLsb' 8 8 ∧
        s'.obufAt (2 * i + 1) = (s.cbufAt i).extractLsb' 0 8) ∧
      (∀ j, 2 * s.codeLen.toNat ≤ j → s'.obufAt j = s.obufAt j) ∧
      s' = { s with rc := .ok, outLen := s'.outLen, obuf := s'.obuf }

/-- 45_stream R211: UNPACK reports OK with the value hi*256 + lo of each byte pair of IBUF[0..IN_LEN) in CBUF[0..IN_LEN div 2), an odd
trailing byte dropped, and changes nothing else; IN_LEN > IBUF_SIZE gives BAD_OPERAND and nothing else; its word is 0x82000000, and a word
of its opcode with any bit of [24:0] set is ILLEGAL_CMD. -/
def Obligations.UnpackReadsBigEndianPairs : Prop :=
  encode .unpack = 0x82000000 ∧
  (∀ (s : State) (w : Word), w.extractLsb' 25 7 = 0x41 → w.extractLsb' 0 25 ≠ 0 → s.issue w = .next { s with rc := .illegalCmd }) ∧
  (∀ s : State, s.cfg.ibufSize < s.inLen.toNat → exec .unpack s = .next { s with rc := .badOperand }) ∧
  ∀ s : State, s.cfg.wf = true → s.inLen.toNat ≤ s.cfg.ibufSize →
    ∃ s', exec .unpack s = .next s' ∧ s'.rc = .ok ∧ s'.codeLen.toNat = s.inLen.toNat / 2 ∧
      (∀ i, i < s.inLen.toNat / 2 → (s'.cbufAt i).toNat = (s.ibufAt (2 * i)).toNat * 256 + (s.ibufAt (2 * i + 1)).toNat) ∧
      (∀ j, s.inLen.toNat / 2 ≤ j → s'.cbufAt j = s.cbufAt j) ∧
      s' = { s with rc := .ok, codeLen := s'.codeLen, cbuf := s'.cbuf }

/-- 45_stream R214, which the spec derives from R210 and R211: a PACK of k codes, a copy of OBUF[0..2k) to IBUF[0..2k) with IN_LEN = 2k, and
an UNPACK give back the same k codes. -/
def Obligations.UnpackOfPackIsTheCodes : Prop :=
  ∀ s s1 t t1 : State, s.cfg.wf = true → t.cfg.wf = true → s.codeLen.toNat ≤ s.cfg.cbufSize → exec .pack s = .next s1 →
    t.inLen.toNat = 2 * s.codeLen.toNat → t.inLen.toNat ≤ t.cfg.ibufSize →
    (∀ j, j < 2 * s.codeLen.toNat → t.ibufAt j = s1.obufAt j) → exec .unpack t = .next t1 →
    t1.codeLen = s.codeLen ∧ ∀ i, i < s.codeLen.toNat → t1.cbufAt i = s.cbufAt i
end

