-- ==== Sys2Proof/Laws/Decode.lean ====
section
/-! SUPPORT. Laws of the command word: the fields of an assembled word (30_encoding R80, R85), and a word is its fields. -/

namespace Sys2Proof

/-- A bit of an assembled word, by the field it lies in (30_encoding R80). -/
theorem getLsbD_assemble (opc : BitVec 7) (r : Bool) (byte : Byte) (node : Code) (i : Nat) :
    (assemble opc r byte node).getLsbD i =
      if i < 16 then node.getLsbD i else if i < 24 then byte.getLsbD (i - 16) else if i = 24 then r else opc.getLsbD (i - 25) := by
  simp only [assemble, BitVec.getLsbD_append, BitVec.getLsbD_ofBool]
  by_cases h1 : i < 16
  · simp [h1]
  · by_cases h2 : i < 24
    · simp [h1, h2, show i - 16 < 8 by omega]
    · by_cases h3 : i = 24
      · subst h3; simp
      · simp [h1, h2, h3, show ¬ i - 16 < 8 by omega, show ¬ i - 16 - 8 < 1 by omega, show i - 16 - 8 - 1 = i - 25 by omega]

theorem opcField_assemble (opc : BitVec 7) (r : Bool) (byte : Byte) (node : Code) : opcField (assemble opc r byte node) = opc := by
  apply BitVec.eq_of_getLsbD_eq
  intro i hi
  simp only [opcField, BitVec.getLsbD_extractLsb', getLsbD_assemble]
  simp [hi, show ¬ 25 + i < 16 by omega, show ¬ 25 + i < 24 by omega, show ¬ 25 + i = 24 by omega]

theorem rField_assemble (opc : BitVec 7) (r : Bool) (byte : Byte) (node : Code) : rField (assemble opc r byte node) = r := by
  unfold rField
  rw [getLsbD_assemble]
  rfl

theorem byteField_assemble (opc : BitVec 7) (r : Bool) (byte : Byte) (node : Code) : byteField (assemble opc r byte node) = byte := by
  apply BitVec.eq_of_getLsbD_eq
  intro i hi
  simp only [byteField, BitVec.getLsbD_extractLsb', getLsbD_assemble]
  simp [hi, show 16 + i < 24 by omega]

theorem nodeField_assemble (opc : BitVec 7) (r : Bool) (byte : Byte) (node : Code) : nodeField (assemble opc r byte node) = node := by
  apply BitVec.eq_of_getLsbD_eq
  intro i hi
  simp only [nodeField, BitVec.getLsbD_extractLsb', getLsbD_assemble]
  simp [hi]

theorem mbzFormatC_assemble (opc : BitVec 7) (node : Code) : mbzFormatC (assemble opc false 0#8 node) = 0#9 := by
  apply BitVec.eq_of_getLsbD_eq
  intro i hi
  simp only [mbzFormatC, BitVec.getLsbD_extractLsb', getLsbD_assemble]
  by_cases h : i < 8
  · simp [hi, show 16 + i < 24 by omega]
  · simp [show i = 8 by omega]

theorem mbzFormatN_assemble (opc : BitVec 7) : mbzFormatN (assemble opc false 0#8 0#16) = 0#25 := by
  apply BitVec.eq_of_getLsbD_eq
  intro i hi
  simp only [mbzFormatN, BitVec.getLsbD_extractLsb', getLsbD_assemble]
  by_cases h : i < 16
  · simp [h]
  · by_cases h2 : i < 24
    · simp [h, h2]
    · simp [show i = 24 by omega]

/-- Every word is assembled from its own fields (30_encoding R80). -/
theorem assemble_fields (w : Word) : assemble (opcField w) (rField w) (byteField w) (nodeField w) = w := by
  apply BitVec.eq_of_getLsbD_eq
  intro i hi
  simp only [getLsbD_assemble, opcField, rField, byteField, nodeField, BitVec.getLsbD_extractLsb']
  split
  · simp_all
  · split
    · simp [show i - 16 < 8 by omega, show 16 + (i - 16) = i by omega]
    · split
      · simp_all
      · simp [show i - 25 < 7 by omega, show 25 + (i - 25) = i by omega]

/-- A format-C word with its must-be-zero bits zero has R = 0 and BYTE = 0. -/
theorem fields_of_mbzFormatC {w : Word} (h : mbzFormatC w = 0) : rField w = false ∧ byteField w = 0 := by
  have key : ∀ i, i < 9 → w.getLsbD (16 + i) = false := by
    intro i hi
    have := congrArg (fun x => BitVec.getLsbD x i) h
    simpa [mbzFormatC, hi] using this
  refine ⟨key 8 (by omega), ?_⟩
  apply BitVec.eq_of_getLsbD_eq
  intro i hi
  simp [byteField, hi, key i (by omega)]

/-- A format-N word with its must-be-zero bits zero has R, BYTE and NODE zero. -/
theorem fields_of_mbzFormatN {w : Word} (h : mbzFormatN w = 0) : rField w = false ∧ byteField w = 0 ∧ nodeField w = 0 := by
  have key : ∀ i, i < 25 → w.getLsbD i = false := by
    intro i hi
    have := congrArg (fun x => BitVec.getLsbD x i) h
    simpa [mbzFormatN, hi] using this
  refine ⟨key 24 (by omega), ?_, ?_⟩
  · apply BitVec.eq_of_getLsbD_eq
    intro i hi
    simp [byteField, hi, key (16 + i) (by omega)]
  · apply BitVec.eq_of_getLsbD_eq
    intro i hi
    simp [nodeField, hi, key i (by omega)]

end Sys2Proof
end

