-- ==== Sys2Proof/Laws/Trie.lean ====
section
/-! SUPPORT. Laws of the byte trie: the phrase of a code is the path to its node, what attaching a node changes, and the
longest-prefix walk. -/

namespace Sys2Proof.Machine

/-! ### Lookup by path -/

/-- The node reached by consuming the bytes of `p` from siblings `f`: its code and its children. -/
def Forest.find? : Forest → Phrase → Option (Code × Forest)
  | _, [] => none
  | f, [b] => f.child? b
  | f, b :: p => (f.child? b).bind fun n => n.2.find? p

theorem Forest.find?_cons_cons (f : Forest) (b b' : Byte) (p : Phrase) :
    f.find? (b :: b' :: p) = (f.child? b).bind fun n => n.2.find? (b' :: p) := rfl

@[simp] theorem Forest.find?_nil (f : Forest) : f.find? [] = none := by cases f <;> rfl

theorem Forest.child?_eq_none_iff (f : Forest) (b : Byte) : f.child? b = none ↔ b ∉ f.bytes := by
  induction f with
  | nil => simp [Forest.child?, Forest.bytes]
  | node k c kids sibs _ ih =>
    simp only [Forest.child?, Forest.bytes, List.mem_cons, not_or]
    split
    · simp_all
    · simp_all [eq_comm]

theorem Forest.mem_codes_of_child? {f : Forest} {b : Byte} {c : Code} {kids : Forest} (h : f.child? b = some (c, kids)) :
    c ∈ f.codes ∧ ∀ c' ∈ kids.codes, c' ∈ f.codes := by
  induction f with
  | nil => simp [Forest.child?] at h
  | node k c' kids' sibs _ ih =>
    simp only [Forest.child?] at h
    simp only [Forest.codes, List.mem_cons, List.mem_append]
    split at h
    · simp only [Option.some.injEq, Prod.mk.injEq] at h
      obtain ⟨rfl, rfl⟩ := h
      exact ⟨.inl rfl, fun _ hc => .inr (.inl hc)⟩
    · have := ih h
      exact ⟨.inr (.inr this.1), fun c hc => .inr (.inr (this.2 c hc))⟩

/-- The parts of the well-formedness of a node and its siblings. -/
structure Forest.Wf (f : Forest) : Prop where
  maps : f.mapLike = true
  nodup : f.codes.Nodup

theorem Forest.wf_node {k : Byte} {c : Code} {kids sibs : Forest} (h : (Forest.node k c kids sibs).Wf) :
    k ∉ sibs.bytes ∧ kids.Wf ∧ sibs.Wf ∧ c ∉ kids.codes ∧ c ∉ sibs.codes ∧ (∀ x ∈ kids.codes, x ∉ sibs.codes) := by
  obtain ⟨hm, hn⟩ := h
  simp only [Forest.mapLike, Bool.and_eq_true, decide_eq_true_eq] at hm
  simp only [Forest.codes, List.nodup_cons, List.mem_append, not_or, List.nodup_append] at hn
  obtain ⟨⟨hc1, hc2⟩, hk, hs, hd⟩ := hn
  exact ⟨hm.1.1, ⟨hm.1.2, hk⟩, ⟨hm.2, hs⟩, hc1, hc2, fun x hx hx' => hd x hx x hx' rfl⟩

theorem Forest.wf_of_child? {f : Forest} (h : f.Wf) {b : Byte} {c : Code} {kids : Forest} (hc : f.child? b = some (c, kids)) :
    kids.Wf ∧ c ∉ kids.codes := by
  induction f with
  | nil => simp [Forest.child?] at hc
  | node k c' kids' sibs _ ih =>
    obtain ⟨_, hk, hs, hck, _, _⟩ := Forest.wf_node h
    simp only [Forest.child?] at hc
    split at hc
    · simp only [Option.some.injEq, Prod.mk.injEq] at hc
      obtain ⟨rfl, rfl⟩ := hc
      exact ⟨hk, hck⟩
    · exact ih hs hc

theorem Forest.phrase?_isSome_iff (f : Forest) (c : Code) : (f.phrase? c).isSome ↔ c ∈ f.codes := by
  induction f with
  | nil => simp [Forest.phrase?, Forest.codes]
  | node k c' kids sibs ihk ihs =>
    simp only [Forest.phrase?, Forest.codes, List.mem_cons, List.mem_append, ← ihk, ← ihs]
    split
    · simp_all
    · rename_i h
      have h' : c ≠ c' := fun e => h e.symm
      cases hk : kids.phrase? c <;> simp [h']

theorem Forest.phrase?_ne_nil {f : Forest} {c : Code} {p : Phrase} (h : f.phrase? c = some p) : p ≠ [] := by
  induction f with
  | nil => simp [Forest.phrase?] at h
  | node k c' kids sibs _ ihs =>
    simp only [Forest.phrase?] at h
    split at h
    · simp_all; grind
    · split at h
      · simp only [Option.some.injEq] at h; subst h; simp
      · exact ihs h

theorem Forest.mem_codes_of_find? {f : Forest} {p : Phrase} {c : Code} {kids : Forest} (h : f.find? p = some (c, kids)) :
    c ∈ f.codes := by
  induction p generalizing f with
  | nil => simp at h
  | cons b p ih =>
    cases p with
    | nil => exact (Forest.mem_codes_of_child? h).1
    | cons b' p =>
      rw [Forest.find?_cons_cons] at h
      cases hc : f.child? b with
      | none => simp [hc] at h
      | some n =>
        simp only [hc, Option.bind_some] at h
        exact (Forest.mem_codes_of_child? (kids := n.2) (c := n.1) (by simpa using hc)).2 _ (ih h)

theorem Forest.find?_node (k : Byte) (c : Code) (kids sibs : Forest) (b : Byte) (p : Phrase) :
    (Forest.node k c kids sibs).find? (b :: p) =
      if k = b then (if p = [] then some (c, kids) else kids.find? p) else sibs.find? (b :: p) := by
  cases p with
  | nil => simp only [Forest.find?, Forest.child?]; split <;> simp
  | cons b' p =>
    simp only [Forest.find?_cons_cons, Forest.child?]
    split <;> simp

/-- The phrase of a code and the path to its node are the same thing, in a tree whose children are maps and whose codes are distinct
(10_state R44). -/
theorem Forest.phrase?_eq_some_iff {f : Forest} (h : f.Wf) (c : Code) (p : Phrase) :
    f.phrase? c = some p ↔ ∃ kids, f.find? p = some (c, kids) := by
  induction f generalizing p with
  | nil =>
    cases p with
    | nil => simp [Forest.phrase?]
    | cons b p => cases p <;> simp [Forest.phrase?, Forest.find?, Forest.child?]
  | node k c' kids sibs ihk ihs =>
    obtain ⟨hk, hwk, hws, hck, hcs, hks⟩ := Forest.wf_node h
    cases p with
    | nil =>
      simp only [Forest.find?_nil, reduceCtorEq, exists_false, iff_false]
      exact fun hp => Forest.phrase?_ne_nil hp rfl
    | cons b p =>
      rw [Forest.find?_node]
      simp only [Forest.phrase?]
      by_cases hcc : c' = c
      · subst hcc
        simp only [if_true]
        constructor
        · intro hp
          simp only [Option.some.injEq, List.cons.injEq] at hp
          obtain ⟨rfl, hp⟩ := hp
          simp [← hp]
        · rintro ⟨kids', hf⟩
          split at hf
          · split at hf
            · simp_all
            · exact absurd (Forest.mem_codes_of_find? hf) hck
          · exact absurd (Forest.mem_codes_of_find? hf) hcs
      · simp only [hcc, if_false]
        by_cases hb : k = b
        · subst hb
          simp only [if_true]
          cases hkp : kids.phrase? c with
          | none =>
            simp only
            have h1 : ∀ p kids', kids.find? p ≠ some (c, kids') := fun p kids' hf => by
              have := (ihk hwk p).2 ⟨_, hf⟩
              simp [hkp] at this
            constructor
            · intro hs
              obtain ⟨kids', hf⟩ := (ihs hws (k :: p)).1 hs
              have : sibs.child? k = none := (Forest.child?_eq_none_iff _ _).2 hk
              cases p <;> simp [Forest.find?, this] at hf
            · rintro ⟨kids', hf⟩
              split at hf
              · simp_all
              · exact absurd hf (h1 _ _)
          | some q =>
            simp only [Option.some.injEq, List.cons.injEq, true_and]
            obtain ⟨kq, hq⟩ := (ihk hwk q).1 hkp
            constructor
            · rintro rfl
              have : q ≠ [] := Forest.phrase?_ne_nil hkp
              exact ⟨kq, by simp [this, hq]⟩
            · rintro ⟨kids', hf⟩
              split at hf
              · simp_all
              · have := (ihk hwk p).2 ⟨_, hf⟩
                simp_all
        · simp only [hb, if_false]
          cases hkp : kids.phrase? c with
          | none => simpa using ihs hws (b :: p)
          | some q =>
            simp only [Option.some.injEq, List.cons.injEq, hb, false_and, false_iff, not_exists]
            intro kids' hf
            have h1 : c ∈ kids.codes := (Forest.phrase?_isSome_iff _ _).1 (by simp [hkp])
            exact hks c h1 (Forest.mem_codes_of_find? hf)

/-- No two codes have the same phrase (10_state R41). -/
theorem Forest.phrase?_injective {f : Forest} (h : f.Wf) {c c' : Code} {p : Phrase} (hc : f.phrase? c = some p)
    (hc' : f.phrase? c' = some p) : c = c' := by
  obtain ⟨k, hk⟩ := (Forest.phrase?_eq_some_iff h c p).1 hc
  obtain ⟨k', hk'⟩ := (Forest.phrase?_eq_some_iff h c' p).1 hc'
  simp_all

/-! ### Attaching a node -/

@[simp] theorem Forest.bytes_snoc (f : Forest) (b : Byte) (c : Code) : (f.snoc b c).bytes = f.bytes ++ [b] := by
  induction f with
  | nil => rfl
  | node k c' kids sibs _ ih => simp [Forest.snoc, Forest.bytes, ih]

@[simp] theorem Forest.codes_snoc (f : Forest) (b : Byte) (c : Code) : (f.snoc b c).codes = f.codes ++ [c] := by
  induction f with
  | nil => rfl
  | node k c' kids sibs _ ih => simp [Forest.snoc, Forest.codes, ih]

theorem Forest.mapLike_snoc {f : Forest} {b : Byte} (c : Code) (h : f.mapLike = true) (hb : b ∉ f.bytes) :
    (f.snoc b c).mapLike = true := by
  induction f with
  | nil => simp [Forest.snoc, Forest.mapLike, Forest.bytes]
  | node k c' kids sibs _ ih =>
    simp only [Forest.mapLike, Bool.and_eq_true, decide_eq_true_eq, Forest.bytes, List.mem_cons, not_or] at h hb
    simp only [Forest.snoc, Forest.mapLike, Bool.and_eq_true, decide_eq_true_eq, Forest.bytes_snoc, List.mem_append,
      List.mem_singleton, not_or]
    exact ⟨⟨⟨h.1.1, fun e => hb.1 e.symm⟩, h.1.2⟩, ih h.2 hb.2⟩

theorem Forest.child?_snoc (f : Forest) (b : Byte) (c : Code) (x : Byte) :
    (f.snoc b c).child? x = match f.child? x with
      | some n => some n
      | none => if b = x then some (c, .nil) else none := by
  induction f with
  | nil => simp [Forest.snoc, Forest.child?]
  | node k c' kids sibs _ ih =>
    simp only [Forest.snoc, Forest.child?, ih]
    split <;> simp_all

@[simp] theorem Forest.bytes_addUnder (f : Forest) (h : Code) (b : Byte) (c : Code) : (f.addUnder h b c).bytes = f.bytes := by
  induction f with
  | nil => rfl
  | node k c' kids sibs _ ih =>
    simp only [Forest.addUnder]
    split <;> simp [Forest.bytes, ih]

theorem Forest.addUnder_of_not_mem {f : Forest} {h : Code} (hh : h ∉ f.codes) (b : Byte) (c : Code) : f.addUnder h b c = f := by
  induction f with
  | nil => rfl
  | node k c' kids sibs ihk ihs =>
    simp only [Forest.codes, List.mem_cons, List.mem_append, not_or] at hh
    simp only [Forest.addUnder, Ne.symm hh.1, if_false, ihk hh.2.1, ihs hh.2.2]

theorem Forest.childrenOf?_isSome_iff (f : Forest) (h : Code) : (f.childrenOf? h).isSome ↔ h ∈ f.codes := by
  induction f with
  | nil => simp [Forest.childrenOf?, Forest.codes]
  | node k c' kids sibs ihk ihs =>
    simp only [Forest.childrenOf?, Forest.codes, List.mem_cons, List.mem_append, ← ihk, ← ihs]
    split
    · simp_all
    · rename_i hne
      have h' : h ≠ c' := fun e => hne e.symm
      cases hk : kids.childrenOf? h <;> simp [h']

theorem Forest.codes_addUnder_perm {f : Forest} (hf : f.Wf) {h : Code} (hh : h ∈ f.codes) (b : Byte) (c : Code) :
    List.Perm (f.addUnder h b c).codes (c :: f.codes) := by
  induction f with
  | nil => simp [Forest.codes] at hh
  | node k c' kids sibs ihk ihs =>
    obtain ⟨_, hwk, hws, hck, hcs, hks⟩ := Forest.wf_node hf
    simp only [Forest.addUnder]
    split
    · simp only [Forest.codes, Forest.codes_snoc, List.append_assoc, List.cons_append, List.nil_append]
      exact (List.Perm.cons c' List.perm_middle).trans (List.Perm.swap c c' _)
    · rename_i hne
      simp only [Forest.codes, List.mem_cons, List.mem_append] at hh ⊢
      have h1 : List.Perm ((kids.addUnder h b c).codes ++ (sibs.addUnder h b c).codes) (c :: (kids.codes ++ sibs.codes)) := by
        rcases hh with rfl | hk | hs
        · exact absurd rfl hne
        · rw [Forest.addUnder_of_not_mem (hks h hk)]
          exact (ihk hwk hk).append_right _
        · rw [Forest.addUnder_of_not_mem (fun hk => hks h hk hs)]
          exact ((ihs hws hs).append_left _).trans List.perm_middle
      exact (List.Perm.cons c' h1).trans (List.Perm.swap c c' _)

theorem Forest.mapLike_addUnder {f : Forest} (hf : f.Wf) {h : Code} {b : Byte} (c : Code)
    (hb : ∀ kids, f.childrenOf? h = some kids → b ∉ kids.bytes) : (f.addUnder h b c).mapLike = true := by
  induction f with
  | nil => rfl
  | node k c' kids sibs ihk ihs =>
    obtain ⟨hk, hwk, hws, hck, hcs, hks⟩ := Forest.wf_node hf
    simp only [Forest.childrenOf?] at hb
    simp only [Forest.addUnder]
    split
    · rename_i he
      simp only [he, if_true, Option.some.injEq, forall_eq'] at hb
      simp only [Forest.mapLike, Bool.and_eq_true, decide_eq_true_eq]
      exact ⟨⟨hk, Forest.mapLike_snoc c hwk.maps hb⟩, hws.maps⟩
    · rename_i hne
      simp only [hne, if_false] at hb
      simp only [Forest.mapLike, Bool.and_eq_true, decide_eq_true_eq, Forest.bytes_addUnder]
      refine ⟨⟨hk, ?_⟩, ?_⟩
      · by_cases hm : h ∈ kids.codes
        · obtain ⟨n, hn⟩ := Option.isSome_iff_exists.1 ((Forest.childrenOf?_isSome_iff kids h).2 hm)
          exact ihk hwk fun kids' e => hb kids' (by simp [e])
        · rw [Forest.addUnder_of_not_mem hm]; exact hwk.maps
      · by_cases hm : h ∈ sibs.codes
        · have hn : kids.childrenOf? h = none := by
            rw [← Option.not_isSome_iff_eq_none, Forest.childrenOf?_isSome_iff]
            exact fun hk => hks h hk hm
          exact ihs hws fun kids' e => hb kids' (by simp [hn, e])
        · rw [Forest.addUnder_of_not_mem hm]; exact hws.maps

/-- The children of the node of a code are those at the end of its phrase. -/
theorem Forest.childrenOf?_eq_some_iff {f : Forest} (hf : f.Wf) (h : Code) (kids : Forest) :
    f.childrenOf? h = some kids ↔ ∃ p, f.find? p = some (h, kids) := by
  induction f with
  | nil =>
    simp only [Forest.childrenOf?, reduceCtorEq, false_iff, not_exists]
    intro p hp
    exact absurd (Forest.mem_codes_of_find? hp) (by simp [Forest.codes])
  | node k c' kids' sibs ihk ihs =>
    obtain ⟨hk, hwk, hws, hck, hcs, hks⟩ := Forest.wf_node hf
    simp only [Forest.childrenOf?]
    by_cases hc : c' = h
    · subst hc
      simp only [if_true, Option.some.injEq]
      constructor
      · rintro rfl
        exact ⟨[k], by simp [Forest.find?_node]⟩
      · rintro ⟨p, hp⟩
        cases p with
        | nil => simp at hp
        | cons b p =>
          rw [Forest.find?_node] at hp
          split at hp
          · split at hp
            · simp_all
            · exact absurd (Forest.mem_codes_of_find? hp) hck
          · exact absurd (Forest.mem_codes_of_find? hp) hcs
    · simp only [hc, if_false]
      by_cases hm : h ∈ kids'.codes
      · obtain ⟨n, hn⟩ := Option.isSome_iff_exists.1 ((Forest.childrenOf?_isSome_iff kids' h).2 hm)
        simp only [hn]
        rw [← hn, ihk hwk]
        constructor
        · rintro ⟨p, hp⟩
          refine ⟨k :: p, ?_⟩
          have : p ≠ [] := by rintro rfl; simp at hp
          simp [Forest.find?_node, this, hp]
        · rintro ⟨p, hp⟩
          cases p with
          | nil => simp at hp
          | cons b p =>
            rw [Forest.find?_node] at hp
            split at hp
            · split at hp
              · simp_all
              · exact ⟨p, hp⟩
            · exact absurd (Forest.mem_codes_of_find? hp) (hks h hm)
      · have hn : kids'.childrenOf? h = none := by
          rw [← Option.not_isSome_iff_eq_none, Forest.childrenOf?_isSome_iff]; exact hm
        simp only [hn]
        rw [ihs hws]
        constructor
        · rintro ⟨p, hp⟩
          refine ⟨p, ?_⟩
          cases p with
          | nil => simp at hp
          | cons b p =>
            rw [Forest.find?_node]
            have : k ≠ b := by
              rintro rfl
              have : sibs.child? k = none := (Forest.child?_eq_none_iff _ _).2 hk
              cases p <;> simp [Forest.find?, this] at hp
            simp [this, hp]
        · rintro ⟨p, hp⟩
          cases p with
          | nil => simp at hp
          | cons b p =>
            rw [Forest.find?_node] at hp
            split at hp
            · split at hp
              · simp_all
              · exact absurd (Forest.mem_codes_of_find? hp) hm
            · exact ⟨_, hp⟩

theorem Forest.find?_append (f : Forest) (q : Phrase) (hq : q ≠ []) (b : Byte) :
    f.find? (q ++ [b]) = (f.find? q).bind fun n => n.2.child? b := by
  induction q generalizing f with
  | nil => exact absurd rfl hq
  | cons x q ih =>
    cases q with
    | nil => rfl
    | cons y q =>
      simp only [List.cons_append, Forest.find?_cons_cons]
      cases f.child? x with
      | none => rfl
      | some n => simpa using ih n.2 (by simp)

/-- The child of a node by code is the node one byte further on its phrase (41_prefix_trie R121). -/
theorem Forest.childAt_node {f : Forest} (hf : f.Wf) {h : Code} {q : Phrase} (hq : f.phrase? h = some q) (b : Byte) :
    f.childAt (.node h) b = (f.find? (q ++ [b])).map (·.1) := by
  obtain ⟨kids, hk⟩ := (Forest.phrase?_eq_some_iff hf h q).1 hq
  have := (Forest.childrenOf?_eq_some_iff hf h kids).2 ⟨q, hk⟩
  rw [Forest.find?_append f q (Forest.phrase?_ne_nil hq)]
  simp [Forest.childAt, this, hk]


theorem Forest.phrase?_snoc (f : Forest) (b : Byte) (c x : Code) :
    (f.snoc b c).phrase? x = match f.phrase? x with
      | some p => some p
      | none => if c = x then some [b] else none := by
  induction f with
  | nil => simp [Forest.snoc, Forest.phrase?]
  | node k c' kids sibs _ ih =>
    simp only [Forest.snoc, Forest.phrase?, ih]
    split
    · rfl
    · split <;> simp_all

theorem Forest.phrase?_eq_none_of_not_mem {f : Forest} {c : Code} (h : c ∉ f.codes) : f.phrase? c = none := by
  rw [← Option.not_isSome_iff_eq_none, Forest.phrase?_isSome_iff]; exact h

/-- Attaching a new node gives its code the phrase of its parent and the byte, and leaves every other phrase (41_prefix_trie R122). -/
theorem Forest.phrase?_addUnder {f : Forest} (hf : f.Wf) {h : Code} {q : Phrase} (hq : f.phrase? h = some q) (b : Byte) {c : Code}
    (hc : c ∉ f.codes) (x : Code) :
    (f.addUnder h b c).phrase? x = if x = c then some (q ++ [b]) else f.phrase? x := by
  induction f generalizing q with
  | nil => simp [Forest.phrase?] at hq
  | node k c' kids sibs ihk ihs =>
    obtain ⟨_, hwk, hws, hck, hcs, hks⟩ := Forest.wf_node hf
    simp only [Forest.codes, List.mem_cons, List.mem_append, not_or] at hc
    simp only [Forest.phrase?] at hq
    have hkc := Forest.phrase?_eq_none_of_not_mem hc.2.1
    have hsc := Forest.phrase?_eq_none_of_not_mem hc.2.2
    simp only [Forest.addUnder]
    by_cases he : c' = h
    · simp only [he, if_true, Option.some.injEq] at hq
      subst hq
      simp only [he, if_true, Forest.phrase?, Forest.phrase?_snoc]
      have hch : c ≠ h := fun e => hc.1 (e.trans he.symm)
      by_cases hx : x = c
      · subst hx
        simp [hch.symm, hkc]
      · simp only [hx, if_false, Ne.symm hx]
        by_cases hxh : h = x
        · simp [hxh]
        · simp only [hxh, if_false]
          cases kids.phrase? x <;> rfl
    · simp only [he, if_false] at hq
      simp only [he, if_false, Forest.phrase?]
      by_cases hm : h ∈ kids.codes
      · have hsome := (Forest.phrase?_isSome_iff kids h).2 hm
        obtain ⟨qk, hqk⟩ := Option.isSome_iff_exists.1 hsome
        simp only [hqk, Option.some.injEq] at hq
        subst hq
        rw [Forest.addUnder_of_not_mem (hks h hm), ihk hwk hqk hc.2.1]
        by_cases hx : x = c
        · subst hx
          simp [Ne.symm hc.1]
        · simp [hx]
      · have hkn := Forest.phrase?_eq_none_of_not_mem hm
        simp only [hkn] at hq
        rw [Forest.addUnder_of_not_mem hm, ihs hws hq hc.2.2]
        by_cases hx : x = c
        · subst hx
          simp [Ne.symm hc.1, hkc]
        · simp [hx]

theorem Forest.wf_addUnder {f : Forest} (hf : f.Wf) {h : Code} {b : Byte} {c : Code} (hh : h ∈ f.codes) (hc : c ∉ f.codes)
    (hb : f.childAt (.node h) b = none) : (f.addUnder h b c).Wf := by
  refine ⟨Forest.mapLike_addUnder hf c fun kids hk => ?_, ?_⟩
  · rw [← Forest.child?_eq_none_iff]
    simpa [Forest.childAt, hk] using hb
  · rw [(Forest.codes_addUnder_perm hf hh b c).nodup_iff]
    exact List.nodup_cons.2 ⟨hc, hf.nodup⟩

/-- Attaching below the root's children keeps their bytes and codes. -/
theorem Forest.child?_addUnder (f : Forest) (h : Code) (b : Byte) (c : Code) (x : Byte) :
    ((f.addUnder h b c).child? x).map (·.1) = (f.child? x).map (·.1) := by
  induction f with
  | nil => rfl
  | node k c' kids sibs _ ih =>
    simp only [Forest.addUnder]
    split <;> simp only [Forest.child?] <;> split <;> simp_all

/-! ### The longest-prefix walk -/

theorem Forest.find?_cons (f : Forest) (b : Byte) (p : Phrase) :
    f.find? (b :: p) = (f.child? b).bind fun n => if p = [] then some n else n.2.find? p := by
  cases p with
  | nil => simp [Forest.find?]
  | cons b' p => simp [Forest.find?_cons_cons]

/-- The walk from a node ends at the deepest node whose path is a beginning of the buffer (41_prefix_trie R123). -/
theorem Forest.walk_spec (kids : Forest) (best : Code × Nat) (buf : List Byte) :
    (kids.walk best buf = best ∧ ∀ p, p <+: buf → kids.find? p = none) ∨
    (∃ p n, kids.find? p = some n ∧ p <+: buf ∧ kids.walk best buf = (n.1, best.2 + p.length) ∧
      ∀ p', p' <+: buf → (kids.find? p').isSome → p'.length ≤ p.length) := by
  induction buf generalizing kids best with
  | nil =>
    left
    cases kids <;> simp [Forest.walk]
  | cons b buf ih =>
    cases hc : kids.child? b with
    | none =>
      left
      refine ⟨by simp [Forest.walk, hc], fun p hp => ?_⟩
      cases p with
      | nil => simp
      | cons x p =>
        obtain ⟨rfl, -⟩ := List.cons_prefix_cons.1 hp
        simp [Forest.find?_cons, hc]
    | some n =>
      right
      have hw : kids.walk best (b :: buf) = n.2.walk (n.1, best.2 + 1) buf := by simp [Forest.walk, hc]
      rcases ih n.2 (n.1, best.2 + 1) with ⟨h1, h2⟩ | ⟨p, n', h1, h2, h3, h4⟩
      · refine ⟨[b], n, by simp [Forest.find?_cons, hc], by simp, by simp [hw, h1], fun p' hp' hs => ?_⟩
        cases p' with
        | nil => simp
        | cons x p' =>
          obtain ⟨rfl, hp''⟩ := List.cons_prefix_cons.1 hp'
          by_cases he : p' = []
          · simp [he]
          · simp [Forest.find?_cons, hc, he, h2 p' hp''] at hs
      · have hpn : p ≠ [] := by rintro rfl; simp at h1
        refine ⟨b :: p, n', by simp [Forest.find?_cons, hc, hpn, h1], by simpa using h2, ?_, fun p' hp' hs => ?_⟩
        · simp [hw, h3]; omega
        · cases p' with
          | nil => simp
          | cons x p' =>
            obtain ⟨rfl, hp''⟩ := List.cons_prefix_cons.1 hp'
            by_cases he : p' = []
            · simp [he]
            · have := h4 p' hp'' (by simpa [Forest.find?_cons, hc, he] using hs)
              simpa using this

/-- TrieLPM answers the longest stored phrase that is a beginning of the buffer (42_patricia R147). -/
theorem Forest.lpm_spec (f : Forest) (buf : List Byte) :
    (f.lpm buf = none ∧ ∀ p, p <+: buf → f.find? p = none) ∨
    (∃ p n, f.find? p = some n ∧ p <+: buf ∧ f.lpm buf = some (n.1, p.length) ∧
      ∀ p', p' <+: buf → (f.find? p').isSome → p'.length ≤ p.length) := by
  cases buf with
  | nil => left; simp [Forest.lpm]
  | cons b buf =>
    cases hc : f.child? b with
    | none =>
      left
      refine ⟨by simp [Forest.lpm, hc], fun p hp => ?_⟩
      cases p with
      | nil => simp
      | cons x p =>
        obtain ⟨rfl, -⟩ := List.cons_prefix_cons.1 hp
        simp [Forest.find?_cons, hc]
    | some n =>
      right
      have hl : f.lpm (b :: buf) = some (f.walk (n.1, 0) (b :: buf)) := by simp [Forest.lpm, Forest.walk, hc]
      rcases Forest.walk_spec f (n.1, 0) (b :: buf) with ⟨_, h2⟩ | ⟨p, n', h1, h2, h3, h4⟩
      · have := h2 [b] (by simp)
        simp [Forest.find?_cons, hc] at this
      · exact ⟨p, n', h1, h2, by simp [hl, h3], h4⟩

/-! ### Seeding -/

theorem Forest.bytes_seedFrom (k b : Nat) : (Forest.seedFrom k b).bytes = (List.range' b k).map (BitVec.ofNat 8) := by
  induction k generalizing b with
  | zero => rfl
  | succ k ih => simp [Forest.seedFrom, Forest.bytes, List.range'_succ, ih]

theorem Forest.codes_seedFrom (k b : Nat) : (Forest.seedFrom k b).codes = (List.range' b k).map (BitVec.ofNat 16) := by
  induction k generalizing b with
  | zero => rfl
  | succ k ih => simp [Forest.seedFrom, Forest.codes, List.range'_succ, ih]

theorem Forest.mapLike_seedFrom (k b : Nat) (h : b + k ≤ 256) : (Forest.seedFrom k b).mapLike = true := by
  induction k generalizing b with
  | zero => rfl
  | succ k ih =>
    simp only [Forest.seedFrom, Forest.mapLike, Bool.and_eq_true, decide_eq_true_eq, and_true, Forest.bytes_seedFrom, List.mem_map,
      List.mem_range'_1, not_exists, not_and]
    refine ⟨fun x hx e => ?_, ih (b + 1) (by omega)⟩
    have := congrArg BitVec.toNat e
    simp only [BitVec.toNat_ofNat] at this
    omega

theorem Forest.child?_seedFrom (k b : Nat) (h : b + k ≤ 256) (x : Byte) :
    (Forest.seedFrom k b).child? x = if b ≤ x.toNat ∧ x.toNat < b + k then some (x.code, .nil) else none := by
  induction k generalizing b with
  | zero => simp [Forest.seedFrom, Forest.child?]
  | succ k ih =>
    simp only [Forest.seedFrom, Forest.child?, ih (b + 1) (by omega)]
    by_cases hx : x.toNat = b
    · have hxb : BitVec.ofNat 8 b = x := by apply BitVec.eq_of_toNat_eq; simp [hx]; omega
      have hcode : (BitVec.ofNat 16 b : Code) = x.code := by
        apply BitVec.eq_of_toNat_eq; simp [Byte.code, hx]
      rw [if_pos hxb, if_pos (by omega), hcode]
    · have hxb : BitVec.ofNat 8 b ≠ x := by
        rintro rfl
        simp at hx
        omega
      rw [if_neg hxb]
      split <;> split <;> first | rfl | omega

theorem Forest.child?_seed (x : Byte) : Forest.seed.child? x = some (x.code, .nil) := by
  rw [Forest.seed, Forest.child?_seedFrom 256 0 (by omega)]
  rw [if_pos (by have := x.isLt; omega)]

theorem Forest.mem_codes_seed (c : Code) : c ∈ Forest.seed.codes ↔ c.toNat < 256 := by
  simp only [Forest.seed, Forest.codes_seedFrom, List.mem_map, List.mem_range'_1]
  constructor
  · rintro ⟨n, hn, rfl⟩
    simp only [BitVec.toNat_ofNat]
    omega
  · intro h
    exact ⟨c.toNat, by omega, by simp⟩

theorem Forest.wf_seed : Forest.seed.Wf := by
  refine ⟨Forest.mapLike_seedFrom 256 0 (by omega), ?_⟩
  rw [Forest.seed, Forest.codes_seedFrom]
  refine List.Nodup.map_on (fun x hx y hy e => ?_) List.nodup_range'
  have := congrArg BitVec.toNat e
  simp only [List.mem_range'_1] at hx hy
  simp only [BitVec.toNat_ofNat] at this
  omega

theorem Forest.phrase?_seedFrom (k b : Nat) (h : b + k ≤ 256) (c : Code) :
    (Forest.seedFrom k b).phrase? c = if b ≤ c.toNat ∧ c.toNat < b + k then some [c.setWidth 8] else none := by
  induction k generalizing b with
  | zero => simp [Forest.seedFrom, Forest.phrase?]
  | succ k ih =>
    simp only [Forest.seedFrom, Forest.phrase?, ih (b + 1) (by omega)]
    by_cases hx : c.toNat = b
    · have hxb : BitVec.ofNat 16 b = c := by apply BitVec.eq_of_toNat_eq; simp [hx]; omega
      have hcode : (BitVec.ofNat 8 b : Byte) = c.setWidth 8 := by
        apply BitVec.eq_of_toNat_eq; simp [hx]
      rw [if_pos hxb, if_pos (by omega), hcode]
    · have hxb : BitVec.ofNat 16 b ≠ c := by
        rintro rfl
        simp at hx
        omega
      rw [if_neg hxb]
      split <;> split <;> first | rfl | omega

/-- The phrases of the seeded trie are the 256 singletons (40_dictionary_control R100). -/
theorem Forest.phrase?_seed (c : Code) : Forest.seed.phrase? c = if c.toNat < 256 then some [c.setWidth 8] else none := by
  rw [Forest.seed, Forest.phrase?_seedFrom 256 0 (by omega)]
  simp

end Sys2Proof.Machine
end

