-- ==== Sys2Proof/Laws/Patricia.lean ====
section
/-! SUPPORT. Laws of the Patricia trie: what an insertion does to every path, the phrase of a code is the path to its node, the
longest-prefix walk, and the byte trie as a Patricia trie. -/

namespace Sys2Proof.Machine

/-! ### Where two sequences part -/

theorem part_spec (xs ys : List Byte) :
    xs = (part xs ys).common ++ (part xs ys).left ∧ ys = (part xs ys).common ++ (part xs ys).right := by
  induction xs generalizing ys with
  | nil => simp [part]
  | cons x xs ih =>
    cases ys with
    | nil => simp [part]
    | cons y ys =>
      simp only [part]
      split
      · rename_i h
        subst h
        have := ih ys
        simp only [List.cons_append, List.cons.injEq, true_and]
        exact this
      · simp

theorem part_differ (xs ys : List Byte) :
    ∀ (x y : Byte) (l r : List Byte), (part xs ys).left = x :: l → (part xs ys).right = y :: r → x ≠ y := by
  intro x y l r hl hr
  induction xs generalizing ys with
  | nil => simp [part] at hl
  | cons a xs ih =>
    cases ys with
    | nil => simp [part] at hr
    | cons b ys =>
      simp only [part] at hl hr
      split at hl
      · rename_i h
        rw [if_pos h] at hr
        exact ih ys hl hr
      · rename_i h
        rw [if_neg h] at hr
        simp only [List.cons.injEq] at hl hr
        rw [← hl.1, ← hr.1]
        exact h

/-! ### Lookup by path -/

/-- What is left of `p` after the beginning `t`, if it begins so. -/
def strip (t p : List Byte) : Option (List Byte) :=
  if t.isPrefixOf p then some (p.drop t.length) else none

theorem strip_eq_some_iff (t p r : List Byte) : strip t p = some r ↔ p = t ++ r := by
  simp only [strip]
  constructor
  · intro h
    split at h
    · rename_i hp
      obtain ⟨q, rfl⟩ := List.isPrefixOf_iff_prefix.1 hp
      simpa using h
    · cases h
  · rintro rfl
    simp

@[simp] theorem strip_append (t r : List Byte) : strip t (t ++ r) = some r := (strip_eq_some_iff _ _ _).2 rfl

theorem strip_eq_none_iff (t p : List Byte) : strip t p = none ↔ ∀ r, p ≠ t ++ r := by
  rw [← Option.not_isSome_iff_eq_none, Option.isSome_iff_exists]
  simp [strip_eq_some_iff]

/-- The code resident at the end of the path `p` from the edges `f` (10_state R47). -/
def Radix.find? : Radix → Phrase → Option Code
  | .nil, _ => none
  | .edge _ _ _ _ _, [] => none
  | .edge k tail code kids sibs, b :: p =>
    if k = b then
      match strip tail p with
      | none => none
      | some [] => code
      | some (x :: r) => kids.find? (x :: r)
    else sibs.find? (b :: p)

@[simp] theorem Radix.find?_nil (f : Radix) : f.find? [] = none := by cases f <;> rfl

theorem Radix.find?_edge (k : Byte) (tail : List Byte) (code : Option Code) (kids sibs : Radix) (b : Byte) (p : Phrase) :
    (Radix.edge k tail code kids sibs).find? (b :: p) =
      if k = b then
        match strip tail p with
        | none => none
        | some r => if r = [] then code else kids.find? r
      else sibs.find? (b :: p) := by
  simp only [Radix.find?]
  split
  · cases strip tail p with
    | none => rfl
    | some r => cases r <;> simp
  · rfl

theorem Radix.mem_codes_of_find? {f : Radix} {p : Phrase} {c : Code} (h : f.find? p = some c) : c ∈ f.codes := by
  induction f generalizing p with
  | nil => simp [Radix.find?] at h
  | edge k tail code kids sibs ihk ihs =>
    cases p with
    | nil => simp at h
    | cons b p =>
      rw [Radix.find?_edge] at h
      simp only [Radix.codes, List.mem_append, Option.mem_toList]
      split at h
      · split at h
        · cases h
        · split at h
          · exact .inl h
          · exact .inr (.inl (ihk h))
      · exact .inr (.inr (ihs h))

theorem Radix.phrase?_isSome_iff (f : Radix) (c : Code) : (f.phrase? c).isSome ↔ c ∈ f.codes := by
  induction f with
  | nil => simp [Radix.phrase?, Radix.codes]
  | edge k tail code kids sibs ihk ihs =>
    simp only [Radix.phrase?, Radix.codes, List.mem_append, Option.mem_toList, ← ihk, ← ihs]
    split
    · simp_all
    · rename_i h
      cases hk : kids.phrase? c <;> simp [h]

theorem Radix.phrase?_eq_none_of_not_mem {f : Radix} {c : Code} (h : c ∉ f.codes) : f.phrase? c = none := by
  rw [← Option.not_isSome_iff_eq_none, Radix.phrase?_isSome_iff]; exact h

theorem Radix.phrase?_ne_nil {f : Radix} {c : Code} {p : Phrase} (h : f.phrase? c = some p) : p ≠ [] := by
  induction f with
  | nil => simp [Radix.phrase?] at h
  | edge k tail code kids sibs _ ihs =>
    simp only [Radix.phrase?] at h
    split at h
    · simp only [Option.some.injEq] at h; subst h; simp
    · split at h
      · simp only [Option.some.injEq] at h; subst h; simp
      · exact ihs h

/-- The parts of the well-formedness of the edges of a node. -/
structure Radix.Wf (f : Radix) : Prop where
  maps : f.mapLike = true
  nodup : f.codes.Nodup

theorem Radix.wf_edge {k : Byte} {tail : List Byte} {code : Option Code} {kids sibs : Radix}
    (h : (Radix.edge k tail code kids sibs).Wf) :
    k ∉ sibs.keys ∧ kids.Wf ∧ sibs.Wf ∧ (∀ c, code = some c → c ∉ kids.codes ∧ c ∉ sibs.codes) ∧
      (∀ x ∈ kids.codes, x ∉ sibs.codes) := by
  obtain ⟨hm, hn⟩ := h
  simp only [Radix.mapLike, Bool.and_eq_true, decide_eq_true_eq] at hm
  simp only [Radix.codes, List.nodup_append, List.mem_append, Option.mem_toList] at hn
  obtain ⟨-, ⟨hk, hs, hd⟩, hc⟩ := hn
  exact ⟨hm.1.1, ⟨hm.1.2, hk⟩, ⟨hm.2, hs⟩,
    fun c e => ⟨fun h => hc c e c (.inl h) rfl, fun h => hc c e c (.inr h) rfl⟩, fun x hx hx' => hd x hx x hx' rfl⟩

theorem Radix.key_mem_of_find? {f : Radix} {b : Byte} {p : Phrase} {c : Code} (h : f.find? (b :: p) = some c) : b ∈ f.keys := by
  induction f with
  | nil => simp [Radix.find?] at h
  | edge k tail code kids sibs _ ihs =>
    rw [Radix.find?_edge] at h
    simp only [Radix.keys, List.mem_cons]
    split at h
    · exact .inl (by simp_all)
    · exact .inr (ihs h)

/-- The phrase of a code and the path to its node are the same thing, in a tree whose edges are maps and whose codes are distinct
(10_state R47). -/
theorem Radix.phrase?_eq_some_iff {f : Radix} (h : f.Wf) (c : Code) (p : Phrase) :
    f.phrase? c = some p ↔ f.find? p = some c := by
  induction f generalizing p with
  | nil => cases p <;> simp [Radix.phrase?, Radix.find?]
  | edge k tail code kids sibs ihk ihs =>
    obtain ⟨hk, hwk, hws, hcode, hks⟩ := Radix.wf_edge h
    cases p with
    | nil =>
      simp only [Radix.find?_nil, reduceCtorEq, iff_false]
      exact fun hp => Radix.phrase?_ne_nil hp rfl
    | cons b p =>
      rw [Radix.find?_edge]
      simp only [Radix.phrase?]
      by_cases hcc : code = some c
      · subst hcc
        have hck := hcode c rfl
        simp only [if_true, Option.some.injEq, List.cons.injEq]
        constructor
        · rintro ⟨rfl, rfl⟩
          have : strip tail tail = some [] := by simp [strip_eq_some_iff]
          simp [this]
        · intro hf
          split at hf
          · split at hf
            · cases hf
            · rename_i hb _ r hr
              rw [strip_eq_some_iff] at hr
              split at hf
              · simp_all
              · exact absurd (Radix.mem_codes_of_find? hf) hck.1
          · exact absurd (Radix.mem_codes_of_find? hf) hck.2
      · simp only [hcc, if_false]
        by_cases hb : k = b
        · subst hb
          simp only [if_true]
          cases hkp : kids.phrase? c with
          | none =>
            have hkn : ∀ r, kids.find? r ≠ some c := fun r hr => by
              have := (ihk hwk r).2 hr
              simp [hkp] at this
            simp only
            constructor
            · intro hs
              exact absurd (Radix.key_mem_of_find? ((ihs hws _).1 hs)) hk
            · intro hf
              split at hf
              · cases hf
              · split at hf
                · exact absurd hf hcc
                · exact absurd hf (hkn _)
          | some q =>
            have hq := (ihk hwk q).1 hkp
            have hqn : q ≠ [] := Radix.phrase?_ne_nil hkp
            simp only [Option.some.injEq, List.cons_append, List.cons.injEq, true_and]
            constructor
            · rintro rfl
              simp [hqn, hq]
            · intro hf
              split at hf
              · cases hf
              · rename_i r hr
                rw [strip_eq_some_iff] at hr
                split at hf
                · exact absurd hf hcc
                · have := (ihk hwk r).2 hf
                  simp_all
        · simp only [hb, if_false]
          cases hkp : kids.phrase? c with
          | none => simpa using ihs hws (b :: p)
          | some q =>
            simp only [Option.some.injEq, List.cons_append, List.cons.injEq, hb, false_and, false_iff]
            intro hf
            have h1 : c ∈ kids.codes := (Radix.phrase?_isSome_iff _ _).1 (by simp [hkp])
            exact hks c h1 (Radix.mem_codes_of_find? hf)

/-- No two codes have the same phrase (10_state R41). -/
theorem Radix.phrase?_injective {f : Radix} (h : f.Wf) {c c' : Code} {p : Phrase} (hc : f.phrase? c = some p)
    (hc' : f.phrase? c' = some p) : c = c' := by
  have h1 := (Radix.phrase?_eq_some_iff h c p).1 hc
  have h2 := (Radix.phrase?_eq_some_iff h c' p).1 hc'
  simp_all

/-! ### Insertion -/

/-- The node made by a split: its label is the common beginning, its code the new one if the phrase ends there (42_patricia R143). -/
theorem Radix.find?_split (k : Byte) (common : List Byte) (x : Byte) (oldTail : List Byte) (code : Option Code) (kids sibs : Radix)
    (left : List Byte) (c : Code) (hx : ∀ y more, left = y :: more → x ≠ y) (p : Phrase) :
    (Radix.edge k common (if left.isEmpty then some c else none) (splitEdges x oldTail code kids left c) sibs).find? p =
      if p = k :: (common ++ left) then some c else (Radix.edge k (common ++ x :: oldTail) code kids sibs).find? p := by
  cases p with
  | nil => simp
  | cons b p =>
    simp only [Radix.find?_edge, List.cons.injEq]
    by_cases hb : k = b
    · subst hb
      simp only [if_true, true_and]
      cases hs : strip common p with
      | none =>
        rw [strip_eq_none_iff] at hs
        have h2 : strip (common ++ x :: oldTail) p = none := by
          rw [strip_eq_none_iff]
          intro r hr
          exact hs (x :: oldTail ++ r) (by simpa using hr)
        simp [h2, hs left]
      | some p1 =>
        rw [strip_eq_some_iff] at hs
        subst hs
        simp only [List.append_cancel_left_eq]
        cases p1 with
        | nil =>
          have h2 : strip (common ++ x :: oldTail) (common ++ []) = none := by
            rw [strip_eq_none_iff]
            intro r hr
            rw [List.append_assoc, List.append_cancel_left_eq] at hr
            simp at hr
          simp only [h2, if_true]
          cases left <;> simp
        | cons z p2 =>
          simp only [reduceCtorEq, if_false]
          have h2 : strip (common ++ x :: oldTail) (common ++ z :: p2) = if x = z then strip oldTail p2 else none := by
            split
            · rename_i he
              subst he
              cases hs2 : strip oldTail p2 with
              | none =>
                rw [strip_eq_none_iff] at hs2 ⊢
                intro r hr
                exact hs2 r (by simpa using hr)
              | some r =>
                rw [strip_eq_some_iff] at hs2 ⊢
                simp [hs2]
            · rename_i he
              rw [strip_eq_none_iff]
              intro r hr
              rw [List.append_assoc, List.append_cancel_left_eq] at hr
              simp only [List.cons_append, List.cons.injEq] at hr
              exact he hr.1.symm
          rw [h2]
          cases left with
          | nil =>
            simp only [splitEdges, Radix.find?_edge, reduceCtorEq, if_false]
            split
            · rfl
            · simp [Radix.find?]
          | cons y more =>
            have hxy := hx y more rfl
            simp only [splitEdges, Radix.find?_edge, List.cons.injEq]
            by_cases hxz : x = z
            · subst hxz
              simp [hxy]
            · simp only [hxz, if_false]
              by_cases hyz : y = z
              · subst hyz
                simp only [if_true, true_and]
                cases hs2 : strip more p2 with
                | none =>
                  rw [strip_eq_none_iff] at hs2
                  have := hs2 []
                  simp at this
                  simp [this]
                | some r =>
                  rw [strip_eq_some_iff] at hs2
                  subst hs2
                  by_cases hr : r = []
                  · simp [hr]
                  · simp [hr, Radix.find?]
              · simp [hyz, Ne.symm hyz, Radix.find?]
    · have : b ≠ k := fun e => hb e.symm
      simp [hb, this]

/-- What PatInsert does (42_patricia R140): a duplicate changes nothing and names the code already there; otherwise the phrase was not
stored, and afterwards it is, under the new code, with every other path unchanged. -/
theorem Radix.insert_spec (f : Radix) (c : Code) (b : Byte) (rest : List Byte) :
    (∃ c', f.insert c b rest = (f, .duplicate c') ∧ f.find? (b :: rest) = some c') ∨
    ((f.insert c b rest).2 = .inserted ∧ f.find? (b :: rest) = none ∧
      ∀ p, (f.insert c b rest).1.find? p = if p = b :: rest then some c else f.find? p) := by
  induction f generalizing b rest with
  | nil =>
    right
    refine ⟨rfl, rfl, fun p => ?_⟩
    cases p with
    | nil => simp
    | cons x p =>
      simp only [Radix.insert, Radix.find?_edge, List.cons.injEq]
      by_cases hb : b = x
      · subst hb
        simp only [if_true, true_and]
        cases hs : strip rest p with
        | none =>
          rw [strip_eq_none_iff] at hs
          have := hs []
          simp at this
          simp [this, Radix.find?]
        | some r =>
          rw [strip_eq_some_iff] at hs
          subst hs
          by_cases hr : r = [] <;> simp [hr, Radix.find?]
      · simp [hb, Ne.symm hb, Radix.find?]
  | edge k tail code kids sibs ihk ihs =>
    simp only [Radix.insert]
    by_cases hb : k = b
    · subst hb
      simp only [if_true]
      have hp := part_spec tail rest
      have hd := part_differ tail rest
      revert hp hd
      rcases part tail rest with ⟨common, left, right⟩
      rintro ⟨rfl, rfl⟩ hd
      simp only at hd ⊢
      cases left with
      | nil =>
        simp only [List.append_nil]
        cases right with
        | nil =>
          simp only [List.append_nil]
          have hst : strip common common = some [] := by simp [strip_eq_some_iff]
          cases code with
          | some c' =>
            left
            exact ⟨c', rfl, by simp [Radix.find?_edge, hst]⟩
          | none =>
            right
            refine ⟨rfl, by simp [Radix.find?_edge, hst], fun p => ?_⟩
            cases p with
            | nil => simp
            | cons x p =>
              simp only [Radix.find?_edge, List.cons.injEq]
              by_cases hx : k = x
              · subst hx
                simp only [if_true, true_and]
                cases hs : strip common p with
                | none =>
                  rw [strip_eq_none_iff] at hs
                  have := hs []
                  simp at this
                  simp [this]
                | some r =>
                  rw [strip_eq_some_iff] at hs
                  subst hs
                  by_cases hr : r = [] <;> simp [hr]
              · simp [hx, Ne.symm hx]
        | cons y more =>
          simp only
          rcases ihk y more with ⟨c', h1, h2⟩ | ⟨h1, h2, h3⟩
          · left
            refine ⟨c', by rw [h1], by simp [Radix.find?_edge, h2]⟩
          · right
            refine ⟨h1, by simp [Radix.find?_edge, h2], fun p => ?_⟩
            cases p with
            | nil => simp
            | cons x p =>
              simp only [Radix.find?_edge, List.cons.injEq, h3]
              by_cases hx : k = x
              · subst hx
                simp only [if_true, true_and]
                cases hs : strip common p with
                | none =>
                  rw [strip_eq_none_iff] at hs
                  simp [hs (y :: more)]
                | some r =>
                  rw [strip_eq_some_iff] at hs
                  subst hs
                  simp only [List.append_cancel_left_eq]
                  by_cases hr : r = []
                  · simp [hr]
                  · simp [hr]
              · simp [hx, Ne.symm hx]
      | cons x oldTail =>
        right
        have hsplit := Radix.find?_split k common x oldTail code kids sibs right c
          (fun y more e => hd _ _ _ _ rfl e)
        refine ⟨rfl, ?_, hsplit⟩
        have hn : strip (common ++ x :: oldTail) (common ++ right) = none := by
          rw [strip_eq_none_iff]
          intro r hr
          rw [List.append_assoc, List.append_cancel_left_eq] at hr
          exact hd _ _ _ _ rfl hr rfl
        simp [Radix.find?_edge, hn]
    · simp only [hb, if_false]
      rcases ihs b rest with ⟨c', h1, h2⟩ | ⟨h1, h2, h3⟩
      · left
        exact ⟨c', by rw [h1], by simp [Radix.find?_edge, hb, h2]⟩
      · right
        refine ⟨h1, by simp [Radix.find?_edge, hb, h2], fun p => ?_⟩
        cases p with
        | nil => simp
        | cons x p =>
          simp only [Radix.find?_edge, h3]
          by_cases hx : k = x
          · subst hx
            have : ¬(k :: p = b :: rest) := by simp [hb]
            simp [this]
          · simp [hx]

theorem Radix.codes_insert_perm (f : Radix) (c : Code) (b : Byte) (rest : List Byte) (h : (f.insert c b rest).2 = .inserted) :
    List.Perm (f.insert c b rest).1.codes (c :: f.codes) := by
  induction f generalizing b rest with
  | nil => simp [Radix.insert, Radix.codes]
  | edge k tail code kids sibs ihk ihs =>
    revert h
    simp only [Radix.insert]
    by_cases hb : k = b
    · simp only [hb, if_true]
      rcases part tail rest with ⟨common, left, right⟩
      cases left with
      | nil =>
        cases right with
        | nil =>
          cases code with
          | some c' => simp
          | none => simp [Radix.codes]
        | cons y more =>
          simp only
          intro h
          simp only [Radix.codes]
          have := ihk y more h
          refine (List.Perm.append_left _ (this.append_right _)).trans ?_
          simp only [List.cons_append]
          exact List.perm_middle
      | cons x oldTail =>
        intro _
        cases right with
        | nil => simp [Radix.codes, splitEdges]
        | cons y more =>
          simp only [Radix.codes, splitEdges, List.isEmpty_cons, Bool.false_eq_true, if_false, Option.toList_none, Option.toList_some,
            List.nil_append, List.append_nil, List.append_assoc]
          rw [List.perm_iff_count]
          intro a
          simp only [List.count_append, List.count_cons, List.count_nil]
          omega
    · simp only [hb, if_false]
      intro h
      simp only [Radix.codes]
      have := ihs b rest h
      rw [← List.append_assoc, ← List.append_assoc]
      exact (this.append_left _).trans List.perm_middle

theorem Radix.keys_insert (f : Radix) (c : Code) (b : Byte) (rest : List Byte) :
    (f.insert c b rest).1.keys = if b ∈ f.keys then f.keys else f.keys ++ [b] := by
  induction f generalizing b rest with
  | nil => simp [Radix.insert, Radix.keys]
  | edge k tail code kids sibs ihk ihs =>
    simp only [Radix.insert]
    by_cases hb : k = b
    · subst hb
      simp only [if_true, Radix.keys, List.mem_cons, true_or]
      rcases part tail rest with ⟨common, left, right⟩
      cases left with
      | nil =>
        cases right with
        | nil => cases code <;> simp [Radix.keys]
        | cons y more => simp [Radix.keys]
      | cons x oldTail => simp [Radix.keys]
    · simp only [hb, if_false, Radix.keys, ihs, List.mem_cons, Ne.symm hb, false_or]
      split <;> simp

theorem Radix.mapLike_insert (f : Radix) (c : Code) (b : Byte) (rest : List Byte) (h : f.mapLike = true) :
    (f.insert c b rest).1.mapLike = true := by
  induction f generalizing b rest with
  | nil => simp [Radix.insert, Radix.mapLike, Radix.keys]
  | edge k tail code kids sibs ihk ihs =>
    simp only [Radix.mapLike, Bool.and_eq_true, decide_eq_true_eq] at h
    obtain ⟨⟨h1, h2⟩, h3⟩ := h
    simp only [Radix.insert]
    by_cases hb : k = b
    · subst hb
      simp only [if_true]
      have hd := part_differ tail rest
      revert hd
      rcases part tail rest with ⟨common, left, right⟩
      intro hd
      simp only at hd
      cases left with
      | nil =>
        cases right with
        | nil => cases code <;> simp [Radix.mapLike, h1, h2, h3]
        | cons y more => simp [Radix.mapLike, h1, h3, ihk y more h2]
      | cons x oldTail =>
        cases right with
        | nil => simp [Radix.mapLike, splitEdges, h1, h2, h3, Radix.keys]
        | cons y more =>
          have := hd _ _ _ _ rfl rfl
          simp [Radix.mapLike, splitEdges, h1, h2, h3, Radix.keys, this]
    · simp only [hb, if_false, Radix.mapLike, Bool.and_eq_true, decide_eq_true_eq, Radix.keys_insert]
      refine ⟨⟨?_, h2⟩, ihs b rest h3⟩
      split
      · exact h1
      · simp [h1, hb]

/-- A one-byte label is never split: the node it leads to keeps its code (42_patricia R148). -/
theorem Radix.edge?_insert (f : Radix) (c : Code) (b : Byte) (rest : List Byte) (x : Byte) (c' : Code) (kids : Radix)
    (h : f.edge? x = some ([], some c', kids)) : ∃ kids', (f.insert c b rest).1.edge? x = some ([], some c', kids') := by
  induction f generalizing b rest with
  | nil => simp [Radix.edge?] at h
  | edge k tail code kids' sibs ihk ihs =>
    simp only [Radix.edge?] at h
    simp only [Radix.insert]
    by_cases hb : k = b
    · subst hb
      simp only [if_true]
      by_cases hx : k = x
      · simp only [hx, if_true, Option.some.injEq, Prod.mk.injEq] at h
        obtain ⟨rfl, rfl, rfl⟩ := h
        have hp : part [] rest = ⟨[], [], rest⟩ := by cases rest <;> rfl
        simp only [hp]
        cases rest with
        | nil => simp [Radix.edge?, hx]
        | cons y more => simp [Radix.edge?, hx]
      · simp only [hx, if_false] at h
        rcases part tail rest with ⟨common, left, right⟩
        cases left with
        | nil =>
          cases right with
          | nil => cases code <;> simp [Radix.edge?, hx, h]
          | cons y more => simp [Radix.edge?, hx, h]
        | cons z oldTail => simp [Radix.edge?, hx, h]
    · simp only [hb, if_false, Radix.edge?]
      split at h
      · simp_all
      · rename_i hx
        simp only [hx, if_false]
        exact ihs b rest h

theorem Radix.phrase?_insert {f : Radix} (hf : f.Wf) {c : Code} (hc : c ∉ f.codes) {b : Byte} {rest : List Byte}
    (h : (f.insert c b rest).2 = .inserted) (x : Code) :
    (f.insert c b rest).1.phrase? x = if x = c then some (b :: rest) else f.phrase? x := by
  rcases Radix.insert_spec f c b rest with ⟨c', h1, -⟩ | ⟨-, hn, h3⟩
  · rw [h1] at h; cases h
  have hw : (f.insert c b rest).1.Wf :=
    ⟨Radix.mapLike_insert f c b rest hf.maps,
      (Radix.codes_insert_perm f c b rest h).nodup_iff.2 (List.nodup_cons.2 ⟨hc, hf.nodup⟩)⟩
  by_cases hx : x = c
  · subst hx
    rw [if_pos rfl, Radix.phrase?_eq_some_iff hw, h3, if_pos rfl]
  · rw [if_neg hx]
    ext p
    rw [Radix.phrase?_eq_some_iff hw, Radix.phrase?_eq_some_iff hf, h3]
    split
    · rename_i he
      subst he
      simp [hn, Ne.symm hx]
    · rfl

/-! ### The longest-prefix walk -/

/-- The walk from a node ends at the deepest coded node whose path is a beginning of the buffer (42_patricia R145). -/
theorem Radix.walk_spec (f : Radix) (i : Nat) (best : Option (Code × Nat)) (buf : List Byte) :
    (f.walk i best buf = best ∧ ∀ p, p <+: buf → f.find? p = none) ∨
    (∃ p c, f.find? p = some c ∧ p <+: buf ∧ f.walk i best buf = some (c, i + p.length) ∧
      ∀ p', p' <+: buf → (f.find? p').isSome → p'.length ≤ p.length) := by
  induction f generalizing i best buf with
  | nil => left; exact ⟨rfl, fun _ _ => rfl⟩
  | edge k tail code kids sibs ihk ihs =>
    cases buf with
    | nil =>
      left
      refine ⟨rfl, fun p hp => ?_⟩
      simp [List.prefix_nil.1 hp]
    | cons b buf =>
      simp only [Radix.walk]
      by_cases hb : k = b
      · subst hb
        simp only [if_true]
        by_cases ht : tail.isPrefixOf buf
        · simp only [ht, if_true]
          obtain ⟨r, rfl⟩ := List.isPrefixOf_iff_prefix.1 ht
          simp only [List.drop_left]
          have hfind : ∀ p, p <+: k :: (tail ++ r) → (Radix.edge k tail code kids sibs).find? p =
              match strip (k :: tail) p with
              | none => none
              | some q => if q = [] then code else kids.find? q := by
            intro p hp
            cases p with
            | nil => simp [strip]
            | cons x p =>
              obtain ⟨rfl, -⟩ := List.cons_prefix_cons.1 hp
              simp [Radix.find?_edge, strip]
          have hsub : ∀ p q, p <+: k :: (tail ++ r) → strip (k :: tail) p = some q → q <+: r := by
            intro p q hp hq
            rw [strip_eq_some_iff] at hq
            subst hq
            rw [List.cons_append, List.cons_prefix_cons] at hp
            exact (List.prefix_append_right_inj tail).1 hp.2
          have hsome : ∀ p q, strip (k :: tail) p = some q → p.length = 1 + tail.length + q.length := by
            intro p q hq
            rw [strip_eq_some_iff] at hq
            subst hq
            simp; omega
          rcases ihk (i + 1 + tail.length) (recordBest code (i + 1 + tail.length) best) r with
            ⟨h1, h2⟩ | ⟨p, c, h1, h2, h3, h4⟩
          · rw [h1]
            cases code with
            | none =>
              left
              refine ⟨rfl, fun p hp => ?_⟩
              rw [hfind p hp]
              cases hq : strip (k :: tail) p with
              | none => rfl
              | some q =>
                simp only
                split
                · rfl
                · exact h2 q (hsub p q hp hq)
            | some c =>
              right
              have hpre : (k :: tail) <+: k :: (tail ++ r) := ⟨r, rfl⟩
              have hst : strip (k :: tail) (k :: tail) = some [] := by simp [strip_eq_some_iff]
              refine ⟨k :: tail, c, ?_, hpre, ?_, fun p' hp' hs => ?_⟩
              · rw [hfind _ hpre, hst]; simp
              · simp [recordBest]; omega
              · rw [hfind p' hp'] at hs
                cases hq : strip (k :: tail) p' with
                | none => simp [hq] at hs
                | some q =>
                  simp only [hq] at hs
                  have hl := hsome p' q hq
                  by_cases hqe : q = []
                  · simp [hl, hqe]; omega
                  · simp [hqe, h2 q (hsub p' q hp' hq)] at hs
          · right
            have hpn : p ≠ [] := by rintro rfl; simp at h1
            have hpre : (k :: tail ++ p) <+: k :: (tail ++ r) := by
              rw [List.cons_append, List.cons_prefix_cons]
              exact ⟨rfl, (List.prefix_append_right_inj tail).2 h2⟩
            refine ⟨k :: tail ++ p, c, ?_, hpre, ?_, fun p' hp' hs => ?_⟩
            · rw [hfind _ hpre, strip_append]
              simp [hpn, h1]
            · rw [h3]; simp; omega
            · rw [hfind p' hp'] at hs
              cases hq : strip (k :: tail) p' with
              | none => simp [hq] at hs
              | some q =>
                simp only [hq] at hs
                have hl := hsome p' q hq
                by_cases hqe : q = []
                · simp [hl, hqe]; omega
                · have := h4 q (hsub p' q hp' hq) (by simpa [hqe] using hs)
                  simp [hl]; omega
        · left
          simp only [ht]
          refine ⟨rfl, fun p hp => ?_⟩
          cases p with
          | nil => simp
          | cons x p =>
            obtain ⟨rfl, hp'⟩ := List.cons_prefix_cons.1 hp
            rw [Radix.find?_edge, if_pos rfl]
            cases hs : strip tail p with
            | none => rfl
            | some r =>
              rw [strip_eq_some_iff] at hs
              exfalso
              apply ht
              rw [List.isPrefixOf_iff_prefix]
              subst hs
              exact (List.prefix_append tail r).trans hp'
      · simp only [hb, if_false]
        rcases ihs i best (b :: buf) with ⟨h1, h2⟩ | ⟨p, c, h1, h2, h3, h4⟩
        · left
          refine ⟨h1, fun p hp => ?_⟩
          cases p with
          | nil => simp
          | cons x p =>
            obtain ⟨rfl, -⟩ := List.cons_prefix_cons.1 hp
            rw [Radix.find?_edge, if_neg hb]
            exact h2 _ hp
        · right
          have hcons : ∀ p', p' <+: b :: buf → (Radix.edge k tail code kids sibs).find? p' = sibs.find? p' := by
            intro p' hp'
            cases p' with
            | nil => simp
            | cons x p' =>
              obtain ⟨rfl, -⟩ := List.cons_prefix_cons.1 hp'
              rw [Radix.find?_edge, if_neg hb]
          exact ⟨p, c, by rw [hcons p h2]; exact h1, h2, h3, fun p' hp' hs => h4 p' hp' (by rwa [hcons p' hp'] at hs)⟩

/-- PatLPM answers the longest stored phrase that is a beginning of the buffer (42_patricia R147). -/
theorem Radix.lpm_spec (f : Radix) (buf : List Byte) :
    (f.lpm buf = none ∧ ∀ p, p <+: buf → f.find? p = none) ∨
    (∃ p c, f.find? p = some c ∧ p <+: buf ∧ f.lpm buf = some (c, p.length) ∧
      ∀ p', p' <+: buf → (f.find? p').isSome → p'.length ≤ p.length) := by
  simpa [Radix.lpm] using Radix.walk_spec f 0 none buf

/-! ### The byte trie as a Patricia trie, and seeding -/

@[simp] theorem Forest.toRadix_seedFrom (k b : Nat) : (Forest.seedFrom k b).toRadix = Radix.seedFrom k b := by
  induction k generalizing b with
  | zero => rfl
  | succ k ih => simp [Forest.seedFrom, Radix.seedFrom, Forest.toRadix, ih]

@[simp] theorem Forest.toRadix_seed : Forest.seed.toRadix = Radix.seed := Forest.toRadix_seedFrom 256 0

@[simp] theorem Forest.codes_toRadix (f : Forest) : f.toRadix.codes = f.codes := by
  induction f with
  | nil => rfl
  | node k c kids sibs ihk ihs => simp [Forest.toRadix, Radix.codes, Forest.codes, ihk, ihs]

@[simp] theorem Forest.keys_toRadix (f : Forest) : f.toRadix.keys = f.bytes := by
  induction f with
  | nil => rfl
  | node k c kids sibs _ ihs => simp [Forest.toRadix, Radix.keys, Forest.bytes, ihs]

@[simp] theorem Forest.mapLike_toRadix (f : Forest) : f.toRadix.mapLike = f.mapLike := by
  induction f with
  | nil => rfl
  | node k c kids sibs ihk ihs => simp [Forest.toRadix, Radix.mapLike, Forest.mapLike, ihk, ihs]

@[simp] theorem Forest.phrase?_toRadix (f : Forest) (c : Code) : f.toRadix.phrase? c = f.phrase? c := by
  induction f with
  | nil => rfl
  | node k c' kids sibs ihk ihs =>
    cases hk : kids.phrase? c <;> simp [Forest.toRadix, Radix.phrase?, Forest.phrase?, ihk, ihs, hk]

theorem Forest.edge?_toRadix (f : Forest) (b : Byte) :
    f.toRadix.edge? b = (f.child? b).map fun n => ([], some n.1, n.2.toRadix) := by
  induction f with
  | nil => rfl
  | node k c kids sibs _ ihs =>
    simp only [Forest.toRadix, Radix.edge?, Forest.child?, ihs]
    split <;> simp

end Sys2Proof.Machine
end

