-- ==== Sys2Proof/Laws/Invariants.lean ====
section
/-! SUPPORT. Laws of the dictionary invariants: the seeded dictionaries have them, every insertion and every encode loop keeps them, and
what they say of phrases and matches. -/

namespace Sys2Proof.Machine

theorem nextAsCode_toNat {n : BitVec 17} (h : n.toNat < 65536) : (nextAsCode n).toNat = n.toNat := by
  simp [nextAsCode]; omega

theorem next_succ_toNat {n : BitVec 17} (h : n.toNat < 65536) : (n + 1).toNat = n.toNat + 1 := by
  rw [BitVec.toNat_add]
  simp; omega

theorem byteCode_toNat (b : Byte) : b.code.toNat = b.toNat := by
  have := b.isLt
  simp [Byte.code]
  omega

theorem CodesBelow.not_mem_next {cs : List Code} {n : BitVec 17} (h : CodesBelow cs n) (hn : n.toNat < 65536) :
    nextAsCode n ∉ cs := by
  rw [h.2, nextAsCode_toNat hn]; omega

/-- One code more: the next one (40_dictionary_control R105). -/
theorem CodesBelow.cons_next {cs cs' : List Code} {n : BitVec 17} (h : CodesBelow cs n) (hn : n.toNat < 65536)
    (hp : List.Perm cs' (nextAsCode n :: cs)) : CodesBelow cs' (n + 1) := by
  refine ⟨hp.nodup_iff.2 (List.nodup_cons.2 ⟨h.not_mem_next hn, h.1⟩), fun c => ?_⟩
  rw [hp.mem_iff, List.mem_cons, h.2, next_succ_toNat hn]
  constructor
  · rintro (rfl | hc)
    · rw [nextAsCode_toNat hn]; omega
    · omega
  · intro hc
    by_cases hcn : c.toNat < n.toNat
    · exact .inr hcn
    · left
      apply BitVec.eq_of_toNat_eq
      rw [nextAsCode_toNat hn]; omega

/-! ### The byte trie -/

theorem TrieInv.wf {f : Forest} {n : BitVec 17} (h : TrieInv f n) : f.Wf := ⟨h.maps, h.codes.1⟩

theorem TrieInv.phrase_of_lt {f : Forest} {n : BitVec 17} (h : TrieInv f n) {c : Code} (hc : c.toNat < n.toNat) :
    ∃ p, f.phrase? c = some p :=
  Option.isSome_iff_exists.1 ((Forest.phrase?_isSome_iff f c).2 ((h.codes.2 c).2 hc))

theorem TrieInv.rootChild {f : Forest} {n : BitVec 17} (h : TrieInv f n) (b : Byte) : f.rootChild b = b.code := by
  obtain ⟨kids, hk⟩ := h.seeded b
  simp [Forest.rootChild, hk]

theorem TrieInv.phrase_singleton {f : Forest} {n : BitVec 17} (h : TrieInv f n) (b : Byte) : f.phrase? b.code = some [b] := by
  obtain ⟨kids, hk⟩ := h.seeded b
  exact (Forest.phrase?_eq_some_iff h.wf _ _).2 ⟨kids, hk⟩

theorem TrieInv.byteCode_lt {f : Forest} {n : BitVec 17} (h : TrieInv f n) (b : Byte) : b.code.toNat < n.toNat := by
  rw [← h.codes.2, ← Forest.phrase?_isSome_iff, h.phrase_singleton]; rfl

theorem trieInv_seed : TrieInv Forest.seed 256 :=
  ⟨Forest.wf_seed.maps, ⟨Forest.wf_seed.nodup, fun c => by rw [Forest.mem_codes_seed]; rfl⟩, fun b => ⟨_, Forest.child?_seed b⟩⟩

/-- Attaching the next code under an existing node, where there is no child, keeps the invariant (41_prefix_trie R122). -/
theorem TrieInv.addUnder {f : Forest} {n : BitVec 17} (h : TrieInv f n) (hn : n.toNat < 65536) {c : Code} (hc : c.toNat < n.toNat)
    {b : Byte} (hb : f.childAt (.node c) b = none) : TrieInv (f.addUnder c b (nextAsCode n)) (n + 1) := by
  have hm := (h.codes.2 c).2 hc
  have hw := Forest.wf_addUnder h.wf hm (h.codes.not_mem_next hn) hb
  refine ⟨hw.maps, h.codes.cons_next hn (Forest.codes_addUnder_perm h.wf hm b _), fun x => ?_⟩
  obtain ⟨kids, hk⟩ := h.seeded x
  have := Forest.child?_addUnder f c b (nextAsCode n) x
  rw [hk] at this
  obtain ⟨⟨c', kids'⟩, h1, h2⟩ := Option.map_eq_some_iff.1 this
  exact ⟨kids', by rw [h1]; simp_all⟩

theorem TrieInv.childAt_root {f : Forest} {n : BitVec 17} (h : TrieInv f n) (b : Byte) : f.childAt .root b = some b.code := by
  obtain ⟨kids, hk⟩ := h.seeded b
  simp [Forest.childAt, hk]

/-- The phrases after attaching the next code (41_prefix_trie R122). -/
theorem TrieInv.phrase_addUnder {f : Forest} {n : BitVec 17} (h : TrieInv f n) (hn : n.toNat < 65536) {c : Code} {q : Phrase}
    (hq : f.phrase? c = some q) (b : Byte) (x : Code) :
    (f.addUnder c b (nextAsCode n)).phrase? x = if x = nextAsCode n then some (q ++ [b]) else f.phrase? x :=
  Forest.phrase?_addUnder h.wf hq b (h.codes.not_mem_next hn) x

/-! ### The Patricia trie -/

theorem PatriciaInv.wf {f : Radix} {n : BitVec 17} (h : PatriciaInv f n) : f.Wf := ⟨h.maps, h.codes.1⟩

theorem PatriciaInv.phrase_of_lt {f : Radix} {n : BitVec 17} (h : PatriciaInv f n) {c : Code} (hc : c.toNat < n.toNat) :
    ∃ p, f.phrase? c = some p :=
  Option.isSome_iff_exists.1 ((Radix.phrase?_isSome_iff f c).2 ((h.codes.2 c).2 hc))

theorem Radix.find?_of_edge? {f : Radix} {b : Byte} {code : Option Code} {kids : Radix} (h : f.edge? b = some ([], code, kids)) :
    f.find? [b] = code := by
  induction f with
  | nil => simp [Radix.edge?] at h
  | edge k tail code' kids' sibs _ ihs =>
    simp only [Radix.edge?] at h
    rw [Radix.find?_edge]
    split at h
    · simp only [Option.some.injEq, Prod.mk.injEq] at h
      obtain ⟨rfl, rfl, rfl⟩ := h
      simp_all [strip]
    · rename_i hk
      rw [if_neg hk]
      exact ihs h

theorem PatriciaInv.phrase_singleton {f : Radix} {n : BitVec 17} (h : PatriciaInv f n) (b : Byte) :
    f.phrase? b.code = some [b] := by
  obtain ⟨kids, hk⟩ := h.seeded b
  exact (Radix.phrase?_eq_some_iff h.wf _ _).2 (Radix.find?_of_edge? hk)

/-- A byte trie that satisfies its invariant is, node for node, a Patricia trie that satisfies its own (42_patricia R149). -/
theorem TrieInv.toRadix {f : Forest} {n : BitVec 17} (h : TrieInv f n) : PatriciaInv f.toRadix n :=
  ⟨by simpa using h.maps, by simpa using h.codes, fun b => by
    obtain ⟨kids, hk⟩ := h.seeded b
    exact ⟨kids.toRadix, by simp [Forest.edge?_toRadix, hk]⟩⟩

theorem patriciaInv_seed : PatriciaInv Radix.seed 256 := by
  rw [← Forest.toRadix_seed]; exact trieInv_seed.toRadix

/-- Inserting a phrase under the next code keeps the invariant (42_patricia R143, R148). -/
theorem PatriciaInv.insert {f : Radix} {n : BitVec 17} (h : PatriciaInv f n) (hn : n.toNat < 65536) {b : Byte} {rest : List Byte}
    (hi : (f.insert (nextAsCode n) b rest).2 = .inserted) : PatriciaInv (f.insert (nextAsCode n) b rest).1 (n + 1) :=
  ⟨Radix.mapLike_insert f _ b rest h.maps, h.codes.cons_next hn (Radix.codes_insert_perm f _ b rest hi), fun x => by
    obtain ⟨kids, hk⟩ := h.seeded x
    exact Radix.edge?_insert f _ b rest x _ kids hk⟩

/-! ### The current dictionary -/

theorem dictInv_seed (bk : Backend) : DictInv (Dict.seed bk) 256 := by
  cases bk
  · exact trieInv_seed
  · exact patriciaInv_seed

theorem Dict.phrase?_seed (bk : Backend) (c : Code) :
    (Dict.seed bk).phrase? c = if c.toNat < 256 then some [c.setWidth 8] else none := by
  cases bk
  · exact Forest.phrase?_seed c
  · simp only [Dict.seed, Dict.phrase?]
    rw [← Forest.toRadix_seed, Forest.phrase?_toRadix, Forest.phrase?_seed]

theorem DictInv.codesBelow {d : Dict} {n : BitVec 17} (h : DictInv d n) : CodesBelow d.codes n := by
  cases d
  · exact TrieInv.codes h
  · exact PatriciaInv.codes h

theorem DictInv.phrase_isSome_iff {d : Dict} {n : BitVec 17} (h : DictInv d n) (c : Code) :
    (d.phrase? c).isSome ↔ c.toNat < n.toNat := by
  rw [← h.codesBelow.2 c]
  cases d
  · exact Forest.phrase?_isSome_iff _ c
  · exact Radix.phrase?_isSome_iff _ c

theorem DictInv.phrase_injective {d : Dict} {n : BitVec 17} (h : DictInv d n) {c c' : Code} {p : Phrase}
    (hc : d.phrase? c = some p) (hc' : d.phrase? c' = some p) : c = c' := by
  cases d
  · exact Forest.phrase?_injective (TrieInv.wf h) hc hc'
  · exact Radix.phrase?_injective (PatriciaInv.wf h) hc hc'

theorem DictInv.phrase_singleton {d : Dict} {n : BitVec 17} (h : DictInv d n) (b : Byte) : d.phrase? b.code = some [b] := by
  cases d
  · exact TrieInv.phrase_singleton h b
  · exact PatriciaInv.phrase_singleton h b

/-- The match of either backend is the longest stored phrase that is a beginning of the buffer (42_patricia R147). -/
theorem DictInv.lpm_spec {d : Dict} {n : BitVec 17} (h : DictInv d n) (buf : List Byte) :
    (d.lpm buf = none ∧ ∀ c p, d.phrase? c = some p → ¬p <+: buf) ∨
    (∃ c p, d.phrase? c = some p ∧ p <+: buf ∧ d.lpm buf = some (c, p.length) ∧
      ∀ c' p', d.phrase? c' = some p' → p' <+: buf → p'.length ≤ p.length) := by
  cases d with
  | trie f =>
    have hw := TrieInv.wf h
    rcases Forest.lpm_spec f buf with ⟨h1, h2⟩ | ⟨p, x, h1, h2, h3, h4⟩
    · left
      refine ⟨h1, fun c p hp hpre => ?_⟩
      obtain ⟨kids, hk⟩ := (Forest.phrase?_eq_some_iff hw c p).1 hp
      simp [h2 p hpre] at hk
    · right
      refine ⟨x.1, p, (Forest.phrase?_eq_some_iff hw _ _).2 ⟨x.2, h1⟩, h2, h3, fun c' p' hp' hpre => ?_⟩
      obtain ⟨kids, hk⟩ := (Forest.phrase?_eq_some_iff hw c' p').1 hp'
      exact h4 p' hpre (by simp [hk])
  | patricia f =>
    have hw := PatriciaInv.wf h
    rcases Radix.lpm_spec f buf with ⟨h1, h2⟩ | ⟨p, x, h1, h2, h3, h4⟩
    · left
      refine ⟨h1, fun c p hp hpre => ?_⟩
      have hk := (Radix.phrase?_eq_some_iff hw c p).1 hp
      simp [h2 p hpre] at hk
    · right
      refine ⟨x, p, (Radix.phrase?_eq_some_iff hw _ _).2 h1, h2, h3, fun c' p' hp' hpre => ?_⟩
      have hk := (Radix.phrase?_eq_some_iff hw c' p').1 hp'
      exact h4 p' hpre (by simp [hk])

/-- A singleton always matches, so a match of a non-empty buffer is at least one byte long (42_patricia R148). -/
theorem DictInv.lpm_nonempty {d : Dict} {n : BitVec 17} (h : DictInv d n) {buf : List Byte} (hb : buf ≠ []) :
    ∃ c p, d.phrase? c = some p ∧ p <+: buf ∧ d.lpm buf = some (c, p.length) ∧ 1 ≤ p.length ∧
      ∀ c' p', d.phrase? c' = some p' → p' <+: buf → p'.length ≤ p.length := by
  obtain ⟨b, buf, rfl⟩ := List.exists_cons_of_ne_nil hb
  have hpre : [b] <+: b :: buf := by simp
  rcases h.lpm_spec (b :: buf) with ⟨_, h2⟩ | ⟨c, p, h1, h2, h3, h4⟩
  · exact absurd hpre (h2 _ _ (h.phrase_singleton b))
  · exact ⟨c, p, h1, h2, h3, by simpa using h4 _ _ (h.phrase_singleton b) hpre, h4⟩

/-! ### The encode loops keep the invariant -/

theorem encTrieLoop_inv {cap : Nat} (hcap : cap ≤ 65536) (input : List Byte) {cur : Code} {f : Forest} {n : BitVec 17}
    (h : TrieInv f n) (hcur : cur.toNat < n.toNat) :
    TrieInv (encTrieLoop cap input cur f n).dict (encTrieLoop cap input cur f n).next ∧
      n.toNat ≤ (encTrieLoop cap input cur f n).next.toNat ∧
      (n.toNat ≤ cap → (encTrieLoop cap input cur f n).next.toNat ≤ cap) := by
  induction input generalizing cur f n with
  | nil => exact ⟨h, le_refl _, id⟩
  | cons b input ih =>
    simp only [encTrieLoop]
    cases hc : f.childAt (.node cur) b with
    | some c =>
      refine ih h ?_
      obtain ⟨q, hq⟩ := h.phrase_of_lt hcur
      rw [Forest.childAt_node h.wf hq] at hc
      obtain ⟨⟨c', kids⟩, h1, h2⟩ := Option.map_eq_some_iff.1 hc
      rw [← h.codes.2, ← h2]
      exact Forest.mem_codes_of_find? h1
    | none =>
      simp only
      split
      · rename_i hlt
        have hn : n.toNat < 65536 := by omega
        have h' := h.addUnder hn hcur hc
        have hs := next_succ_toNat hn
        obtain ⟨i1, i2, i3⟩ := ih (cur := (f.attach (.node cur) b (nextAsCode n)).rootChild b) h' (by
          show (Forest.rootChild (f.addUnder cur b (nextAsCode n)) b).toNat < _
          rw [h'.rootChild]; exact h'.byteCode_lt b)
        exact ⟨i1, by simp only [EncodeRun.emit, Forest.attach] at *; omega, fun _ => i3 (by omega)⟩
      · exact ih h (by rw [h.rootChild]; exact h.byteCode_lt b)

theorem encPatLoop_inv {cap : Nat} (hcap : cap ≤ 65536) (fuel : Nat) (input : List Byte) {f : Radix} {n : BitVec 17}
    (h : PatriciaInv f n) :
    PatriciaInv (encPatLoop cap fuel input f n).dict (encPatLoop cap fuel input f n).next ∧
      n.toNat ≤ (encPatLoop cap fuel input f n).next.toNat ∧
      (n.toNat ≤ cap → (encPatLoop cap fuel input f n).next.toNat ≤ cap) := by
  induction fuel generalizing input f n with
  | zero => exact ⟨h, le_refl _, id⟩
  | succ fuel ih =>
    cases input with
    | nil => exact ⟨h, le_refl _, id⟩
    | cons b buf =>
      simp only [encPatLoop]
      cases hl : f.lpm (b :: buf) with
      | none => exact ⟨h, le_refl _, id⟩
      | some r =>
        obtain ⟨c, m⟩ := r
        simp only
        split
        · rename_i hlt
          have hn : n.toNat < 65536 := by omega
          have hs := next_succ_toNat hn
          cases hi : f.insert (nextAsCode n) b (buf.take m) with
          | mk f' res =>
            cases res with
            | inserted =>
              have h' := h.insert hn (b := b) (rest := buf.take m) (by rw [hi])
              rw [hi] at h'
              obtain ⟨i1, i2, i3⟩ := ih ((b :: buf).drop m) h'
              exact ⟨i1, by simp only [EncodeRun.emit] at *; omega, fun _ => i3 (by omega)⟩
            | duplicate c' =>
              rcases Radix.insert_spec f (nextAsCode n) b (buf.take m) with ⟨c'', h1, -⟩ | ⟨h1, -⟩
              · rw [hi] at h1
                simp only [Prod.mk.injEq] at h1
                rw [h1.1]
                exact ih _ h
              · rw [hi] at h1; cases h1
        · exact ih _ h

end Sys2Proof.Machine
end

