-- ==== Sys2Proof/Laws/Encoder.lean ====
section
/-! SUPPORT. Laws of the encode loops: the two backends emit the same codes and build the same tree (43_encoder R173, 42_patricia R149), the
abstract loop emits them too (43_encoder R170), and the size laws (43_encoder R175). -/

namespace Sys2Proof.Machine

/-- Every beginning of a path is a path: the byte trie is prefix-closed (10_state R42). -/
theorem Forest.find?_of_prefix {f : Forest} {p p' : Phrase} (h : (f.find? p).isSome) (hp : p' <+: p) (hn : p' ≠ []) :
    (f.find? p').isSome := by
  induction p' generalizing f p with
  | nil => exact absurd rfl hn
  | cons b p' ih =>
    cases p with
    | nil => simp at hp
    | cons x p =>
      obtain ⟨rfl, hp'⟩ := List.cons_prefix_cons.1 hp
      rw [Forest.find?_cons] at h ⊢
      cases hc : f.child? b with
      | none => simp [hc] at h
      | some n =>
        simp only [hc, Option.bind_some] at h ⊢
        by_cases hn' : p' = []
        · simp [hn']
        · rw [if_neg hn']
          have hpn : p ≠ [] := by rintro rfl; exact hn' (List.prefix_nil.1 hp')
          rw [if_neg hpn] at h
          exact ih h hp' hn'

/-- The match of a stored phrase followed by bytes none of which extends it is that phrase. -/
theorem Forest.lpm_of_maximal {f : Forest} {q : Phrase} {c : Code} {kids : Forest} (hq : f.find? q = some (c, kids)) (rest : List Byte)
    (hmax : ∀ b more, rest = b :: more → f.find? (q ++ [b]) = none) : f.lpm (q ++ rest) = some (c, q.length) := by
  have hqn : q ≠ [] := by rintro rfl; simp at hq
  rcases Forest.lpm_spec f (q ++ rest) with ⟨_, h2⟩ | ⟨p, n, h1, h2, h3, h4⟩
  · have := h2 q (List.prefix_append q rest)
    simp [this] at hq
  · have hle := h4 q (List.prefix_append q rest) (by simp [hq])
    have hqp : q <+: p := List.prefix_of_prefix_length_le (List.prefix_append q rest) h2 hle
    obtain ⟨s, rfl⟩ := hqp
    cases s with
    | nil =>
      simp only [List.append_nil] at *
      rw [h1] at hq
      simp only [Option.some.injEq] at hq
      subst hq
      exact h3
    | cons b s =>
      exfalso
      have hs : (b :: s) <+: rest := (List.prefix_append_right_inj q).1 h2
      obtain ⟨more, rfl⟩ := hs
      have h5 := hmax b (s ++ more) (by simp)
      have h6 : (f.find? (q ++ [b])).isSome :=
        Forest.find?_of_prefix (p := q ++ b :: s) (by simp [h1]) ⟨s, by simp⟩ (by simp)
      simp [h5] at h6

theorem Forest.walk_toRadix (f : Forest) (i : Nat) (best : Code × Nat) (hi : best.2 = i) (buf : List Byte) :
    f.toRadix.walk i (some best) buf = some (f.walk best buf) := by
  induction f generalizing i best buf with
  | nil => cases buf <;> simp [Forest.toRadix, Radix.walk, Forest.walk, Forest.child?]
  | node k c kids sibs ihk ihs =>
    cases buf with
    | nil => simp [Forest.toRadix, Radix.walk, Forest.walk]
    | cons b buf =>
      simp only [Forest.toRadix, Radix.walk, Forest.walk, Forest.child?]
      by_cases hb : k = b
      · simp only [hb, if_true, List.isPrefixOf_nil_left, List.length_nil, Nat.add_zero, List.drop_zero, recordBest]
        rw [ihk (i + 1) (c, i + 1) rfl, hi]
      · simp only [hb, if_false]
        have := ihs i best hi (b :: buf)
        simpa [Forest.walk] using this

/-- The two matches agree on a byte trie (42_patricia R147). -/
theorem Forest.lpm_toRadix (f : Forest) (buf : List Byte) : f.toRadix.lpm buf = f.lpm buf := by
  simp only [Radix.lpm]
  cases buf with
  | nil => cases f <;> rfl
  | cons b buf =>
    induction f with
    | nil => rfl
    | node k c kids sibs _ ihs =>
      simp only [Forest.toRadix, Radix.walk, Forest.lpm, Forest.child?]
      by_cases hb : k = b
      · simp only [hb, if_true, List.isPrefixOf_nil_left, List.length_nil, Nat.add_zero, List.drop_zero, recordBest]
        rw [Forest.walk_toRadix kids (0 + 1) (c, 0 + 1) rfl]
      · simp only [hb, if_false]
        simpa [Forest.lpm] using ihs

theorem Radix.insert_snoc (f : Forest) (c : Code) (b : Byte) (hb : b ∉ f.bytes) :
    f.toRadix.insert c b [] = ((f.snoc b c).toRadix, .inserted) := by
  induction f with
  | nil => rfl
  | node k c' kids sibs _ ih =>
    simp only [Forest.bytes, List.mem_cons, not_or] at hb
    simp [Forest.toRadix, Forest.snoc, Radix.insert, Ne.symm hb.1, ih hb.2]

/-- Inserting a stored phrase and one byte more attaches one node, with a one-byte label and no split (42_patricia R149). -/
theorem Radix.insert_toRadix {f : Forest} (hf : f.Wf) {h : Code} {x : Byte} {q : List Byte} {kids : Forest}
    (hq : f.find? (x :: q) = some (h, kids)) {b : Byte} (hb : b ∉ kids.bytes) (c : Code) :
    f.toRadix.insert c x (q ++ [b]) = ((f.addUnder h b c).toRadix, .inserted) := by
  induction f generalizing x q with
  | nil => cases q <;> simp [Forest.find?, Forest.child?] at hq
  | node k c' kids' sibs ihk ihs =>
    obtain ⟨hk, hwk, hws, hck, hcs, hks⟩ := Forest.wf_node hf
    rw [Forest.find?_node] at hq
    simp only [Forest.toRadix, Radix.insert, Forest.addUnder]
    by_cases hx : k = x
    · subst hx
      simp only [if_true] at hq ⊢
      by_cases hqn : q = []
      · subst hqn
        simp only [if_true, Option.some.injEq, Prod.mk.injEq] at hq
        obtain ⟨rfl, rfl⟩ := hq
        simp [part, Radix.insert_snoc _ c b hb, Forest.toRadix]
      · rw [if_neg hqn] at hq
        have hm := Forest.mem_codes_of_find? hq
        have hne : c' ≠ h := by rintro rfl; exact hck hm
        obtain ⟨y, q', rfl⟩ := List.exists_cons_of_ne_nil hqn
        have := ihk hwk hq
        rw [if_neg hne, Forest.addUnder_of_not_mem (hks h hm)]
        simp [part, this, Forest.toRadix]
    · simp only [hx, if_false] at hq ⊢
      have hm := Forest.mem_codes_of_find? hq
      have hne : c' ≠ h := by rintro rfl; exact hcs hm
      have hkm : h ∉ kids'.codes := fun hk' => hks h hk' hm
      rw [if_neg hne, Forest.addUnder_of_not_mem hkm, ihs hws hq]
      simp [Forest.toRadix]

/-- An encode run with its byte trie seen as a Patricia trie. -/
def EncodeRun.toRadix (r : EncodeRun Forest) : EncodeRun Radix := ⟨r.codes, r.dict.toRadix, r.next⟩

/-- From a node whose phrase is `q`, the TRIE loop on the bytes left does what the PATRICIA loop does on `q` and those bytes
(43_encoder R173). -/
theorem encPatLoop_eq_encTrieLoop {cap : Nat} (hcap : cap ≤ 65536) (input : List Byte) {cur : Code} {q : Phrase} {f : Forest}
    {n : BitVec 17} (h : TrieInv f n) (hq : f.phrase? cur = some q) (fuel : Nat) (hfuel : (q ++ input).length ≤ fuel) :
    encPatLoop cap fuel (q ++ input) f.toRadix n = (encTrieLoop cap input cur f n).toRadix := by
  induction input generalizing cur q f n fuel with
  | nil =>
    obtain ⟨kids, hk⟩ := (Forest.phrase?_eq_some_iff h.wf _ _).1 hq
    have hqn := Forest.phrase?_ne_nil hq
    obtain ⟨x, q', rfl⟩ := List.exists_cons_of_ne_nil hqn
    simp only [List.append_nil, List.length_cons] at hfuel ⊢
    obtain ⟨fuel, rfl⟩ : ∃ k, fuel = k + 1 := ⟨fuel - 1, by omega⟩
    have hl := Forest.lpm_of_maximal hk [] (by simp)
    rw [List.append_nil] at hl
    have hdrop : encPatLoop cap fuel ([] : List Byte) f.toRadix n = ⟨[], f.toRadix, n⟩ := by cases fuel <;> rfl
    simp only [encPatLoop, Forest.lpm_toRadix, hl, List.length_cons, lt_irrefl, false_and, if_false]
    rw [show List.drop (q'.length + 1) (x :: q') = [] by simp, hdrop]
    rfl
  | cons b input ih =>
    obtain ⟨kids, hk⟩ := (Forest.phrase?_eq_some_iff h.wf _ _).1 hq
    have hqn := Forest.phrase?_ne_nil hq
    simp only [encTrieLoop]
    rw [Forest.childAt_node h.wf hq]
    cases hc : f.find? (q ++ [b]) with
    | some x =>
      simp only [Option.map_some]
      have := ih h ((Forest.phrase?_eq_some_iff h.wf x.1 (q ++ [b])).2 ⟨x.2, hc⟩) fuel (by simpa using hfuel)
      simpa using this
    | none =>
      simp only [Option.map_none]
      have hl := Forest.lpm_of_maximal hk (b :: input) (by rintro b' more ⟨rfl, rfl⟩; exact hc)
      have hcat : f.childAt (.node cur) b = none := by rw [Forest.childAt_node h.wf hq, hc]; rfl
      have hb : b ∉ kids.bytes := by
        rw [← Forest.child?_eq_none_iff]
        rw [Forest.find?_append f q hqn, hk] at hc
        exact hc
      have hcur : cur.toNat < n.toNat := by
        rw [← h.codes.2, ← Forest.phrase?_isSome_iff, hq]; rfl
      obtain ⟨x, q', rfl⟩ := List.exists_cons_of_ne_nil hqn
      simp only [List.cons_append, List.length_cons, List.length_append] at hfuel hl ⊢
      obtain ⟨fuel, rfl⟩ : ∃ k, fuel = k + 1 := ⟨fuel - 1, by omega⟩
      have htake : List.take (q'.length + 1) (q' ++ b :: input) = q' ++ [b] := by
        rw [List.take_append]; simp
      have hdrop : List.drop (q'.length + 1) (x :: (q' ++ b :: input)) = b :: input := by simp
      simp only [encPatLoop, Forest.lpm_toRadix, hl, List.length_cons, List.length_append, htake, hdrop]
      have hlen : q'.length + 1 < q'.length + (input.length + 1) + 1 := by omega
      simp only [hlen, true_and]
      by_cases hlt : n.toNat < cap
      · have hn : n.toNat < 65536 := by omega
        have h' := h.addUnder hn hcur hcat
        simp only [hlt, if_true, Radix.insert_toRadix h.wf hk hb, Forest.attach, h'.rootChild]
        have := ih h' (h'.phrase_singleton b) fuel (by simp; omega)
        rw [show [b] ++ input = b :: input from rfl] at this
        rw [this]
        rfl
      · simp only [hlt, if_false, h.rootChild]
        have := ih h (h.phrase_singleton b) fuel (by simp; omega)
        rw [show [b] ++ input = b :: input from rfl] at this
        rw [this]
        rfl

/-- The two encode loops on a freshly seeded dictionary emit the same codes and build the same tree (43_encoder R173, 42_patricia R149). -/
theorem encPat_eq_encTrie {cap : Nat} (hcap : cap ≤ 65536) (input : List Byte) :
    encPat cap input Radix.seed 256 = (encTrie cap input Forest.seed 256).toRadix := by
  cases input with
  | nil => simp [encPat, encPatLoop, encTrie, EncodeRun.toRadix]
  | cons b rest =>
    have := encPatLoop_eq_encTrieLoop hcap rest trieInv_seed (trieInv_seed.phrase_singleton b) (b :: rest).length (by simp)
    simp only [encPat, encTrie, trieInv_seed.rootChild, ← Forest.toRadix_seed]
    exact this

/-- The phrases of the dictionary listed in code order. -/
structure Listed (f : Forest) (n : BitVec 17) (D : List Phrase) : Prop where
  len : D.length = n.toNat
  at_ : ∀ c : Code, f.phrase? c = D[c.toNat]?

theorem getElem?_append_one {α} (D : List α) (x : α) (i : Nat) : (D ++ [x])[i]? = if i = D.length then some x else D[i]? := by
  by_cases h : i = D.length
  · subst h; simp
  · rw [if_neg h]
    by_cases h2 : i < D.length
    · rw [List.getElem?_append_left h2]
    · rw [List.getElem?_eq_none (by simp; omega), List.getElem?_eq_none (by omega)]

theorem Listed.addUnder {f : Forest} {n : BitVec 17} {D : List Phrase} (h : TrieInv f n) (hl : Listed f n D) (hn : n.toNat < 65536)
    {c : Code} {q : Phrase} (hq : f.phrase? c = some q) (b : Byte) :
    Listed (f.addUnder c b (nextAsCode n)) (n + 1) (D ++ [q ++ [b]]) := by
  refine ⟨by rw [next_succ_toNat hn]; simp [hl.len], fun x => ?_⟩
  rw [h.phrase_addUnder hn hq, getElem?_append_one, hl.at_, hl.len]
  have : x = nextAsCode n ↔ x.toNat = n.toNat := by
    rw [← nextAsCode_toNat hn, BitVec.toNat_inj]
  simp [this]

theorem idxOf?_spec {D : List Phrase} {p : Phrase} {i : Nat} (h : D.idxOf? p = some i) : D[i]? = some p := by
  induction D generalizing i with
  | nil => simp at h
  | cons a D ih =>
    rw [List.idxOf?_cons] at h
    split at h
    · simp_all; grind
    · obtain ⟨j, hj, rfl⟩ := Option.map_eq_some_iff.1 h
      simpa using ih hj

theorem codeOf?_eq {f : Forest} {n : BitVec 17} {D : List Phrase} (h : TrieInv f n) (hl : Listed f n D) (hn : n.toNat ≤ 65536)
    (p : Phrase) : codeOf? D p = (f.find? p).map (·.1) := by
  unfold codeOf?
  cases hi : D.idxOf? p with
  | none =>
    rw [List.idxOf?_eq_none_iff] at hi
    cases hf : f.find? p with
    | none => rfl
    | some x =>
      exfalso
      apply hi
      have := (Forest.phrase?_eq_some_iff h.wf x.1 p).2 ⟨x.2, hf⟩
      rw [hl.at_] at this
      exact List.mem_of_getElem? this
  | some i =>
    have hd := idxOf?_spec hi
    have hlt : i < D.length := by
      by_contra hc
      rw [List.getElem?_eq_none (by omega)] at hd
      cases hd
    rw [hl.len] at hlt
    have hp : f.phrase? (BitVec.ofNat 16 i) = some p := by
      rw [hl.at_]
      simp only [BitVec.toNat_ofNat]
      rw [Nat.mod_eq_of_lt (by omega)]
      exact hd
    obtain ⟨kids, hk⟩ := (Forest.phrase?_eq_some_iff h.wf _ _).1 hp
    simp [hk]

theorem longestStored_eq {f : Forest} {n : BitVec 17} {D : List Phrase} (h : TrieInv f n) (hl : Listed f n D) (hn : n.toNat ≤ 65536)
    (buf : List Byte) {p : Phrase} {x : Code × Forest} (hf : f.find? p = some x) (hp : p <+: buf)
    (hmax : ∀ p', p' <+: buf → (f.find? p').isSome → p'.length ≤ p.length) (k : Nat) (hk : p.length ≤ k) (hkb : k ≤ buf.length) :
    longestStored D buf k = some (x.1, p.length) := by
  have hpn : p ≠ [] := by rintro rfl; simp at hf
  induction k with
  | zero => exact absurd (List.length_eq_zero_iff.1 (by omega)) hpn
  | succ k ih =>
    simp only [longestStored, codeOf?_eq h hl hn]
    by_cases he : p.length = k + 1
    · have : buf.take (k + 1) = p := by rw [← he]; exact (List.prefix_iff_eq_take.1 hp).symm
      simp [this, hf, he]
    · cases hc : f.find? (buf.take (k + 1)) with
      | none => exact ih (by omega) (by omega)
      | some y =>
        have := hmax _ (List.take_prefix _ _) (Option.isSome_iff_exists.2 ⟨y, hc⟩)
        simp at this
        omega

theorem longestMatch_eq {f : Forest} {n : BitVec 17} {D : List Phrase} (h : TrieInv f n) (hl : Listed f n D) (hn : n.toNat ≤ 65536)
    {buf : List Byte} (hb : buf ≠ []) : longestMatch D buf = f.lpm buf := by
  rcases Forest.lpm_spec f buf with ⟨_, h2⟩ | ⟨p, x, h1, h2, h3, h4⟩
  · obtain ⟨b, buf, rfl⟩ := List.exists_cons_of_ne_nil hb
    have := h2 [b] (by simp)
    obtain ⟨kids, hk⟩ := (Forest.phrase?_eq_some_iff h.wf _ _).1 (h.phrase_singleton b)
    simp [this] at hk
  · rw [h3]
    exact longestStored_eq h hl hn buf h1 h2 h4 _ h2.length_le (le_refl _)

theorem lzwEncodeLoop_eq {cap : Nat} (hcap : cap ≤ 65536) (input : List Byte) {cur : Code} {q : Phrase} {f : Forest}
    {n : BitVec 17} {D : List Phrase} (h : TrieInv f n) (hl : Listed f n D) (hnc : n.toNat ≤ cap) (hq : f.phrase? cur = some q) (fuel : Nat)
    (hfuel : (q ++ input).length ≤ fuel) :
    (lzwEncodeLoop cap fuel (q ++ input) D).codes = (encTrieLoop cap input cur f n).codes ∧
    Listed (encTrieLoop cap input cur f n).dict (encTrieLoop cap input cur f n).next (lzwEncodeLoop cap fuel (q ++ input) D).phrases := by
  induction input generalizing cur q f n D fuel with
  | nil =>
    obtain ⟨kids, hk⟩ := (Forest.phrase?_eq_some_iff h.wf _ _).1 hq
    have hqn := Forest.phrase?_ne_nil hq
    simp only [List.append_nil] at hfuel ⊢
    have hql : q.length ≠ 0 := by simpa using hqn
    obtain ⟨fuel, rfl⟩ : ∃ k, fuel = k + 1 := ⟨fuel - 1, by omega⟩
    have hlp := Forest.lpm_of_maximal hk [] (by simp)
    rw [List.append_nil] at hlp
    have hlm := longestMatch_eq h hl (by omega) hqn
    rw [hlp] at hlm
    have hz : ∀ D, lzwEncodeLoop cap fuel ([] : List Byte) D = ⟨[], D⟩ := by
      intro D; cases fuel <;> rfl
    simp only [lzwEncodeLoop, hlm, List.drop_length, lt_irrefl, false_and, if_false, hz, encTrieLoop]
    exact ⟨trivial, hl⟩
  | cons b input ih =>
    obtain ⟨kids, hk⟩ := (Forest.phrase?_eq_some_iff h.wf _ _).1 hq
    have hqn := Forest.phrase?_ne_nil hq
    have hql : q.length ≠ 0 := by simpa using hqn
    simp only [encTrieLoop]
    rw [Forest.childAt_node h.wf hq]
    cases hc : f.find? (q ++ [b]) with
    | some x =>
      simp only [Option.map_some]
      have := ih h hl hnc ((Forest.phrase?_eq_some_iff h.wf x.1 (q ++ [b])).2 ⟨x.2, hc⟩) fuel (by simpa using hfuel)
      simpa using this
    | none =>
      simp only [Option.map_none]
      have hlp := Forest.lpm_of_maximal hk (b :: input) (by rintro b' more ⟨rfl, rfl⟩; exact hc)
      have hcat : f.childAt (.node cur) b = none := by rw [Forest.childAt_node h.wf hq, hc]; rfl
      have hcur : cur.toNat < n.toNat := by
        rw [← h.codes.2, ← Forest.phrase?_isSome_iff, hq]; rfl
      have hlm := longestMatch_eq h hl (by omega) (buf := q ++ b :: input) (by simp)
      rw [hlp] at hlm
      simp only [List.length_append, List.length_cons] at hfuel
      obtain ⟨fuel, rfl⟩ : ∃ k, fuel = k + 1 := ⟨fuel - 1, by omega⟩
      have htake : (q ++ b :: input).take (q.length + 1) = q ++ [b] := by
        rw [List.take_append]; simp
      simp only [lzwEncodeLoop, hlm, htake, List.drop_left, List.length_append, List.length_cons, hl.len]
      have hlen : q.length < q.length + (input.length + 1) := by omega
      simp only [hlen, true_and]
      by_cases hlt : n.toNat < cap
      · have hn : n.toNat < 65536 := by omega
        have h' := h.addUnder hn hcur hcat
        simp only [hlt, if_true, Forest.attach, h'.rootChild]
        have := ih h' (hl.addUnder h hn hq b) (by rw [next_succ_toNat hn]; omega) (h'.phrase_singleton b) fuel (by simp; omega)
        rw [show [b] ++ input = b :: input from rfl] at this
        exact ⟨by rw [this.1]; rfl, this.2⟩
      · simp only [hlt, if_false, h.rootChild]
        have := ih h hl hnc (h.phrase_singleton b) fuel (by simp; omega)
        rw [show [b] ++ input = b :: input from rfl] at this
        exact ⟨by rw [this.1]; rfl, this.2⟩

theorem listed_seed : Listed Forest.seed 256 singletons := by
  refine ⟨by simp [singletons], fun c => ?_⟩
  rw [Forest.phrase?_seed, singletons]
  by_cases h : c.toNat < 256
  · simp [h]
  · simp [h]

theorem lzwEncode_eq {cap : Nat} (hcap : cap ≤ 65536) (h256 : 256 ≤ cap) (input : List Byte) :
    (lzwEncode cap input).codes = (encTrie cap input Forest.seed 256).codes ∧
    Listed (encTrie cap input Forest.seed 256).dict (encTrie cap input Forest.seed 256).next (lzwEncode cap input).phrases := by
  cases input with
  | nil => exact ⟨rfl, listed_seed⟩
  | cons b rest =>
    have := lzwEncodeLoop_eq hcap rest trieInv_seed listed_seed h256 (trieInv_seed.phrase_singleton b) (b :: rest).length (by simp)
    simp only [lzwEncode, encTrie, trieInv_seed.rootChild]
    exact this

/-- The size laws of an encode loop (43_encoder R175). -/
theorem encTrieLoop_size {cap : Nat} (hcap : cap ≤ 65536) (input : List Byte) {cur : Code} {f : Forest} {n : BitVec 17} (hn : n.toNat ≤ cap) :
    1 ≤ (encTrieLoop cap input cur f n).codes.length ∧ (encTrieLoop cap input cur f n).codes.length ≤ input.length + 1 ∧
    (encTrieLoop cap input cur f n).next.toNat = min cap (n.toNat + (encTrieLoop cap input cur f n).codes.length - 1) := by
  induction input generalizing cur f n with
  | nil => simp [encTrieLoop]; omega
  | cons b input ih =>
    simp only [encTrieLoop]
    cases hc : f.childAt (.node cur) b with
    | some c =>
      obtain ⟨h1, h2, h3⟩ := ih (cur := c) (f := f) hn
      exact ⟨h1, by simp only [List.length_cons]; omega, h3⟩
    | none =>
      simp only
      split
      · rename_i hlt
        have hs := next_succ_toNat (n := n) (by omega)
        obtain ⟨h1, h2, h3⟩ := ih (n := n + 1) (f := f.attach (.node cur) b (nextAsCode n))
          (cur := (f.attach (.node cur) b (nextAsCode n)).rootChild b) (by omega)
        simp only [EncodeRun.emit, List.length_cons]
        omega
      · obtain ⟨h1, h2, h3⟩ := ih (n := n) (f := f) (cur := f.rootChild b) hn
        simp only [EncodeRun.emit, List.length_cons]
        omega

/-- Each emitted code is below the NEXT_CODE of the time it is emitted (43_encoder R175). -/
theorem encTrieLoop_codes_lt {cap : Nat} (hcap : cap ≤ 65536) (input : List Byte) {cur : Code} {f : Forest} {n : BitVec 17}
    (h : TrieInv f n) (hn : n.toNat ≤ cap) (hcur : cur.toNat < n.toNat) (i : Nat) (c : Code)
    (hi : (encTrieLoop cap input cur f n).codes[i]? = some c) : c.toNat < min cap (n.toNat + i) := by
  induction input generalizing cur f n i with
  | nil =>
    simp only [encTrieLoop] at hi
    cases i with
    | zero =>
      simp only [List.getElem?_cons_zero, Option.some.injEq] at hi
      subst hi; omega
    | succ i => simp at hi
  | cons b input ih =>
    simp only [encTrieLoop] at hi
    cases hc : f.childAt (.node cur) b with
    | some c' =>
      rw [hc] at hi
      refine ih h hn ?_ i hi
      obtain ⟨q, hq⟩ := h.phrase_of_lt hcur
      rw [Forest.childAt_node h.wf hq] at hc
      obtain ⟨⟨c', kids⟩, h1, h2⟩ := Option.map_eq_some_iff.1 hc
      rw [← h.codes.2, ← h2]
      exact Forest.mem_codes_of_find? h1
    | none =>
      rw [hc] at hi
      simp only at hi
      split at hi
      · rename_i hlt
        have h' := h.addUnder (by omega) hcur hc
        have hs := next_succ_toNat (n := n) (by omega)
        simp only [EncodeRun.emit] at hi
        cases i with
        | zero =>
          simp only [List.getElem?_cons_zero, Option.some.injEq] at hi
          subst hi; omega
        | succ i =>
          simp only [List.getElem?_cons_succ] at hi
          have := ih h' (by omega) (by rw [Forest.attach, h'.rootChild]; exact h'.byteCode_lt b) i hi
          omega
      · simp only [EncodeRun.emit] at hi
        cases i with
        | zero =>
          simp only [List.getElem?_cons_zero, Option.some.injEq] at hi
          subst hi; omega
        | succ i =>
          simp only [List.getElem?_cons_succ] at hi
          have := ih h hn (by rw [h.rootChild]; exact h.byteCode_lt b) i hi
          omega

/-- A dictionary of the selected backend with the tree of a byte trie (42_patricia R149). -/
def Dict.ofForest : Backend → Forest → Dict
  | .trie, f => .trie f
  | .patricia, f => .patricia f.toRadix

/-- ENCODE on a freshly seeded dictionary does the same on both backends (43_encoder R173, 42_patricia R149). -/
theorem encodeInput_seed {cap : Nat} (hcap : cap ≤ 65536) (input : List Byte) (bk : Backend) :
    encodeInput cap input (Dict.seed bk) 256 =
      ⟨(encTrie cap input Forest.seed 256).codes, Dict.ofForest bk (encTrie cap input Forest.seed 256).dict,
        (encTrie cap input Forest.seed 256).next⟩ := by
  cases bk
  · rfl
  · simp only [encodeInput, Dict.seed, encPat_eq_encTrie hcap, EncodeRun.toRadix, Dict.ofForest]

/-- The encode loop leaves a dictionary that satisfies its invariant (41_prefix_trie R124). -/
theorem trieInv_encTrie {cap : Nat} (hcap : cap ≤ 65536) (input : List Byte) :
    TrieInv (encTrie cap input Forest.seed 256).dict (encTrie cap input Forest.seed 256).next := by
  cases input with
  | nil => exact trieInv_seed
  | cons b rest =>
    simp only [encTrie]
    exact (encTrieLoop_inv hcap rest trieInv_seed (by rw [trieInv_seed.rootChild]; exact trieInv_seed.byteCode_lt b)).1

theorem dictInv_ofForest {f : Forest} {n : BitVec 17} (h : TrieInv f n) (bk : Backend) : DictInv (Dict.ofForest bk f) n := by
  cases bk
  · exact h
  · exact h.toRadix

theorem Dict.phrase?_ofForest (bk : Backend) (f : Forest) (c : Code) : (Dict.ofForest bk f).phrase? c = f.phrase? c := by
  cases bk
  · rfl
  · exact Forest.phrase?_toRadix f c

@[simp] theorem Dict.backend_ofForest (bk : Backend) (f : Forest) : (Dict.ofForest bk f).backend = bk := by cases bk <;> rfl

@[simp] theorem Dict.backend_seed (bk : Backend) : (Dict.seed bk).backend = bk := by cases bk <;> rfl

/-- The size laws of ENCODE (43_encoder R175). -/
theorem encTrie_size {cap : Nat} (hcap : cap ≤ 65536) (h256 : 256 ≤ cap) (input : List Byte) :
    (encTrie cap input Forest.seed 256).codes.length ≤ input.length ∧
    256 ≤ (encTrie cap input Forest.seed 256).next.toNat ∧ (encTrie cap input Forest.seed 256).next.toNat ≤ cap ∧
    (input ≠ [] → 1 ≤ (encTrie cap input Forest.seed 256).codes.length ∧
      (encTrie cap input Forest.seed 256).next.toNat = min cap (256 + (encTrie cap input Forest.seed 256).codes.length - 1)) ∧
    ∀ i c, (encTrie cap input Forest.seed 256).codes[i]? = some c → c.toNat < min cap (256 + i) := by
  cases input with
  | nil => simpa [encTrie] using h256
  | cons b rest =>
    simp only [encTrie]
    obtain ⟨h1, h2, h3⟩ := encTrieLoop_size hcap rest (cur := Forest.seed.rootChild b) (f := Forest.seed) (n := 256) (by simpa using h256)
    have h3' : (encTrieLoop cap rest (Forest.seed.rootChild b) Forest.seed 256).next.toNat =
        min cap (256 + (encTrieLoop cap rest (Forest.seed.rootChild b) Forest.seed 256).codes.length - 1) := by simpa using h3
    exact ⟨by simpa using h2, by omega, by omega, fun _ => ⟨h1, h3'⟩,
      fun i c hi => encTrieLoop_codes_lt hcap rest trieInv_seed (by simpa using h256)
        (by rw [trieInv_seed.rootChild]; exact trieInv_seed.byteCode_lt b) i c hi⟩

end Sys2Proof.Machine
end

