-- ==== Sys2Proof/Laws/Decoder.lean ====
section
/-! SUPPORT. Laws of the array decoder: it undoes the abstract encoder (44_decoder R198), and what placing its output in a buffer does
(44_decoder R195). -/

namespace Sys2Proof.Machine

@[simp] theorem singletons_length : singletons.length = 256 := by simp [singletons]

/-- The decoder table never passes CAP (44_decoder R194). -/
theorem growTable_length_le {cap : Nat} {table : List Phrase} (h : table.length ≤ cap) (prev cur : Phrase) :
    (growTable cap table prev cur).length ≤ cap := by
  unfold growTable
  split
  · simpa using by assumption
  · exact h

theorem longestStored_some {D : List Phrase} {buf : List Byte} {k : Nat} {c : Code} {m : Nat} (h : longestStored D buf k = some (c, m)) :
    codeOf? D (buf.take m) = some c ∧ 1 ≤ m ∧ m ≤ k := by
  induction k with
  | zero => simp [longestStored] at h
  | succ k ih =>
    simp only [longestStored] at h
    split at h
    · simp only [Option.some.injEq, Prod.mk.injEq] at h
      obtain ⟨rfl, rfl⟩ := h
      exact ⟨by assumption, by omega, by omega⟩
    · obtain ⟨h1, h2, h3⟩ := ih h
      exact ⟨h1, h2, by omega⟩

theorem longestStored_exists {D : List Phrase} {buf : List Byte} {k j : Nat} (hj : j + 1 ≤ k) (h : (codeOf? D (buf.take (j+1))).isSome) :
    (longestStored D buf k).isSome := by
  induction k with
  | zero => omega
  | succ k ih =>
    simp only [longestStored]
    split
    · rfl
    · rename_i hn
      by_cases he : j = k
      · subst he; simp [hn] at h
      · exact ih (by omega)

theorem codeOf?_spec {D : List Phrase} {p : Phrase} {c : Code} (hD : D.length ≤ 65536) (h : codeOf? D p = some c) : D[c.toNat]? = some p := by
  unfold codeOf? at h
  obtain ⟨i, hi, rfl⟩ := Option.map_eq_some_iff.1 h
  have := idxOf?_spec hi
  have hlt : i < D.length := by
    by_contra hc
    rw [List.getElem?_eq_none (by omega)] at this
    cases this
  simp only [BitVec.toNat_ofNat]
  rw [Nat.mod_eq_of_lt (by omega)]
  exact this

theorem codeOf?_singleton {D : List Phrase} (hs : singletons <+: D) (b : Byte) : (codeOf? D [b]).isSome := by
  unfold codeOf?
  rw [Option.isSome_map]
  cases h : D.idxOf? [b] with
  | some _ => rfl
  | none =>
    rw [List.idxOf?_eq_none_iff] at h
    exfalso; apply h
    refine hs.subset ?_
    simp only [singletons, List.mem_map, List.mem_range]
    exact ⟨b.toNat, b.isLt, by simp⟩

theorem decode_encodeLoop {cap : Nat} (hcap : cap ≤ 65536) (fuel : Nat) (buf : List Byte) (hfuel : buf.length ≤ fuel)
    (T : List Phrase) (prev : Phrase) (i : Nat) (hprev : prev ≠ [])
    (hs : singletons <+: T) (hT : T.length ≤ cap) (D : List Phrase) (hD : ∀ b more, buf = b :: more → D = growTable cap T prev [b]) :
    (lzwDecodeLoop cap (lzwEncodeLoop cap fuel buf D).codes i T prev).badAt = none ∧
    (lzwDecodeLoop cap (lzwEncodeLoop cap fuel buf D).codes i T prev).chunks.flatten = buf := by
  induction fuel generalizing buf T prev i D with
  | zero =>
    have : buf = [] := List.length_eq_zero_iff.1 (by omega)
    subst this
    simp [lzwEncodeLoop, lzwDecodeLoop]
  | succ fuel ih =>
    cases buf with
    | nil =>
      have : longestMatch D [] = none := rfl
      simp [lzwEncodeLoop, lzwDecodeLoop, this]
    | cons b more =>
      have hD' := hD b more rfl
      have hlenD : D.length ≤ cap := by
        rw [hD', growTable]; split
        · simp; omega
        · exact hT
      have hsD : singletons <+: D := by
        rw [hD', growTable]; split
        · exact hs.trans (List.prefix_append _ _)
        · exact hs
      have hsome : (longestMatch D (b :: more)).isSome := longestStored_exists (j := 0) (by simp) (by simpa using codeOf?_singleton hsD b)
      obtain ⟨⟨c, m⟩, hm⟩ := Option.isSome_iff_exists.1 hsome
      obtain ⟨hc, hm1, hm2⟩ := longestStored_some hm
      have hDc := codeOf?_spec (by omega) hc
      simp only [lzwEncodeLoop, hm]
      simp only [lzwDecodeLoop]
      have hres : resolveCode cap T prev c = some ((b :: more).take m) := by
        have hclt : c.toNat < D.length := by
          by_contra hcc
          rw [List.getElem?_eq_none (by omega)] at hDc
          cases hDc
        rw [hD', growTable] at hDc hclt
        unfold resolveCode
        split at hDc
        · rename_i hlt
          rw [if_pos hlt, List.length_append, List.length_singleton] at hclt
          rw [getElem?_append_one] at hDc
          split at hDc
          · rename_i he
            simp only [List.take_succ_cons, List.take_zero, Option.some.injEq] at hDc
            obtain ⟨x, pr, rfl⟩ := List.exists_cons_of_ne_nil hprev
            obtain ⟨m, rfl⟩ : ∃ k, m = k + 1 := ⟨m - 1, by omega⟩
            simp only [List.take_succ_cons, List.cons_append, List.cons.injEq] at hDc
            simp only [he, lt_irrefl, if_false, hlt, and_self, if_true, List.take_succ_cons, List.take_zero, ← hDc.2, hDc.1, List.cons_append]
          · rw [if_pos (by omega)]; exact hDc
        · rename_i hlt
          rw [if_neg hlt] at hclt
          rw [if_pos hclt]
          exact hDc
      have hp1 : ((b :: more).take m).take 1 = [b] := by
        obtain ⟨m, rfl⟩ : ∃ k, m = k + 1 := ⟨m - 1, by omega⟩
        simp
      have hgrow : growTable cap T prev ((b :: more).take m) = D := by
        rw [hD']; unfold growTable; rw [hp1]; simp
      rw [hres]
      simp only [hgrow]
      have := ih ((b :: more).drop m) (by simp at *; omega) D ((b :: more).take m) (i + 1)
        (by intro h; rw [h] at hp1; simp at hp1) hsD hlenD
        (if m < (b :: more).length ∧ D.length < cap then D ++ [(b :: more).take (m + 1)] else D) (by
          intro b' more' hb'
          have hlt : m < (b :: more).length := by
            by_contra hcc
            rw [List.drop_eq_nil_of_le (by omega)] at hb'
            cases hb'
          have : (b :: more).take (m + 1) = (b :: more).take m ++ [b'] := by
            have h1 : (b :: more)[m]? = some b' := by
              have := congrArg (fun l => l[0]?) hb'
              simpa using this
            rw [List.take_add_one, h1]; rfl
          simp only [hlt, true_and, growTable, this]
          simp)
      refine ⟨this.1, ?_⟩
      simp only [DecodeRun.emit, List.flatten_cons, this.2, List.take_append_drop]

/-- An output that fits is written whole (44_decoder R195). -/
theorem place_of_fits {size : Nat} (chunks : List Phrase) (i o : Nat) (h : o + chunks.flatten.length ≤ size) :
    place size chunks i o = ⟨chunks.flatten, none⟩ := by
  induction chunks generalizing i o with
  | nil => rfl
  | cons p chunks ih =>
    simp only [List.flatten_cons, List.length_append] at h
    simp only [place, show ¬ size < o + p.length by omega, if_false]
    rw [ih (i + 1) (o + p.length) (by omega), List.flatten_cons]

/-- At the first sequence that does not fit, as much of the output as fits is written, and its index is given (60_exceptions R235). -/
theorem place_of_overflow {size : Nat} (chunks : List Phrase) (i o k : Nat) (hk : k < chunks.length)
    (hfit : o + (chunks.take k).flatten.length ≤ size) (hover : size < o + (chunks.take (k + 1)).flatten.length) :
    place size chunks i o = ⟨chunks.flatten.take (size - o), some (i + k)⟩ := by
  induction chunks generalizing i o k with
  | nil => simp at hk
  | cons p chunks ih =>
    cases k with
    | zero =>
      simp only [zero_add, List.take_succ_cons, List.take_zero, List.flatten_cons, List.flatten_nil, List.append_nil] at hover
      simp only [place, hover, if_true, List.flatten_cons, add_zero, Placed.mk.injEq, and_true]
      rw [List.take_append_of_le_length (by omega)]
    | succ k =>
      simp only [List.take_succ_cons, List.flatten_cons, List.length_append, List.length_cons] at hfit hover hk
      simp only [place, show ¬ size < o + p.length by omega, if_false]
      rw [ih (i + 1) (o + p.length) k (by omega) (by omega) (by omega)]
      simp only [List.flatten_cons, Placed.mk.injEq, Option.some.injEq]
      refine ⟨?_, by omega⟩
      rw [List.take_append, List.take_of_length_le (by omega : p.length ≤ size - o)]
      congr 2; omega

/-- What is placed never passes the end of the buffer (44_decoder R195). -/
theorem place_length_le {size : Nat} (chunks : List Phrase) (i o : Nat) (h : o ≤ size) :
    o + (place size chunks i o).bytes.length ≤ size := by
  induction chunks generalizing i o with
  | nil => simpa [place] using h
  | cons p chunks ih =>
    simp only [place]
    split
    · simp only [List.length_take]; omega
    · have := ih (i + 1) (o + p.length) (by omega)
      simp only [List.length_append]; omega

end Sys2Proof.Machine
end

