-- ==== Sys2Proof/Laws/Memory.lean ====
section
/-! SUPPORT. Laws of the sparse memories: read after write, canonical form kept, equal contents are equal data. -/

namespace Sys2Proof.Machine

variable {α : Type}

@[simp] theorem Memory.get?_nil (i : Nat) : Memory.get? ([] : List (Nat × α)) i = none := rfl

theorem Memory.get?_set (m : List (Nat × α)) (i j : Nat) (v : α) :
    Memory.get? (Memory.set m i v) j = if j = i then some v else Memory.get? m j := by
  induction m with
  | nil => simp only [Memory.set, Memory.get?]
  | cons c m ih =>
    obtain ⟨a, x⟩ := c
    simp only [Memory.set]
    split
    · simp only [Memory.get?]
    · split
      · simp only [Memory.get?]
        split <;> simp_all
      · simp only [Memory.get?, ih]
        split <;> split <;> simp_all

@[simp] theorem Memory.get?_set_same (m : List (Nat × α)) (i : Nat) (v : α) :
    Memory.get? (Memory.set m i v) i = some v := by
  simp [Memory.get?_set]

theorem Memory.get?_set_other (m : List (Nat × α)) {i j : Nat} (v : α) (h : j ≠ i) :
    Memory.get? (Memory.set m i v) j = Memory.get? m j := by
  simp [Memory.get?_set, h]

/-- What a block write does to every element: those of the block are the values written, the others are unchanged. -/
theorem Memory.get?_setAll (vs : List α) (m : List (Nat × α)) (i j : Nat) :
    Memory.get? (Memory.setAll m i vs) j =
      if i ≤ j ∧ j < i + vs.length then vs[j - i]? else Memory.get? m j := by
  induction vs generalizing m i with
  | nil => simp [Memory.setAll]
  | cons v vs ih =>
    simp only [Memory.setAll, ih, Memory.get?_set, List.length_cons]
    by_cases hj : j = i
    · subst hj
      simp
    · by_cases hin : i + 1 ≤ j ∧ j < i + 1 + vs.length
      · have h1 : i ≤ j ∧ j < i + (vs.length + 1) := by omega
        obtain ⟨k, hk⟩ : ∃ k, j - i = k + 1 := ⟨j - i - 1, by omega⟩
        have hk' : j - (i + 1) = k := by omega
        simp [hin, h1, hk, hk']
      · have h1 : ¬(i ≤ j ∧ j < i + (vs.length + 1)) := by omega
        rw [if_neg hin, if_neg h1, if_neg hj]

theorem Memory.risingFrom_mono {size lo lo' : Nat} {m : List (Nat × α)} (h : lo ≤ lo')
    (hm : Memory.risingFrom size lo' m = true) : Memory.risingFrom size lo m = true := by
  cases m with
  | nil => rfl
  | cons c m =>
    obtain ⟨a, x⟩ := c
    simp only [Memory.risingFrom, Bool.and_eq_true, decide_eq_true_eq] at hm ⊢
    exact ⟨⟨le_trans h hm.1.1, hm.1.2⟩, hm.2⟩

theorem Memory.risingFrom_set {size lo i : Nat} {m : List (Nat × α)} (v : α) (hlo : lo ≤ i) (hi : i < size)
    (hm : Memory.risingFrom size lo m = true) : Memory.risingFrom size lo (Memory.set m i v) = true := by
  induction m generalizing lo with
  | nil => simp [Memory.set, Memory.risingFrom, hlo, hi]
  | cons c m ih =>
    obtain ⟨a, x⟩ := c
    simp only [Memory.risingFrom, Bool.and_eq_true, decide_eq_true_eq] at hm
    obtain ⟨⟨h1, h2⟩, h3⟩ := hm
    simp only [Memory.set]
    split
    · simp only [Memory.risingFrom, Bool.and_eq_true, decide_eq_true_eq]
      exact ⟨⟨hlo, hi⟩, ⟨by omega, h2⟩, h3⟩
    · split
      · subst_vars
        simp only [Memory.risingFrom, Bool.and_eq_true, decide_eq_true_eq]
        exact ⟨⟨h1, h2⟩, h3⟩
      · simp only [Memory.risingFrom, Bool.and_eq_true, decide_eq_true_eq]
        exact ⟨⟨h1, h2⟩, ih (by omega) h3⟩

/-- A write inside the buffer keeps the canonical form. -/
theorem Memory.wf_set {size i : Nat} {m : List (Nat × α)} (v : α) (hi : i < size) (hm : Memory.wf size m = true) :
    Memory.wf size (Memory.set m i v) = true :=
  Memory.risingFrom_set v (Nat.zero_le i) hi hm

/-- A block write inside the buffer keeps the canonical form. -/
theorem Memory.wf_setAll {size : Nat} (vs : List α) {m : List (Nat × α)} {i : Nat} (hi : i + vs.length ≤ size)
    (hm : Memory.wf size m = true) : Memory.wf size (Memory.setAll m i vs) = true := by
  induction vs generalizing m i with
  | nil => exact hm
  | cons v vs ih =>
    simp only [List.length_cons] at hi
    exact ih (by omega) (Memory.wf_set v (by omega) hm)

@[simp] theorem Memory.wf_nil (size : Nat) : Memory.wf size ([] : List (Nat × α)) = true := rfl

theorem Memory.get?_below {size lo j : Nat} {m : List (Nat × α)} (hm : Memory.risingFrom size lo m = true) (hj : j < lo) :
    Memory.get? m j = none := by
  induction m generalizing lo with
  | nil => rfl
  | cons c m ih =>
    obtain ⟨a, x⟩ := c
    simp only [Memory.risingFrom, Bool.and_eq_true, decide_eq_true_eq] at hm
    have hne : j ≠ a := by omega
    simp only [Memory.get?, hne, if_false]
    exact ih hm.2 (by omega)

/-- Canonical memories with the same contents are the same list. -/
theorem Memory.ext_of_wf {size : Nat} {m m' : List (Nat × α)} (hm : Memory.wf size m = true) (hm' : Memory.wf size m' = true)
    (h : ∀ i, Memory.get? m i = Memory.get? m' i) : m = m' := by
  suffices H : ∀ (m m' : List (Nat × α)) (lo : Nat), Memory.risingFrom size lo m = true → Memory.risingFrom size lo m' = true →
      (∀ i, Memory.get? m i = Memory.get? m' i) → m = m' from H m m' 0 hm hm' h
  intro m
  induction m with
  | nil =>
    intro m' lo _ _ h
    cases m' with
    | nil => rfl
    | cons c m' =>
      obtain ⟨a, x⟩ := c
      have := h a
      simp [Memory.get?] at this
  | cons c m ih =>
    obtain ⟨a, x⟩ := c
    intro m' lo hm hm' h
    simp only [Memory.risingFrom, Bool.and_eq_true, decide_eq_true_eq] at hm
    cases m' with
    | nil =>
      have := h a
      simp [Memory.get?] at this
    | cons c' m' =>
      obtain ⟨a', x'⟩ := c'
      simp only [Memory.risingFrom, Bool.and_eq_true, decide_eq_true_eq] at hm'
      have haa : a = a' := by
        by_contra hne
        rcases Nat.lt_or_gt_of_ne hne with hlt | hgt
        · have h1 := h a
          simp only [Memory.get?, if_true, hne, if_false] at h1
          rw [Memory.get?_below hm'.2 (by omega)] at h1
          cases h1
        · have h1 := h a'
          simp only [Memory.get?, if_true, Ne.symm hne, if_false] at h1
          rw [Memory.get?_below hm.2 (by omega)] at h1
          cases h1
      subst haa
      have hx : x = x' := by
        have := h a
        simpa [Memory.get?] using this
      subst hx
      congr 1
      refine ih m' (a + 1) hm.2 hm'.2 fun i => ?_
      by_cases hi : i = a
      · subst hi
        rw [Memory.get?_below hm.2 (by omega), Memory.get?_below hm'.2 (by omega)]
      · have := h i
        simpa [Memory.get?, hi] using this

end Sys2Proof.Machine
end

