-- ==== Sys2Proof/Laws/State.lean ====
section
/-! SUPPORT. One lemma per field per update of State, all true by rfl, and what the updates do to the buffers read. -/

namespace Sys2Proof.Machine

variable (s : State)

@[simp] theorem State.setRc_cfg (rc : RC) : (s.setRc rc).cfg = s.cfg := rfl
@[simp] theorem State.setRc_rc (rc : RC) : (s.setRc rc).rc = rc := rfl
@[simp] theorem State.setRc_busy (rc : RC) : (s.setRc rc).busy = s.busy := rfl
@[simp] theorem State.setRc_ctrl (rc : RC) : (s.setRc rc).ctrl = s.ctrl := rfl
@[simp] theorem State.setRc_inLen (rc : RC) : (s.setRc rc).inLen = s.inLen := rfl
@[simp] theorem State.setRc_pos (rc : RC) : (s.setRc rc).pos = s.pos := rfl
@[simp] theorem State.setRc_plen (rc : RC) : (s.setRc rc).plen = s.plen := rfl
@[simp] theorem State.setRc_codeLen (rc : RC) : (s.setRc rc).codeLen = s.codeLen := rfl
@[simp] theorem State.setRc_outLen (rc : RC) : (s.setRc rc).outLen = s.outLen := rfl
@[simp] theorem State.setRc_nextCode (rc : RC) : (s.setRc rc).nextCode = s.nextCode := rfl
@[simp] theorem State.setRc_resCode (rc : RC) : (s.setRc rc).resCode = s.resCode := rfl
@[simp] theorem State.setRc_resLen (rc : RC) : (s.setRc rc).resLen = s.resLen := rfl
@[simp] theorem State.setRc_errIndex (rc : RC) : (s.setRc rc).errIndex = s.errIndex := rfl
@[simp] theorem State.setRc_ibuf (rc : RC) : (s.setRc rc).ibuf = s.ibuf := rfl
@[simp] theorem State.setRc_cbuf (rc : RC) : (s.setRc rc).cbuf = s.cbuf := rfl
@[simp] theorem State.setRc_obuf (rc : RC) : (s.setRc rc).obuf = s.obuf := rfl
@[simp] theorem State.setRc_dict (rc : RC) : (s.setRc rc).dict = s.dict := rfl
@[simp] theorem State.setRc_draw (rc : RC) : (s.setRc rc).draw = s.draw := rfl
@[simp] theorem State.setRc_host (rc : RC) : (s.setRc rc).host = s.host := rfl
@[simp] theorem State.setRc_lastRead (rc : RC) : (s.setRc rc).lastRead = s.lastRead := rfl

@[simp] theorem State.setRc_ibufAt (rc : RC) (i : Nat) : (s.setRc rc).ibufAt i = s.ibufAt i := rfl
@[simp] theorem State.setRc_cbufAt (rc : RC) (i : Nat) : (s.setRc rc).cbufAt i = s.cbufAt i := rfl
@[simp] theorem State.setRc_obufAt (rc : RC) (i : Nat) : (s.setRc rc).obufAt i = s.obufAt i := rfl

@[simp] theorem State.setDict_cfg (d : Dict) (n : BitVec 17) : (s.setDict d n).cfg = s.cfg := rfl
@[simp] theorem State.setDict_rc (d : Dict) (n : BitVec 17) : (s.setDict d n).rc = s.rc := rfl
@[simp] theorem State.setDict_busy (d : Dict) (n : BitVec 17) : (s.setDict d n).busy = s.busy := rfl
@[simp] theorem State.setDict_ctrl (d : Dict) (n : BitVec 17) : (s.setDict d n).ctrl = s.ctrl := rfl
@[simp] theorem State.setDict_inLen (d : Dict) (n : BitVec 17) : (s.setDict d n).inLen = s.inLen := rfl
@[simp] theorem State.setDict_pos (d : Dict) (n : BitVec 17) : (s.setDict d n).pos = s.pos := rfl
@[simp] theorem State.setDict_plen (d : Dict) (n : BitVec 17) : (s.setDict d n).plen = s.plen := rfl
@[simp] theorem State.setDict_codeLen (d : Dict) (n : BitVec 17) : (s.setDict d n).codeLen = s.codeLen := rfl
@[simp] theorem State.setDict_outLen (d : Dict) (n : BitVec 17) : (s.setDict d n).outLen = s.outLen := rfl
@[simp] theorem State.setDict_nextCode (d : Dict) (n : BitVec 17) : (s.setDict d n).nextCode = n := rfl
@[simp] theorem State.setDict_resCode (d : Dict) (n : BitVec 17) : (s.setDict d n).resCode = s.resCode := rfl
@[simp] theorem State.setDict_resLen (d : Dict) (n : BitVec 17) : (s.setDict d n).resLen = s.resLen := rfl
@[simp] theorem State.setDict_errIndex (d : Dict) (n : BitVec 17) : (s.setDict d n).errIndex = s.errIndex := rfl
@[simp] theorem State.setDict_ibuf (d : Dict) (n : BitVec 17) : (s.setDict d n).ibuf = s.ibuf := rfl
@[simp] theorem State.setDict_cbuf (d : Dict) (n : BitVec 17) : (s.setDict d n).cbuf = s.cbuf := rfl
@[simp] theorem State.setDict_obuf (d : Dict) (n : BitVec 17) : (s.setDict d n).obuf = s.obuf := rfl
@[simp] theorem State.setDict_dict (d : Dict) (n : BitVec 17) : (s.setDict d n).dict = d := rfl
@[simp] theorem State.setDict_draw (d : Dict) (n : BitVec 17) : (s.setDict d n).draw = s.draw := rfl
@[simp] theorem State.setDict_host (d : Dict) (n : BitVec 17) : (s.setDict d n).host = s.host := rfl
@[simp] theorem State.setDict_lastRead (d : Dict) (n : BitVec 17) : (s.setDict d n).lastRead = s.lastRead := rfl

@[simp] theorem State.setDict_ibufAt (d : Dict) (n : BitVec 17) (i : Nat) : (s.setDict d n).ibufAt i = s.ibufAt i := rfl
@[simp] theorem State.setDict_cbufAt (d : Dict) (n : BitVec 17) (i : Nat) : (s.setDict d n).cbufAt i = s.cbufAt i := rfl
@[simp] theorem State.setDict_obufAt (d : Dict) (n : BitVec 17) (i : Nat) : (s.setDict d n).obufAt i = s.obufAt i := rfl

@[simp] theorem State.setResCode_cfg (c : Code) : (s.setResCode c).cfg = s.cfg := rfl
@[simp] theorem State.setResCode_rc (c : Code) : (s.setResCode c).rc = s.rc := rfl
@[simp] theorem State.setResCode_busy (c : Code) : (s.setResCode c).busy = s.busy := rfl
@[simp] theorem State.setResCode_ctrl (c : Code) : (s.setResCode c).ctrl = s.ctrl := rfl
@[simp] theorem State.setResCode_inLen (c : Code) : (s.setResCode c).inLen = s.inLen := rfl
@[simp] theorem State.setResCode_pos (c : Code) : (s.setResCode c).pos = s.pos := rfl
@[simp] theorem State.setResCode_plen (c : Code) : (s.setResCode c).plen = s.plen := rfl
@[simp] theorem State.setResCode_codeLen (c : Code) : (s.setResCode c).codeLen = s.codeLen := rfl
@[simp] theorem State.setResCode_outLen (c : Code) : (s.setResCode c).outLen = s.outLen := rfl
@[simp] theorem State.setResCode_nextCode (c : Code) : (s.setResCode c).nextCode = s.nextCode := rfl
@[simp] theorem State.setResCode_resCode (c : Code) : (s.setResCode c).resCode = c := rfl
@[simp] theorem State.setResCode_resLen (c : Code) : (s.setResCode c).resLen = s.resLen := rfl
@[simp] theorem State.setResCode_errIndex (c : Code) : (s.setResCode c).errIndex = s.errIndex := rfl
@[simp] theorem State.setResCode_ibuf (c : Code) : (s.setResCode c).ibuf = s.ibuf := rfl
@[simp] theorem State.setResCode_cbuf (c : Code) : (s.setResCode c).cbuf = s.cbuf := rfl
@[simp] theorem State.setResCode_obuf (c : Code) : (s.setResCode c).obuf = s.obuf := rfl
@[simp] theorem State.setResCode_dict (c : Code) : (s.setResCode c).dict = s.dict := rfl
@[simp] theorem State.setResCode_draw (c : Code) : (s.setResCode c).draw = s.draw := rfl
@[simp] theorem State.setResCode_host (c : Code) : (s.setResCode c).host = s.host := rfl
@[simp] theorem State.setResCode_lastRead (c : Code) : (s.setResCode c).lastRead = s.lastRead := rfl

@[simp] theorem State.setResCode_ibufAt (c : Code) (i : Nat) : (s.setResCode c).ibufAt i = s.ibufAt i := rfl
@[simp] theorem State.setResCode_cbufAt (c : Code) (i : Nat) : (s.setResCode c).cbufAt i = s.cbufAt i := rfl
@[simp] theorem State.setResCode_obufAt (c : Code) (i : Nat) : (s.setResCode c).obufAt i = s.obufAt i := rfl

@[simp] theorem State.setResLen_cfg (n : Word) : (s.setResLen n).cfg = s.cfg := rfl
@[simp] theorem State.setResLen_rc (n : Word) : (s.setResLen n).rc = s.rc := rfl
@[simp] theorem State.setResLen_busy (n : Word) : (s.setResLen n).busy = s.busy := rfl
@[simp] theorem State.setResLen_ctrl (n : Word) : (s.setResLen n).ctrl = s.ctrl := rfl
@[simp] theorem State.setResLen_inLen (n : Word) : (s.setResLen n).inLen = s.inLen := rfl
@[simp] theorem State.setResLen_pos (n : Word) : (s.setResLen n).pos = s.pos := rfl
@[simp] theorem State.setResLen_plen (n : Word) : (s.setResLen n).plen = s.plen := rfl
@[simp] theorem State.setResLen_codeLen (n : Word) : (s.setResLen n).codeLen = s.codeLen := rfl
@[simp] theorem State.setResLen_outLen (n : Word) : (s.setResLen n).outLen = s.outLen := rfl
@[simp] theorem State.setResLen_nextCode (n : Word) : (s.setResLen n).nextCode = s.nextCode := rfl
@[simp] theorem State.setResLen_resCode (n : Word) : (s.setResLen n).resCode = s.resCode := rfl
@[simp] theorem State.setResLen_resLen (n : Word) : (s.setResLen n).resLen = n := rfl
@[simp] theorem State.setResLen_errIndex (n : Word) : (s.setResLen n).errIndex = s.errIndex := rfl
@[simp] theorem State.setResLen_ibuf (n : Word) : (s.setResLen n).ibuf = s.ibuf := rfl
@[simp] theorem State.setResLen_cbuf (n : Word) : (s.setResLen n).cbuf = s.cbuf := rfl
@[simp] theorem State.setResLen_obuf (n : Word) : (s.setResLen n).obuf = s.obuf := rfl
@[simp] theorem State.setResLen_dict (n : Word) : (s.setResLen n).dict = s.dict := rfl
@[simp] theorem State.setResLen_draw (n : Word) : (s.setResLen n).draw = s.draw := rfl
@[simp] theorem State.setResLen_host (n : Word) : (s.setResLen n).host = s.host := rfl
@[simp] theorem State.setResLen_lastRead (n : Word) : (s.setResLen n).lastRead = s.lastRead := rfl

@[simp] theorem State.setResLen_ibufAt (n : Word) (i : Nat) : (s.setResLen n).ibufAt i = s.ibufAt i := rfl
@[simp] theorem State.setResLen_cbufAt (n : Word) (i : Nat) : (s.setResLen n).cbufAt i = s.cbufAt i := rfl
@[simp] theorem State.setResLen_obufAt (n : Word) (i : Nat) : (s.setResLen n).obufAt i = s.obufAt i := rfl

@[simp] theorem State.setErrIndex_cfg (i : Word) : (s.setErrIndex i).cfg = s.cfg := rfl
@[simp] theorem State.setErrIndex_rc (i : Word) : (s.setErrIndex i).rc = s.rc := rfl
@[simp] theorem State.setErrIndex_busy (i : Word) : (s.setErrIndex i).busy = s.busy := rfl
@[simp] theorem State.setErrIndex_ctrl (i : Word) : (s.setErrIndex i).ctrl = s.ctrl := rfl
@[simp] theorem State.setErrIndex_inLen (i : Word) : (s.setErrIndex i).inLen = s.inLen := rfl
@[simp] theorem State.setErrIndex_pos (i : Word) : (s.setErrIndex i).pos = s.pos := rfl
@[simp] theorem State.setErrIndex_plen (i : Word) : (s.setErrIndex i).plen = s.plen := rfl
@[simp] theorem State.setErrIndex_codeLen (i : Word) : (s.setErrIndex i).codeLen = s.codeLen := rfl
@[simp] theorem State.setErrIndex_outLen (i : Word) : (s.setErrIndex i).outLen = s.outLen := rfl
@[simp] theorem State.setErrIndex_nextCode (i : Word) : (s.setErrIndex i).nextCode = s.nextCode := rfl
@[simp] theorem State.setErrIndex_resCode (i : Word) : (s.setErrIndex i).resCode = s.resCode := rfl
@[simp] theorem State.setErrIndex_resLen (i : Word) : (s.setErrIndex i).resLen = s.resLen := rfl
@[simp] theorem State.setErrIndex_errIndex (i : Word) : (s.setErrIndex i).errIndex = i := rfl
@[simp] theorem State.setErrIndex_ibuf (i : Word) : (s.setErrIndex i).ibuf = s.ibuf := rfl
@[simp] theorem State.setErrIndex_cbuf (i : Word) : (s.setErrIndex i).cbuf = s.cbuf := rfl
@[simp] theorem State.setErrIndex_obuf (i : Word) : (s.setErrIndex i).obuf = s.obuf := rfl
@[simp] theorem State.setErrIndex_dict (i : Word) : (s.setErrIndex i).dict = s.dict := rfl
@[simp] theorem State.setErrIndex_draw (i : Word) : (s.setErrIndex i).draw = s.draw := rfl
@[simp] theorem State.setErrIndex_host (i : Word) : (s.setErrIndex i).host = s.host := rfl
@[simp] theorem State.setErrIndex_lastRead (i : Word) : (s.setErrIndex i).lastRead = s.lastRead := rfl

@[simp] theorem State.setErrIndex_ibufAt (i : Word) (i : Nat) : (s.setErrIndex i).ibufAt i = s.ibufAt i := rfl
@[simp] theorem State.setErrIndex_cbufAt (i : Word) (i : Nat) : (s.setErrIndex i).cbufAt i = s.cbufAt i := rfl
@[simp] theorem State.setErrIndex_obufAt (i : Word) (i : Nat) : (s.setErrIndex i).obufAt i = s.obufAt i := rfl

@[simp] theorem State.putOutput_cfg (bs : List Byte) : (s.putOutput bs).cfg = s.cfg := rfl
@[simp] theorem State.putOutput_rc (bs : List Byte) : (s.putOutput bs).rc = s.rc := rfl
@[simp] theorem State.putOutput_busy (bs : List Byte) : (s.putOutput bs).busy = s.busy := rfl
@[simp] theorem State.putOutput_ctrl (bs : List Byte) : (s.putOutput bs).ctrl = s.ctrl := rfl
@[simp] theorem State.putOutput_inLen (bs : List Byte) : (s.putOutput bs).inLen = s.inLen := rfl
@[simp] theorem State.putOutput_pos (bs : List Byte) : (s.putOutput bs).pos = s.pos := rfl
@[simp] theorem State.putOutput_plen (bs : List Byte) : (s.putOutput bs).plen = s.plen := rfl
@[simp] theorem State.putOutput_codeLen (bs : List Byte) : (s.putOutput bs).codeLen = s.codeLen := rfl
@[simp] theorem State.putOutput_outLen (bs : List Byte) : (s.putOutput bs).outLen = BitVec.ofNat 32 bs.length := rfl
@[simp] theorem State.putOutput_nextCode (bs : List Byte) : (s.putOutput bs).nextCode = s.nextCode := rfl
@[simp] theorem State.putOutput_resCode (bs : List Byte) : (s.putOutput bs).resCode = s.resCode := rfl
@[simp] theorem State.putOutput_resLen (bs : List Byte) : (s.putOutput bs).resLen = s.resLen := rfl
@[simp] theorem State.putOutput_errIndex (bs : List Byte) : (s.putOutput bs).errIndex = s.errIndex := rfl
@[simp] theorem State.putOutput_ibuf (bs : List Byte) : (s.putOutput bs).ibuf = s.ibuf := rfl
@[simp] theorem State.putOutput_cbuf (bs : List Byte) : (s.putOutput bs).cbuf = s.cbuf := rfl
@[simp] theorem State.putOutput_obuf (bs : List Byte) : (s.putOutput bs).obuf = Memory.setAll s.obuf 0 bs := rfl
@[simp] theorem State.putOutput_dict (bs : List Byte) : (s.putOutput bs).dict = s.dict := rfl
@[simp] theorem State.putOutput_draw (bs : List Byte) : (s.putOutput bs).draw = s.draw := rfl
@[simp] theorem State.putOutput_host (bs : List Byte) : (s.putOutput bs).host = s.host := rfl
@[simp] theorem State.putOutput_lastRead (bs : List Byte) : (s.putOutput bs).lastRead = s.lastRead := rfl

@[simp] theorem State.putOutput_ibufAt (bs : List Byte) (i : Nat) : (s.putOutput bs).ibufAt i = s.ibufAt i := rfl
@[simp] theorem State.putOutput_cbufAt (bs : List Byte) (i : Nat) : (s.putOutput bs).cbufAt i = s.cbufAt i := rfl

@[simp] theorem State.putCodes_cfg (cs : List Code) : (s.putCodes cs).cfg = s.cfg := rfl
@[simp] theorem State.putCodes_rc (cs : List Code) : (s.putCodes cs).rc = s.rc := rfl
@[simp] theorem State.putCodes_busy (cs : List Code) : (s.putCodes cs).busy = s.busy := rfl
@[simp] theorem State.putCodes_ctrl (cs : List Code) : (s.putCodes cs).ctrl = s.ctrl := rfl
@[simp] theorem State.putCodes_inLen (cs : List Code) : (s.putCodes cs).inLen = s.inLen := rfl
@[simp] theorem State.putCodes_pos (cs : List Code) : (s.putCodes cs).pos = s.pos := rfl
@[simp] theorem State.putCodes_plen (cs : List Code) : (s.putCodes cs).plen = s.plen := rfl
@[simp] theorem State.putCodes_codeLen (cs : List Code) : (s.putCodes cs).codeLen = BitVec.ofNat 32 cs.length := rfl
@[simp] theorem State.putCodes_outLen (cs : List Code) : (s.putCodes cs).outLen = s.outLen := rfl
@[simp] theorem State.putCodes_nextCode (cs : List Code) : (s.putCodes cs).nextCode = s.nextCode := rfl
@[simp] theorem State.putCodes_resCode (cs : List Code) : (s.putCodes cs).resCode = s.resCode := rfl
@[simp] theorem State.putCodes_resLen (cs : List Code) : (s.putCodes cs).resLen = s.resLen := rfl
@[simp] theorem State.putCodes_errIndex (cs : List Code) : (s.putCodes cs).errIndex = s.errIndex := rfl
@[simp] theorem State.putCodes_ibuf (cs : List Code) : (s.putCodes cs).ibuf = s.ibuf := rfl
@[simp] theorem State.putCodes_cbuf (cs : List Code) : (s.putCodes cs).cbuf = Memory.setAll s.cbuf 0 cs := rfl
@[simp] theorem State.putCodes_obuf (cs : List Code) : (s.putCodes cs).obuf = s.obuf := rfl
@[simp] theorem State.putCodes_dict (cs : List Code) : (s.putCodes cs).dict = s.dict := rfl
@[simp] theorem State.putCodes_draw (cs : List Code) : (s.putCodes cs).draw = s.draw := rfl
@[simp] theorem State.putCodes_host (cs : List Code) : (s.putCodes cs).host = s.host := rfl
@[simp] theorem State.putCodes_lastRead (cs : List Code) : (s.putCodes cs).lastRead = s.lastRead := rfl

@[simp] theorem State.putCodes_ibufAt (cs : List Code) (i : Nat) : (s.putCodes cs).ibufAt i = s.ibufAt i := rfl
@[simp] theorem State.putCodes_obufAt (cs : List Code) (i : Nat) : (s.putCodes cs).obufAt i = s.obufAt i := rfl

@[simp] theorem State.dictInit_cfg (bk : Backend) : (s.dictInit bk).cfg = s.cfg := rfl
@[simp] theorem State.dictInit_rc (bk : Backend) : (s.dictInit bk).rc = s.rc := rfl
@[simp] theorem State.dictInit_busy (bk : Backend) : (s.dictInit bk).busy = s.busy := rfl
@[simp] theorem State.dictInit_ctrl (bk : Backend) : (s.dictInit bk).ctrl = s.ctrl := rfl
@[simp] theorem State.dictInit_inLen (bk : Backend) : (s.dictInit bk).inLen = s.inLen := rfl
@[simp] theorem State.dictInit_pos (bk : Backend) : (s.dictInit bk).pos = s.pos := rfl
@[simp] theorem State.dictInit_plen (bk : Backend) : (s.dictInit bk).plen = s.plen := rfl
@[simp] theorem State.dictInit_codeLen (bk : Backend) : (s.dictInit bk).codeLen = s.codeLen := rfl
@[simp] theorem State.dictInit_outLen (bk : Backend) : (s.dictInit bk).outLen = s.outLen := rfl
@[simp] theorem State.dictInit_nextCode (bk : Backend) : (s.dictInit bk).nextCode = 256 := rfl
@[simp] theorem State.dictInit_resCode (bk : Backend) : (s.dictInit bk).resCode = s.resCode := rfl
@[simp] theorem State.dictInit_resLen (bk : Backend) : (s.dictInit bk).resLen = s.resLen := rfl
@[simp] theorem State.dictInit_errIndex (bk : Backend) : (s.dictInit bk).errIndex = s.errIndex := rfl
@[simp] theorem State.dictInit_ibuf (bk : Backend) : (s.dictInit bk).ibuf = s.ibuf := rfl
@[simp] theorem State.dictInit_cbuf (bk : Backend) : (s.dictInit bk).cbuf = s.cbuf := rfl
@[simp] theorem State.dictInit_obuf (bk : Backend) : (s.dictInit bk).obuf = s.obuf := rfl
@[simp] theorem State.dictInit_dict (bk : Backend) : (s.dictInit bk).dict = Dict.seed bk := rfl
@[simp] theorem State.dictInit_draw (bk : Backend) : (s.dictInit bk).draw = s.draw := rfl
@[simp] theorem State.dictInit_host (bk : Backend) : (s.dictInit bk).host = s.host := rfl
@[simp] theorem State.dictInit_lastRead (bk : Backend) : (s.dictInit bk).lastRead = s.lastRead := rfl

@[simp] theorem State.dictInit_ibufAt (bk : Backend) (i : Nat) : (s.dictInit bk).ibufAt i = s.ibufAt i := rfl
@[simp] theorem State.dictInit_cbufAt (bk : Backend) (i : Nat) : (s.dictInit bk).cbufAt i = s.cbufAt i := rfl
@[simp] theorem State.dictInit_obufAt (bk : Backend) (i : Nat) : (s.dictInit bk).obufAt i = s.obufAt i := rfl

/-- OBUF after an output of `bs`: its first elements are `bs`, the others are unchanged (20_memory R66). -/
theorem State.putOutput_obufAt (bs : List Byte) (i : Nat) :
    (s.putOutput bs).obufAt i = if h : i < bs.length then bs[i] else s.obufAt i := by
  by_cases h : i < bs.length
  · simp [State.obufAt, Memory.get?_setAll, h]
  · simp [State.obufAt, Memory.get?_setAll, h]

/-- CBUF after an output of `cs`: its first elements are `cs`, the others are unchanged (20_memory R66). -/
theorem State.putCodes_cbufAt (cs : List Code) (i : Nat) :
    (s.putCodes cs).cbufAt i = if h : i < cs.length then cs[i] else s.cbufAt i := by
  by_cases h : i < cs.length
  · simp [State.cbufAt, Memory.get?_setAll, h]
  · simp [State.cbufAt, Memory.get?_setAll, h]

@[simp] theorem State.readIbuf_length (i n : Nat) : (s.readIbuf i n).length = n := by simp [State.readIbuf]

@[simp] theorem State.readCbuf_length (i n : Nat) : (s.readCbuf i n).length = n := by simp [State.readCbuf]

@[simp] theorem State.readObuf_length (i n : Nat) : (s.readObuf i n).length = n := by simp [State.readObuf]

@[simp] theorem State.readIbuf_getElem (i n k : Nat) (h : k < (s.readIbuf i n).length) :
    (s.readIbuf i n)[k] = s.ibufAt (i + k) := by simp [State.readIbuf]

@[simp] theorem State.readCbuf_getElem (i n k : Nat) (h : k < (s.readCbuf i n).length) :
    (s.readCbuf i n)[k] = s.cbufAt (i + k) := by simp [State.readCbuf]

@[simp] theorem State.readObuf_getElem (i n k : Nat) (h : k < (s.readObuf i n).length) :
    (s.readObuf i n)[k] = s.obufAt (i + k) := by simp [State.readObuf]

/-- A command that ends answers the state with STATUS.RC written, and nothing else (00_scope R12). -/
@[simp] theorem State.finish_eq_next (rc : RC) (s' : State) : s.finish rc = .next s' ↔ s.setRc rc = s' := by
  simp [State.finish]

/-- An error answers the state with STATUS.RC written, and nothing else (00_scope R12, 60_exceptions R236). -/
@[simp] theorem State.raise_eq_next (rc : RC) (s' : State) : s.raise rc = .next s' ↔ s.setRc rc = s' := by
  simp [State.raise]

theorem State.dbk_eq_trie_iff : s.dbk = .trie ↔ ∃ root, s.dict = .trie root := by
  unfold State.dbk
  cases s.dict <;> simp [Dict.backend]

theorem State.dbk_eq_patricia_iff : s.dbk = .patricia ↔ ∃ root, s.dict = .patricia root := by
  unfold State.dbk
  cases s.dict <;> simp [Dict.backend]

end Sys2Proof.Machine
end

