-- ==== Sys2Proof/Laws/Exec.lean ====
section
/-! SUPPORT. What each command can do, said once: a case of the rule for each way it ends (30_encoding R91, 60_exceptions R236, R238).
The frames of commands follow from these with the field lemmas of Sys2Proof/Laws/State.lean. -/

namespace Sys2Proof.Machine

/-- DREAD (40_dictionary_control R104). -/
theorem execDread_cases {c : Code} {s s' : State} (h : execDread c s = .next s') :
    (∃ p, c.toNat < s.nextCode.toNat ∧ s.dict.phrase? c = some p ∧ p.length ≤ s.cfg.obufSize ∧
      s' = (((s.setResCode c).setResLen (BitVec.ofNat 32 p.length)).putOutput p).setRc .ok) ∨
    (∃ p, c.toNat < s.nextCode.toNat ∧ s.dict.phrase? c = some p ∧ s.cfg.obufSize < p.length ∧
      s' = (((s.setResCode c).setResLen (BitVec.ofNat 32 p.length)).putOutput (p.take s.cfg.obufSize)).setRc .overflow) ∨
    ((s.nextCode.toNat ≤ c.toNat ∨ s.dict.phrase? c = none) ∧ s' = s.setRc .badOperand) := by
  unfold execDread State.codeAssigned at h
  split at h
  · rename_i hc
    have hc := of_decide_eq_true hc
    split at h
    · rename_i p hp
      simp only [State.deliverPhrase] at h
      split at h
      · exact .inr (.inl ⟨p, hc, hp, by assumption, ((State.raise_eq_next ..).1 h).symm⟩)
      · exact .inl ⟨p, hc, hp, by omega, ((State.finish_eq_next ..).1 h).symm⟩
    · exact .inr (.inr ⟨.inr (by assumption), ((State.raise_eq_next ..).1 h).symm⟩)
  · rename_i hc
    simp only [decide_eq_true_eq] at hc
    exact .inr (.inr ⟨.inl (by omega), ((State.raise_eq_next ..).1 h).symm⟩)

/-- T_CHILD (41_prefix_trie R121). -/
theorem execTChild_cases {r : Bool} {b : Byte} {node : Code} {s s' : State} (h : execTChild r b node s = .next s') :
    (s.dbk = .patricia ∧ s' = s.setRc .illegalCmd) ∨
    (s.dbk = .trie ∧ s.handle? r node = none ∧ s' = s.setRc .badOperand) ∨
    (∃ root at', s.dict = .trie root ∧ s.handle? r node = some at' ∧ root.childAt at' b = none ∧ s' = s.setRc .miss) ∨
    (∃ root at' c, s.dict = .trie root ∧ s.handle? r node = some at' ∧ root.childAt at' b = some c ∧
      s' = (s.setResCode c).setRc .hit) := by
  unfold execTChild at h
  split at h
  · rename_i root hd
    exact .inl ⟨by rw [State.dbk, hd]; rfl, ((State.raise_eq_next ..).1 h).symm⟩
  · rename_i root hd
    split at h
    · rename_i hh
      exact .inr (.inl ⟨by rw [State.dbk, hd]; rfl, hh, ((State.raise_eq_next ..).1 h).symm⟩)
    · rename_i at' hh
      split at h
      · rename_i c hc
        exact .inr (.inr (.inr ⟨root, at', c, hd, hh, hc, ((State.finish_eq_next ..).1 h).symm⟩))
      · rename_i hc
        exact .inr (.inr (.inl ⟨root, at', hd, hh, hc, ((State.finish_eq_next ..).1 h).symm⟩))

/-- T_INSERT (41_prefix_trie R122). -/
theorem execTInsert_cases {r : Bool} {b : Byte} {node : Code} {s s' : State} (h : execTInsert r b node s = .next s') :
    (s.dbk = .patricia ∧ s' = s.setRc .illegalCmd) ∨
    (s.dbk = .trie ∧ s.handle? r node = none ∧ s' = s.setRc .badOperand) ∨
    (∃ root at', s.dict = .trie root ∧ s.handle? r node = some at' ∧ s.cfg.cap ≤ s.nextCode.toNat ∧ s' = s.setRc .full) ∨
    (∃ root at' c, s.dict = .trie root ∧ s.handle? r node = some at' ∧ s.nextCode.toNat < s.cfg.cap ∧ root.childAt at' b = some c ∧
      s' = (s.setResCode c).setRc .duplicate) ∨
    (∃ root at', s.dict = .trie root ∧ s.handle? r node = some at' ∧ s.nextCode.toNat < s.cfg.cap ∧ root.childAt at' b = none ∧
      s' = ((s.setDict (.trie (root.attach at' b (nextAsCode s.nextCode))) (s.nextCode + 1)).setResCode
        (nextAsCode s.nextCode)).setRc .inserted) := by
  unfold execTInsert State.frozen at h
  split at h
  · rename_i root hd
    exact .inl ⟨by rw [State.dbk, hd]; rfl, ((State.raise_eq_next ..).1 h).symm⟩
  · rename_i root hd
    split at h
    · rename_i hh
      exact .inr (.inl ⟨by rw [State.dbk, hd]; rfl, hh, ((State.raise_eq_next ..).1 h).symm⟩)
    · rename_i at' hh
      split at h
      · rename_i hf
        exact .inr (.inr (.inl ⟨root, at', hd, hh, of_decide_eq_true hf, ((State.finish_eq_next ..).1 h).symm⟩))
      · rename_i hf
        simp only [decide_eq_true_eq, Nat.not_le] at hf
        split at h
        · rename_i c hc
          exact .inr (.inr (.inr (.inl ⟨root, at', c, hd, hh, hf, hc, ((State.finish_eq_next ..).1 h).symm⟩)))
        · rename_i hc
          exact .inr (.inr (.inr (.inr ⟨root, at', hd, hh, hf, hc, ((State.finish_eq_next ..).1 h).symm⟩)))

theorem State.phraseOk_eq_true (s : State) : s.phraseOk = true ↔
    s.inLen.toNat ≤ s.cfg.ibufSize ∧ s.plen.toNat ≠ 0 ∧ s.pos.toNat + s.plen.toNat ≤ s.inLen.toNat := by
  simp only [State.phraseOk, State.inLenOk, Bool.and_eq_true, decide_eq_true_eq, and_assoc]

theorem State.matchOk_eq_true (s : State) : s.matchOk = true ↔
    s.inLen.toNat ≤ s.cfg.ibufSize ∧ s.pos.toNat ≤ s.inLen.toNat := by
  simp only [State.matchOk, State.inLenOk, Bool.and_eq_true, decide_eq_true_eq]

/-- P_INSERT (42_patricia R144); a phrase in range is never empty. -/
theorem execPInsert_cases {s s' : State} (h : execPInsert s = .next s') :
    (s.dbk = .trie ∧ s' = s.setRc .illegalCmd) ∨
    (s.dbk = .patricia ∧ s.phraseOk = false ∧ s' = s.setRc .badOperand) ∨
    (∃ root, s.dict = .patricia root ∧ s.phraseOk = true ∧ s.cfg.cap ≤ s.nextCode.toNat ∧ s' = s.setRc .full) ∨
    (∃ root b rest root' c, s.dict = .patricia root ∧ s.phraseOk = true ∧ s.nextCode.toNat < s.cfg.cap ∧ s.phrase = b :: rest ∧
      root.insert (nextAsCode s.nextCode) b rest = (root', .duplicate c) ∧
      s' = ((s.setResLen s.plen).setResCode c).setRc .duplicate) ∨
    (∃ root b rest root', s.dict = .patricia root ∧ s.phraseOk = true ∧ s.nextCode.toNat < s.cfg.cap ∧ s.phrase = b :: rest ∧
      root.insert (nextAsCode s.nextCode) b rest = (root', .inserted) ∧
      s' = (((s.setResLen s.plen).setResCode (nextAsCode s.nextCode)).setDict (.patricia root') (s.nextCode + 1)).setRc .inserted) := by
  unfold execPInsert State.frozen at h
  split at h
  · rename_i root hd
    exact .inl ⟨by rw [State.dbk, hd]; rfl, ((State.raise_eq_next ..).1 h).symm⟩
  · rename_i root hd
    split at h
    · rename_i hok
      split at h
      · rename_i hf
        exact .inr (.inr (.inl ⟨root, hd, hok, of_decide_eq_true hf, ((State.finish_eq_next ..).1 h).symm⟩))
      · rename_i hf
        simp only [decide_eq_true_eq, Nat.not_le] at hf
        split at h
        · rename_i hp
          have hl : s.phrase.length = s.plen.toNat := by simp [State.phrase]
          rw [hp] at hl
          exact absurd hl.symm ((State.phraseOk_eq_true s).1 hok).2.1
        · rename_i b rest hp
          split at h
          · rename_i root' c hi
            exact .inr (.inr (.inr (.inl ⟨root, b, rest, root', c, hd, hok, hf, hp, hi, ((State.finish_eq_next ..).1 h).symm⟩)))
          · rename_i root' hi
            exact .inr (.inr (.inr (.inr ⟨root, b, rest, root', hd, hok, hf, hp, hi, ((State.finish_eq_next ..).1 h).symm⟩)))
    · rename_i hok
      exact .inr (.inl ⟨by rw [State.dbk, hd]; rfl, by simpa using hok, ((State.raise_eq_next ..).1 h).symm⟩)

/-- LPM (42_patricia R146). -/
theorem execLpm_cases {s s' : State} (h : execLpm s = .next s') :
    (s.matchOk = false ∧ s' = s.setRc .badOperand) ∨
    (s.matchOk = true ∧ s.dict.lpm s.matchBuf = none ∧ s' = (s.setResLen 0).setRc .nomatch) ∨
    (∃ c m, s.matchOk = true ∧ s.dict.lpm s.matchBuf = some (c, m) ∧
      s' = ((s.setResCode c).setResLen (BitVec.ofNat 32 m)).setRc .ok) := by
  unfold execLpm at h
  split at h
  · rename_i hok
    split at h
    · exact .inr (.inl ⟨hok, by assumption, ((State.finish_eq_next ..).1 h).symm⟩)
    · rename_i c m hm
      exact .inr (.inr ⟨c, m, hok, hm, ((State.finish_eq_next ..).1 h).symm⟩)
  · rename_i hok
    exact .inl ⟨by simpa using hok, ((State.raise_eq_next ..).1 h).symm⟩

/-- The encode loop of ENCODE, on the freshly seeded dictionary of the selected backend (43_encoder R174). -/
def State.encodeRun (s : State) : EncodeRun Dict := encodeInput s.cfg.cap s.input (Dict.seed s.ctrl) 256

/-- ENCODE (43_encoder R174). -/
theorem execEncode_cases {s s' : State} (h : execEncode s = .next s') :
    (s.cfg.ibufSize < s.inLen.toNat ∧ s' = s.setRc .badOperand) ∨
    (s.inLen.toNat ≤ s.cfg.ibufSize ∧
      s' = (((s.dictInit s.ctrl).setDict s.encodeRun.dict s.encodeRun.next).putCodes s.encodeRun.codes).setRc .ok) := by
  unfold execEncode State.inLenOk at h
  split at h
  · rename_i hok
    exact .inr ⟨of_decide_eq_true hok, ((State.finish_eq_next ..).1 h).symm⟩
  · rename_i hok
    simp only [decide_eq_true_eq, Nat.not_le] at hok
    exact .inl ⟨hok, ((State.raise_eq_next ..).1 h).symm⟩

/-- LZWDecode of DECODE (44_decoder R195). -/
def State.decodeRun (s : State) : DecodeRun := lzwDecode s.cfg.cap s.codes

/-- What DECODE writes to OBUF, and the index of a code whose bytes do not fit (44_decoder R195). -/
def State.decodePlaced (s : State) : Placed := place s.cfg.obufSize s.decodeRun.chunks 0 0

/-- DECODE (44_decoder R195). -/
theorem execDecode_cases {s s' : State} (h : execDecode s = .next s') :
    (s.cfg.cbufSize < s.codeLen.toNat ∧ s' = s.setRc .badOperand) ∨
    (∃ i, s.codeLen.toNat ≤ s.cfg.cbufSize ∧ s.decodePlaced.overflowAt = some i ∧
      s' = ((s.putOutput s.decodePlaced.bytes).setErrIndex (BitVec.ofNat 32 i)).setRc .overflow) ∨
    (∃ i, s.codeLen.toNat ≤ s.cfg.cbufSize ∧ s.decodePlaced.overflowAt = none ∧ s.decodeRun.badAt = some i ∧
      s' = ((s.putOutput s.decodePlaced.bytes).setErrIndex (BitVec.ofNat 32 i)).setRc .badCode) ∨
    (s.codeLen.toNat ≤ s.cfg.cbufSize ∧ s.decodePlaced.overflowAt = none ∧ s.decodeRun.badAt = none ∧
      s' = (s.putOutput s.decodePlaced.bytes).setRc .ok) := by
  unfold execDecode State.codeLenOk at h
  split at h
  · rename_i hok
    have hok := of_decide_eq_true hok
    simp only at h
    split at h
    · rename_i i ho
      exact .inr (.inl ⟨i, hok, ho, ((State.raise_eq_next ..).1 h).symm⟩)
    · rename_i i ho hb
      exact .inr (.inr (.inl ⟨i, hok, ho, hb, ((State.raise_eq_next ..).1 h).symm⟩))
    · rename_i ho hb
      exact .inr (.inr (.inr ⟨hok, ho, hb, ((State.finish_eq_next ..).1 h).symm⟩))
  · rename_i hok
    simp only [decide_eq_true_eq, Nat.not_le] at hok
    exact .inl ⟨hok, ((State.raise_eq_next ..).1 h).symm⟩

/-- PACK (45_stream R210). -/
theorem execPack_cases {s s' : State} (h : execPack s = .next s') :
    (s.cfg.cbufSize < s.codeLen.toNat ∧ s' = s.setRc .badOperand) ∨
    (s.codeLen.toNat ≤ s.cfg.cbufSize ∧ s' = (s.putOutput (packCodes s.codes)).setRc .ok) := by
  unfold execPack State.codeLenOk at h
  split at h
  · rename_i hok
    exact .inr ⟨of_decide_eq_true hok, ((State.finish_eq_next ..).1 h).symm⟩
  · rename_i hok
    simp only [decide_eq_true_eq, Nat.not_le] at hok
    exact .inl ⟨hok, ((State.raise_eq_next ..).1 h).symm⟩

/-- UNPACK (45_stream R211). -/
theorem execUnpack_cases {s s' : State} (h : execUnpack s = .next s') :
    (s.cfg.ibufSize < s.inLen.toNat ∧ s' = s.setRc .badOperand) ∨
    (s.inLen.toNat ≤ s.cfg.ibufSize ∧ s' = (s.putCodes (unpackBytes s.input)).setRc .ok) := by
  unfold execUnpack State.inLenOk at h
  split at h
  · rename_i hok
    exact .inr ⟨of_decide_eq_true hok, ((State.finish_eq_next ..).1 h).symm⟩
  · rename_i hok
    simp only [decide_eq_true_eq, Nat.not_le] at hok
    exact .inl ⟨hok, ((State.raise_eq_next ..).1 h).symm⟩

/-! ### The pieces of the outputs -/

@[simp] theorem packCodes_length (cs : List Code) : (packCodes cs).length = 2 * cs.length := by
  induction cs with
  | nil => rfl
  | cons c cs ih => simp only [packCodes, List.length_cons, ih]; omega

theorem packCodes_getElem? (cs : List Code) (i : Nat) :
    (packCodes cs)[2 * i]? = cs[i]?.map codeHigh ∧ (packCodes cs)[2 * i + 1]? = cs[i]?.map codeLow := by
  induction cs generalizing i with
  | nil => simp [packCodes]
  | cons c cs ih =>
    cases i with
    | zero => simp [packCodes]
    | succ i =>
      have := ih i
      rw [show 2 * (i + 1) = 2 * i + 1 + 1 by omega]
      simpa [packCodes] using this

@[simp] theorem unpackBytes_length (bs : List Byte) : (unpackBytes bs).length = bs.length / 2 := by
  induction bs using unpackBytes.induct with
  | case1 => rfl
  | case2 b => simp [unpackBytes]
  | case3 hi lo bs ih => simp only [unpackBytes, List.length_cons, ih]; omega

theorem unpackBytes_getElem? (bs : List Byte) (i : Nat) (h : 2 * i + 1 < bs.length) :
    (unpackBytes bs)[i]? = some (bs[2 * i] ++ bs[2 * i + 1]) := by
  induction bs using unpackBytes.induct generalizing i with
  | case1 => simp at h
  | case2 b => simp at h
  | case3 hi lo bs ih =>
    cases i with
    | zero => simp [unpackBytes]
    | succ i =>
      simp only [List.length_cons] at h
      have := ih i (by omega)
      simpa [unpackBytes, show 2 * (i + 1) = 2 * i + 1 + 1 by omega] using this

theorem code_pair_toNat (hi lo : Byte) : (hi ++ lo : BitVec 16).toNat = hi.toNat * 256 + lo.toNat := by
  have := lo.isLt
  rw [BitVec.toNat_append, ← Nat.shiftLeft_add_eq_or_of_lt this, Nat.shiftLeft_eq]

end Sys2Proof.Machine
end

