-- ==== Sys2Proof/Laws/Flags.lean ====
section
/-! SUPPORT. Laws of STATUS and CTRL: each bit of the word the host reads is the field the spec puts there (10_state R25, R27). -/

namespace Sys2Proof.Machine

/-- The bits of STATUS (10_state R25). -/
theorem State.getLsbD_status (s : State) (i : Nat) :
    s.status.getLsbD i =
      if i < 4 then s.rc.bits.getLsbD i
      else if i = 4 then s.fullFlag
      else if i = 5 then s.dbkFlag
      else if i = 6 then s.busy
      else false := by
  unfold State.status
  simp only [BitVec.getLsbD_append, BitVec.getLsbD_ofBool]
  by_cases h : i < 4
  · simp only [h, if_true]
  · by_cases h4 : i = 4
    · subst h4; simp
    · by_cases h5 : i = 5
      · subst h5; simp
      · by_cases h6 : i = 6
        · subst h6; simp
        · rw [show BitVec.getLsbD (0 : BitVec 25) (i - 4 - 1 - 1 - 1) = false from BitVec.getLsbD_zero]
          simp only [h, h4, h5, h6, if_false, show ¬ i - 4 < 1 by omega, show ¬ i - 4 - 1 < 1 by omega, show ¬ i - 4 - 1 - 1 < 1 by omega]

/-- Bit [0] of CTRL is BACKEND, the rest read 0 (10_state R27). -/
theorem State.getLsbD_ctrlWord (s : State) (i : Nat) : s.ctrlWord.getLsbD i = (decide (i = 0) && backendBit s.ctrl) := by
  unfold State.ctrlWord
  simp only [BitVec.getLsbD_append, BitVec.getLsbD_ofBool]
  by_cases h : i = 0
  · subst h; simp
  · simp [h, show ¬ i < 1 by omega]

/-- The stored backend is the bit of the value written (10_state R27). -/
theorem backendBit_backendOfBit (v : Word) : backendBit (backendOfBit v) = v.getLsbD 0 := by
  unfold backendOfBit
  cases v.getLsbD 0 <;> rfl

end Sys2Proof.Machine
end

