-- ==== Sys2Proof/Laws/PerInstr.lean ====
section
/-! SUPPORT. Laws made per command, one lemma per constructor of `Instr`. -/

namespace Sys2Proof.Laws.EncodedWordSelectsItsRow

/-- The word of a command matches its own row of the opcode map, with the row's opcode in OPC (30_encoding R80, R83). -/
def Statement (i : Instr) : Prop :=
  encode i &&& (opcodeRow i).mask = (opcodeRow i).word ∧ opcField (encode i) = (opcodeRow i).opc

theorem nop : Statement .nop := by unfold Statement; decide

theorem dictInit : Statement .dictInit := by unfold Statement; decide

theorem dread (node : Code) : Statement (.dread node) := by
  refine ⟨?_, opcField_assemble ..⟩
  apply BitVec.eq_of_getLsbD_eq
  intro i hi
  rw [BitVec.getLsbD_and, encode, getLsbD_assemble]
  interval_cases i <;> simp [opcodeRow]

theorem tChild (r : Bool) (byte : Byte) (node : Code) : Statement (.tChild r byte node) := by
  refine ⟨?_, opcField_assemble ..⟩
  apply BitVec.eq_of_getLsbD_eq
  intro i hi
  rw [BitVec.getLsbD_and, encode, getLsbD_assemble]
  interval_cases i <;> simp [opcodeRow]

theorem tInsert (r : Bool) (byte : Byte) (node : Code) : Statement (.tInsert r byte node) := by
  refine ⟨?_, opcField_assemble ..⟩
  apply BitVec.eq_of_getLsbD_eq
  intro i hi
  rw [BitVec.getLsbD_and, encode, getLsbD_assemble]
  interval_cases i <;> simp [opcodeRow]

theorem pInsert : Statement .pInsert := by unfold Statement; decide

theorem lpm : Statement .lpm := by unfold Statement; decide

theorem encode : Statement .encode := by unfold Statement; decide

theorem decode : Statement .decode := by unfold Statement; decide

theorem pack : Statement .pack := by unfold Statement; decide

theorem unpack : Statement .unpack := by unfold Statement; decide

end Sys2Proof.Laws.EncodedWordSelectsItsRow
end

