-- ==== Sys2Proof/Laws/Step.lean ====
section
/-! SUPPORT. Laws of a step: the host's next action is taken (00_scope R19), and what each action does on a block that is not busy. -/

namespace Sys2Proof.Machine

theorem step_of_nil {s : State} (h : s.host = []) : step s = .next s := by
  unfold step; rw [h]

theorem step_of_cons {s : State} {a : HostAction} {rest : List HostAction} (h : s.host = a :: rest) :
    step s = State.take { s with host := rest } a := by
  unfold step; rw [h]

theorem State.take_idle {s : State} (h : s.busy = false) (a : HostAction) : s.take a = s.perform a := by
  simp [State.take, h]

/-- On a block that is not busy the step performs the action. -/
theorem step_idle {s : State} {a : HostAction} {rest : List HostAction} (hb : s.busy = false) (h : s.host = a :: rest) :
    step s = State.perform { s with host := rest } a := by
  rw [step_of_cons h, State.take_idle (by exact hb)]

theorem regAccessDefined_offset (r : Reg) : regAccessDefined r.offset 32 = true := by cases r <;> rfl

theorem regAt_offset (r : Reg) : regAt r.offset = some r := by cases r <;> rfl

theorem Reg.offset_eq_cmd (r : Reg) : r.offset = Reg.offset .cmd ↔ r = .cmd := by cases r <;> decide

theorem readOffset_offset (s : State) (r : Reg) : s.readOffset r.offset = s.readReg r := by
  simp [State.readOffset, regAt_offset]

/-- The register accesses the block defines are the ones its static check admits (10_state R38). -/
theorem regAccessDefined_iff (offset width : Nat) :
    regAccessDefined offset width = true ↔ width = 32 ∧ offset % 4 = 0 ∧ offset ≤ 0x3C := by
  simp only [regAccessDefined, Bool.and_eq_true, decide_eq_true_eq]
  omega

theorem regAccess_of_defined {offset width : Nat} (h : regAccessDefined offset width = true) (go : Outcome) :
    regAccess offset width go = go := by simp [regAccess, h]

theorem bufAccess_of_lt {size i : Nat} (h : i < size) (go : Outcome) : bufAccess size i go = go := by simp [bufAccess, h]

theorem bufAccess_of_le {size i : Nat} (h : size ≤ i) (go : Outcome) : bufAccess size i go = .refused .bufferIndex := by
  simp [bufAccess, Nat.not_lt.2 h]

/-- What a step that answers a next state did: nothing, a read, a command word, a register write, a buffer write, or RESET. -/
theorem step_cases {s s' : State} (h : step s = .next s') :
    (s.host = [] ∧ s' = s) ∨
    ∃ a rest, s.host = a :: rest ∧
      ((∃ v, s' = { s with host := rest, lastRead := some v }) ∨
      (s.busy = false ∧
        ((∃ w, a = .regWrite (Reg.offset .cmd) 32 w ∧ State.issue { s with host := rest } w = .next s') ∨
        (∃ offset v, a = .regWrite offset 32 v ∧ offset ≠ Reg.offset .cmd ∧ s' = State.writeOffset { s with host := rest } offset v) ∨
        (∃ i b, a = .ibufWrite i b ∧ i < s.cfg.ibufSize ∧ s' = { s with host := rest, ibuf := Memory.set s.ibuf i b }) ∨
        (∃ i c, a = .cbufWrite i c ∧ i < s.cfg.cbufSize ∧ s' = { s with host := rest, cbuf := Memory.set s.cbuf i c }) ∨
        (∃ i b, a = .obufWrite i b ∧ i < s.cfg.obufSize ∧ s' = { s with host := rest, obuf := Memory.set s.obuf i b }) ∨
        (a = .reset ∧ s' = State.resetAction { s with host := rest })))) := by
  cases hh : s.host with
  | nil =>
    rw [step_of_nil hh] at h
    injection h with h
    exact .inl ⟨rfl, h.symm⟩
  | cons a rest =>
    refine .inr ⟨a, rest, rfl, ?_⟩
    rw [step_of_cons hh] at h
    have hp : (s.busy = false ∨ isStatusRead a = true) ∧ State.perform { s with host := rest } a = .next s' := by
      unfold State.take at h
      split at h
      · cases h
      · rename_i hc
        refine ⟨?_, h⟩
        cases hb : s.busy
        · exact .inl rfl
        · right
          simpa [hb] using hc
    clear h
    obtain ⟨hb, h⟩ := hp
    have idle : (isStatusRead a = false) → s.busy = false := fun hr => hb.resolve_right (by simp [hr])
    clear hb
    cases a <;> simp only [State.perform, regAccess, bufAccess, State.returned, isStatusRead, forall_const] at h idle
    case regRead =>
      split at h
      · injection h with h
        exact .inl ⟨_, h.symm⟩
      · cases h
    case regWrite offset width v =>
      split at h
      · rename_i hd
        obtain ⟨rfl, -, -⟩ := (regAccessDefined_iff _ _).1 hd
        split at h
        · rename_i ho
          subst ho
          exact .inr ⟨idle, .inl ⟨v, rfl, h⟩⟩
        · rename_i ho
          injection h with h
          exact .inr ⟨idle, .inr (.inl ⟨offset, v, rfl, ho, h.symm⟩)⟩
      · cases h
    case ibufRead =>
      split at h
      · injection h with h
        exact .inl ⟨_, h.symm⟩
      · cases h
    case cbufRead =>
      split at h
      · injection h with h
        exact .inl ⟨_, h.symm⟩
      · cases h
    case obufRead =>
      split at h
      · injection h with h
        exact .inl ⟨_, h.symm⟩
      · cases h
    case ibufWrite i b =>
      split at h
      · rename_i hi
        injection h with h
        exact .inr ⟨idle, .inr (.inr (.inl ⟨i, b, rfl, hi, h.symm⟩))⟩
      · cases h
    case cbufWrite i c =>
      split at h
      · rename_i hi
        injection h with h
        exact .inr ⟨idle, .inr (.inr (.inr (.inl ⟨i, c, rfl, hi, h.symm⟩)))⟩
      · cases h
    case obufWrite i b =>
      split at h
      · rename_i hi
        injection h with h
        exact .inr ⟨idle, .inr (.inr (.inr (.inr (.inl ⟨i, b, rfl, hi, h.symm⟩))))⟩
      · cases h
    case reset =>
      injection h with h
      exact .inr ⟨idle, .inr (.inr (.inr (.inr (.inr ⟨rfl, h.symm⟩))))⟩

/-- A word that decodes to a command is performed (30_encoding R91). -/
theorem State.issue_of_instr {s : State} {w : Word} {i : Instr} (h : decode w = .instr i) : s.issue w = exec i s := by
  simp [State.issue, h]

/-- A word that is no command sets STATUS.RC and nothing else (30_encoding R84, R85). -/
theorem State.issue_of_reject {s : State} {w : Word} {r : Reject} (h : decode w = .reject r) :
    s.issue w = .next (s.setRc .illegalCmd) := by
  simp [State.issue, h, State.raise]

end Sys2Proof.Machine
end

