-- ==== Sys2Proof/Tests/Slice0.lean ====
section
/-! SUPPORT. Tests of one step or one operation each, their expected values taken from spec/95_test_vectors.md (the vector is named in each
comment) or from the rule named, and a witness for every statement that has hypotheses. -/

namespace Sys2Proof.Tests

open Sys2Proof Sys2Proof.Machine

/-! ### Small states -/

/-- Configuration DEF of spec/95_test_vectors.md section 0. -/
def cfgDef : Config := ⟨65536, 64, 64, 128⟩

/-- Configuration SMALL of spec/95_test_vectors.md section 0. -/
def cfgSmall : Config := ⟨65536, 4, 4, 8⟩

/-- Configuration CAP256 of spec/95_test_vectors.md section 0. -/
def cfgCap256 : Config := ⟨256, 64, 64, 128⟩

/-- The block right after reset, in configuration DEF. -/
def s0 : State := State.resetOf cfgDef

/-- The block right after reset, its dictionary frozen from the start. -/
def sFrozen : State := State.resetOf cfgCap256

/-- "Seeded PATRICIA" of spec/95_test_vectors.md section 0, on a block of configuration `g`. -/
def seededPatricia (g : Config) : State := { State.resetOf g with ctrl := .patricia, dict := Dict.seed .patricia }

/-- The host has written `bs` to IBUF from index 0 on, and its length to IN_LEN. -/
def withInput (s : State) (bs : List Byte) : State :=
  { s with ibuf := Memory.setAll [] 0 bs, inLen := BitVec.ofNat 32 bs.length }

/-- The host has written `cs` to CBUF from index 0 on, and their number to CODE_LEN. -/
def withCodes (s : State) (cs : List Code) : State :=
  { s with cbuf := Memory.setAll [] 0 cs, codeLen := BitVec.ofNat 32 cs.length }

/-- The host's next action is `a`. -/
def asked (s : State) (a : HostAction) : State := { s with host := [a] }

/-- The state an outcome answers, seen through `f`. -/
def seen {α : Type} (o : Outcome) (f : State → α) : Option α := (nextOf o).map f

/-! ### WellFormed: each check refuses an ill-formed term -/

theorem test_wf_standard : Config.standard.wf = true := by decide
theorem test_wf_cap_low : Config.wf ⟨255, 64, 64, 128⟩ = false := by decide
theorem test_wf_cap_high : Config.wf ⟨65537, 64, 64, 128⟩ = false := by decide
theorem test_wf_ibuf_empty : Config.wf ⟨65536, 0, 64, 128⟩ = false := by decide
theorem test_wf_cbuf_small : Config.wf ⟨65536, 64, 63, 128⟩ = false := by decide
theorem test_wf_obuf_small : Config.wf ⟨65536, 64, 64, 127⟩ = false := by decide
theorem test_wf_obuf_large : Config.wf ⟨65536, 64, 64, 4294967296⟩ = false := by decide
theorem test_wf_read_width : HostAction.wf cfgDef (.regRead 0x04 16) = false := by decide
theorem test_wf_read_unaligned : HostAction.wf cfgDef (.regRead 0x05 32) = false := by decide
theorem test_wf_read_outside : HostAction.wf cfgDef (.regRead 0x40 32) = false := by decide
theorem test_wf_write_width : HostAction.wf cfgDef (.regWrite 0x08 8 0) = false := by decide
theorem test_wf_write_unaligned : HostAction.wf cfgDef (.regWrite 0x0A 32 0) = false := by decide
theorem test_wf_write_outside : HostAction.wf cfgDef (.regWrite 0x40 32 0) = false := by decide
theorem test_wf_ibuf_read : HostAction.wf cfgDef (.ibufRead 64) = false := by decide
theorem test_wf_ibuf_write : HostAction.wf cfgDef (.ibufWrite 64 0) = false := by decide
theorem test_wf_cbuf_read : HostAction.wf cfgDef (.cbufRead 64) = false := by decide
theorem test_wf_cbuf_write : HostAction.wf cfgDef (.cbufWrite 64 0) = false := by decide
theorem test_wf_obuf_read : HostAction.wf cfgDef (.obufRead 128) = false := by decide
theorem test_wf_obuf_write : HostAction.wf cfgDef (.obufWrite 128 0) = false := by decide

/-! ### Decoding: words written out field by field, OPC R BYTE NODE (30_encoding R80, R83) -/

theorem test_decode_nop : decode 0b0000000_0_00000000_0000000000000000 = .instr .nop := by decide
theorem test_decode_dict_init : decode 0b0000001_0_00000000_0000000000000000 = .instr .dictInit := by decide
theorem test_decode_dread : decode 0b0000010_0_00000000_1000000100000010 = .instr (.dread 0x8102) := by decide
theorem test_decode_t_child : decode 0b0010000_1_10000001_0000000000000000 = .instr (.tChild true 0x81 0) := by decide
theorem test_decode_t_insert : decode 0b0010001_0_10000001_1100000000000011 = .instr (.tInsert false 0x81 0xC003) := by decide
theorem test_decode_p_insert : decode 0b0100000_0_00000000_0000000000000000 = .instr .pInsert := by decide
theorem test_decode_lpm : decode 0b0100001_0_00000000_0000000000000000 = .instr .lpm := by decide
theorem test_decode_encode : decode 0b0110000_0_00000000_0000000000000000 = .instr .encode := by decide
theorem test_decode_decode : decode 0b0111000_0_00000000_0000000000000000 = .instr .decode := by decide
theorem test_decode_pack : decode 0b1000000_0_00000000_0000000000000000 = .instr .pack := by decide
theorem test_decode_unpack : decode 0b1000001_0_00000000_0000000000000000 = .instr .unpack := by decide

/-- V-CW1, V-CW2: reserved opcodes. V-CW3, V-CW4, V-CW5, V-CW6: must-be-zero bits. -/
theorem test_decode_rejects :
    decode 0x06000000 = .reject .reservedOpcode ∧ decode 0xFE000000 = .reject .reservedOpcode ∧
    decode 0x00000001 = .reject .mustBeZero ∧ decode 0x03000000 = .reject .mustBeZero ∧
    decode 0x04010041 = .reject .mustBeZero ∧ decode 0x60000001 = .reject .mustBeZero := by decide

theorem test_decode_table_word : decodeTableWord 32 0x04000102 = some (.dread 0x102) ∧ decodeTableWord 32 0x06000000 = none := by decide

/-! ### The window, RESET and the step -/

/-- V-R1, V-R2. -/
theorem test_reset_status : s0.status = 0x00000000 ∧ sFrozen.status = 0x00000010 ∧ s0.readReg .nextCode = 256 ∧
    s0.readReg .cap = 65536 := by decide

/-- V-R3. -/
theorem test_ctrl_write : seen (step (asked s0 (wr .ctrl 0xFFFFFFFF))) (fun t => (t.readReg .ctrl, t.status)) = some (1, 0) := by decide

/-- V-R4. -/
theorem test_read_only_write : seen (step (asked s0 (wr .nextCode 5))) (fun t => t.readReg .nextCode) = some 256 := by decide

/-- V-R6: every register, and the dictionary seeded again. -/
theorem test_reset_action :
    seen (step (asked { s0 with rc := .badCode, nextCode := 259, resCode := 9, outLen := 7, ctrl := .patricia } .reset))
      (fun t => (t.status, t.nextCode, t.resCode, t.outLen, t.ctrl)) = some (0, 256, 0, 0, .trie) := by decide

theorem test_step_runs_fetch_word :
    seen (step (State.reset.withFetchWord 32 0x21410000)) (fun t => (t.rc, t.resCode, t.host)) = some (.hit, 65, []) := by decide

/-! ### NOP, DICT_INIT, DREAD -/

/-- V-CW12. -/
theorem test_nop : seen (exec .nop { s0 with rc := .badCode, outLen := 7 }) (fun t => (t.rc, t.outLen)) = some (.ok, 7) := by decide

/-- V-C1. -/
theorem test_dict_init : seen (exec .dictInit { s0 with ctrl := .patricia, nextCode := 259 }) (fun t => (t.status, t.nextCode)) =
    some (0x20, 256) := by decide

/-- V-C2. -/
theorem test_dict_init_frozen : seen (exec .dictInit { sFrozen with ctrl := .patricia }) (fun t => t.status) = some 0x30 := by decide

/-- V-C5. -/
theorem test_dread_255 : seen (exec (.dread 255) s0) (fun t => (t.rc, t.readObuf 0 1, t.outLen, t.resCode, t.resLen)) =
    some (.ok, [0xFF], 1, 255, 1) := by decide +kernel

/-- V-C7. -/
theorem test_dread_unassigned : exec (.dread 256) s0 = .next { s0 with rc := .badOperand } := by rfl

/-! ### T_CHILD, T_INSERT -/

/-- V-T12. -/
theorem test_t_child_hit : seen (exec (.tChild true 0xFF 0) s0) (fun t => (t.rc, t.resCode)) = some (.hit, 255) := by decide +kernel

/-- V-T13: R = 0 and NODE = 0 name the node of code 0, not ROOT. -/
theorem test_t_child_node_zero : seen (exec (.tChild false 0 0) s0) (fun t => (t.rc, t.resCode)) = some (.miss, 0) := by decide

/-- V-T3. -/
theorem test_t_insert : seen (exec (.tInsert false 0x42 65) s0) (fun t => (t.rc, t.resCode, t.nextCode, t.dict.phrase? 256)) =
    some (.inserted, 256, 257, some [0x41, 0x42]) := by decide

/-- V-CW10, V-CW11: the operand check comes before FULL, FULL before DUPLICATE. -/
theorem test_t_insert_priority : seen (exec (.tInsert true 0x41 5) sFrozen) (fun t => t.status) = some 0x1A ∧
    seen (exec (.tInsert true 0x41 0) sFrozen) (fun t => t.status) = some 0x15 := by decide

/-! ### P_INSERT, LPM -/

/-- The root's edges with `ps` inserted under 256, 257 and so on, into the seeded PATRICIA dictionary. -/
def afterInserts : List Phrase → Nat → Radix → Radix
  | [], _, f => f
  | [] :: ps, n, f => afterInserts ps n f
  | (b :: p) :: ps, n, f => afterInserts ps (n + 1) (f.insert (BitVec.ofNat 16 n) b p).1

/-- V-P1 (42_patricia R150): after "AB", "ABC", "AX" the node of "A" has the edges "B" (to 256, which has "C" to 257) and "X" (to 258). -/
theorem test_p_insert_edges :
    ((afterInserts [[0x41, 0x42], [0x41, 0x42, 0x43], [0x41, 0x58]] 256 Radix.seed).edge? 0x41) =
      some ([], some 0x41, .edge 0x42 [] (some 256) (.edge 0x43 [] (some 257) .nil .nil) (.edge 0x58 [] (some 258) .nil .nil)) := by
  decide

/-- V-P2: "XYZ" then "XYW" split the edge "YZ" under the node of "X". -/
theorem test_p_insert_split :
    ((afterInserts [[0x58, 0x59, 0x5A], [0x58, 0x59, 0x57]] 256 Radix.seed).edge? 0x58) =
      some ([], some 0x58, .edge 0x59 [] none (.edge 0x5A [] (some 256) .nil (.edge 0x57 [] (some 257) .nil .nil)) .nil) := by
  decide

/-- V-P9: the first LPM finds nothing, the second is out of range. -/
theorem test_lpm_ends : seen (exec .lpm { withInput (seededPatricia cfgDef) [0x41, 0x42, 0x43, 0x44, 0x41, 0x58] with pos := 6, resLen := 3 })
      (fun t => (t.status, t.resLen)) = some (0x26, 0) ∧
    seen (exec .lpm { withInput (seededPatricia cfgDef) [0x41, 0x42, 0x43, 0x44, 0x41, 0x58] with pos := 7 }) (fun t => t.status) =
      some 0x2A := by decide

/-- V-P5: "QRS" matches the label "RST" only in part, so the match is the singleton "Q". -/
theorem test_lpm_partial_label :
    seen (exec .lpm { withInput (seededPatricia cfgDef) [0x51, 0x52, 0x53] with
        dict := .patricia (afterInserts [[0x51, 0x52, 0x53, 0x54]] 256 Radix.seed), nextCode := 257 })
      (fun t => (t.rc, t.resCode, t.resLen)) = some (.ok, 0x51, 1) := by decide

/-! ### ENCODE, DECODE -/

/-- V-E3 on the PATRICIA backend: "ABABABA". -/
theorem test_encode_patricia :
    seen (exec .encode { withInput s0 [0x41, 0x42, 0x41, 0x42, 0x41, 0x42, 0x41] with ctrl := .patricia })
      (fun t => (t.status, t.codeLen, t.readCbuf 0 4, t.nextCode)) = some (0x20, 4, [65, 66, 256, 258], 259) := by decide

/-- V-E14: the frozen dictionary, "AAAAAAA". -/
theorem test_encode_frozen :
    seen (exec .encode (withInput sFrozen [0x41, 0x41, 0x41, 0x41, 0x41, 0x41, 0x41]))
      (fun t => (t.status, t.codeLen, t.readCbuf 0 7, t.nextCode)) = some (0x10, 7, [65, 65, 65, 65, 65, 65, 65], 256) := by decide

/-- V-D12: two KwKwK codes in a row. -/
theorem test_decode_kwkwk : seen (exec .decode (withCodes s0 [65, 66, 256, 258, 259])) (fun t => (t.rc, t.outLen, t.readObuf 0 11)) =
    some (.ok, 11, [0x41, 0x42, 0x41, 0x42, 0x41, 0x42, 0x41, 0x41, 0x42, 0x41, 0x41]) := by decide +kernel

/-- V-D6 and V-D14: the first bad code, and the first code whose bytes do not fit. -/
theorem test_decode_errors :
    seen (exec .decode (withCodes s0 [65, 66, 258])) (fun t => (t.rc, t.outLen, t.errIndex, t.readObuf 0 2)) =
      some (.badCode, 2, 2, [0x41, 0x42]) ∧
    seen (exec .decode (withCodes (State.resetOf cfgSmall) [65, 256, 257, 258])) (fun t => (t.status, t.outLen, t.errIndex)) =
      some (0x08, 8, 3) := by decide +kernel

/-! ### PACK, UNPACK -/

/-- V-S1. -/
theorem test_pack : seen (exec .pack (withCodes s0 [0x0000, 0xFFFF, 0x1234])) (fun t => (t.rc, t.outLen, t.readObuf 0 6)) =
    some (.ok, 6, [0x00, 0x00, 0xFF, 0xFF, 0x12, 0x34]) := by decide

/-- 45_stream R213: the odd trailing byte is dropped. -/
theorem test_unpack_odd : seen (exec .unpack (withInput s0 [0x12, 0x34, 0x56])) (fun t => (t.rc, t.codeLen, t.readCbuf 0 1)) =
    some (.ok, 1, [0x1234]) := by decide

/-! ### A state and operands that meet the hypotheses of each statement, at the ends of the ranges they name -/

theorem inv_s0 : Machine.Inv s0 := ⟨⟨by decide, by decide, by decide, rfl, rfl, rfl, rfl⟩, dictInv_seed .trie⟩

theorem inv_frozen : Machine.Inv sFrozen := ⟨⟨by decide, by decide, by decide, rfl, rfl, rfl, rfl⟩, dictInv_seed .trie⟩

theorem inv_patricia : Machine.Inv (seededPatricia cfgDef) := ⟨⟨by decide, by decide, by decide, rfl, rfl, rfl, rfl⟩, dictInv_seed .patricia⟩

/-- "AB" is in IBUF, on seeded PATRICIA. -/
def sAB : State := { withInput (seededPatricia cfgDef) [0x41, 0x42] with plen := 2 }

/-- The same on a block whose dictionary is frozen from the start. -/
def sABFrozen : State := { withInput (seededPatricia cfgCap256) [0x41, 0x42] with plen := 2 }

theorem inv_sAB : Machine.Inv sAB := ⟨⟨by decide, by decide, by decide, rfl, by decide, rfl, rfl⟩, dictInv_seed .patricia⟩

theorem inv_sABFrozen : Machine.Inv sABFrozen := ⟨⟨by decide, by decide, by decide, rfl, by decide, rfl, rfl⟩, dictInv_seed .patricia⟩

/-- No phrase of two bytes is in a seeded dictionary. -/
theorem seed_has_no_pair (bk : Backend) (x y : Byte) (c : Code) : (Dict.seed bk).phrase? c ≠ some [x, y] := by
  rw [Dict.phrase?_seed]
  split <;> simp

theorem seed_has_singleton (bk : Backend) (b : Byte) : (Dict.seed bk).phrase? b.code = some [b] := by
  cases bk
  · exact trieInv_seed.phrase_singleton b
  · exact patriciaInv_seed.phrase_singleton b

theorem witness_EncodeOfDecodeIsTheWord : decode 0x21FF0000 = .instr (.tChild true 0xFF 0) ∧ decode 0x0400FFFF = .instr (.dread 0xFFFF) := by
  decide

theorem witness_WordSelectsAtMostOneRow :
    (∃ row ∈ opcodeMap, (0x23FFFFFF : Word) &&& row.mask = row.word) ∧ decode 0x0400FFFF = .instr (.dread 0xFFFF) ∧
    ∀ row ∈ opcodeMap, row.opc ≠ (0xFE000000 : Word).extractLsb' 25 7 := by decide

/-- `w` carries an opcode outside the table. -/
abbrev Reserved (w : Word) : Prop := ∀ row ∈ opcodeMap, row.opc ≠ w.extractLsb' 25 7

theorem witness_ReservedOpcodeOnlySetsIllegalCmd :
    Reserved 0x06000000 ∧ Reserved 0x1E000000 ∧ Reserved 0x24000000 ∧ Reserved 0x3E000000 ∧ Reserved 0x44000000 ∧ Reserved 0x5E000000 ∧
    Reserved 0x62000000 ∧ Reserved 0x6E000000 ∧ Reserved 0x72000000 ∧ Reserved 0x7E000000 ∧ Reserved 0x84000000 ∧ Reserved 0xFE000000 :=
  ⟨by decide, by decide, by decide, by decide, by decide, by decide, by decide, by decide, by decide, by decide, by decide, by decide⟩

theorem witness_MustBeZeroBitsOnlySetIllegalCmd :
    ((0x00000001 : Word).extractLsb' 25 7 = 0x00 ∧ (0x00000001 : Word).extractLsb' 0 25 ≠ 0) ∧
    ((0x83000000 : Word).extractLsb' 25 7 = 0x41 ∧ (0x83000000 : Word).extractLsb' 0 25 ≠ 0) ∧
    ((0x04010041 : Word).extractLsb' 25 7 = 0x02 ∧ (0x04010041 : Word).extractLsb' 16 9 ≠ 0) ∧
    ((0x05000041 : Word).extractLsb' 25 7 = 0x02 ∧ (0x05000041 : Word).extractLsb' 16 9 ≠ 0) ∧
    ((0x20000000 : Word).extractLsb' 25 7 = 0x10 ∧ (0x23FFFFFF : Word).extractLsb' 25 7 = 0x11 ∧ s0.dbk = .trie) ∧
    ((0x21410001 : Word).extractLsb' 25 7 = 0x10 ∧ (0x21410001 : Word).getLsbD 24 = true ∧ (0x21410001 : Word).extractLsb' 0 16 ≠ 0) ∧
    ((0x22410100 : Word).extractLsb' 25 7 = 0x11 ∧ (0x22410100 : Word).getLsbD 24 = false ∧
      s0.nextCode.toNat ≤ ((0x22410100 : Word).extractLsb' 0 16).toNat) :=
  ⟨by decide, by decide, by decide, by decide, ⟨by decide, by decide, rfl⟩, by decide, by decide, by decide, by decide⟩

theorem witness_StepPerformsTheDecodedCommand :
    ((asked s0 (cmd .lpm)).busy = false ∧ (asked s0 (cmd .lpm)).host = [.regWrite 0x00 32 0x42000000] ∧ decode 0x42000000 = .instr .lpm) ∧
    ((asked s0 (cmdWord 1)).busy = false ∧ (asked s0 (cmdWord 1)).host = [.regWrite 0x00 32 1] ∧ decode 1 = .reject .mustBeZero) := by
  decide

theorem witness_EngineWaitsForTheHost : s0.host = [] := rfl

theorem witness_HostActionWhileBusyFaults :
    (∃ s : State, s.busy = true ∧ s.host = [.regRead 0x00 32] ∧ HostAction.regRead 0x00 32 ≠ .regRead 0x04 32) ∧
    (∃ s : State, s.busy = true ∧ s.host = [.regRead 0x04 32]) :=
  ⟨⟨{ asked s0 (.regRead 0x00 32) with busy := true }, rfl, rfl, by decide⟩, ⟨{ asked s0 (.regRead 0x04 32) with busy := true }, rfl, rfl⟩⟩

theorem witness_UndefinedHostActionsAreRefused :
    (asked s0 (.regRead 0x40 32)).busy = false ∧ (asked s0 (.regRead 0x40 32)).host = [.regRead 0x40 32] ∧
    HostAction.wf s0.cfg (.regRead 0x40 32) = false ∧ HostAction.wf s0.cfg (.regRead 0x3C 32) = true ∧
    HostAction.wf s0.cfg (.obufRead 127) = true ∧ HostAction.wf s0.cfg (.obufRead 128) = false := by decide

theorem witness_HostReadsChangeNothing :
    (asked s0 (.regRead 0x00 32)).host = [.regRead 0x00 32] ∧ (asked s0 (.regRead 0x2C 32)).host = [.regRead 0x2C 32] ∧
    (asked s0 (rd .cap)).busy = false ∧ (asked s0 (rd .cap)).host = [.regRead (Reg.offset .cap) 32] ∧
    (asked s0 (.regRead 0x3C 32)).host = [.regRead 0x3C 32] ∧ 63 < s0.cfg.ibufSize ∧ (asked s0 (.ibufRead 63)).host = [.ibufRead 63] ∧
    63 < s0.cfg.cbufSize ∧ (asked s0 (.cbufRead 63)).host = [.cbufRead 63] ∧
    127 < s0.cfg.obufSize ∧ (asked s0 (.obufRead 127)).host = [.obufRead 127] := by decide

theorem witness_RegisterWritesStoreOrAreIgnored :
    (asked s0 (wr .ctrl 3)).busy = false ∧ Reg.ctrl ≠ .cmd ∧ (asked s0 (wr .ctrl 3)).host = [.regWrite (Reg.offset .ctrl) 32 3] ∧
    (asked s0 (.regWrite 0x34 32 9)).host = [.regWrite 0x34 32 9] ∧
    (asked s0 (.regWrite 0x08 32 3)).host = [.regWrite 0x08 32 3] ∧ (asked s0 (.regWrite 0x0C 32 3)).host = [.regWrite 0x0C 32 3] ∧
    (asked s0 (.regWrite 0x10 32 3)).host = [.regWrite 0x10 32 3] ∧ (asked s0 (.regWrite 0x14 32 3)).host = [.regWrite 0x14 32 3] ∧
    (asked s0 (.regWrite 0x18 32 3)).host = [.regWrite 0x18 32 3] := by decide

theorem witness_StatusReadsItsFields : s0.rc = .ok ∧ (s0.setRc .badOperand).rc = .badOperand := ⟨rfl, rfl⟩

theorem witness_BufferAccessesMoveOneElement :
    (asked s0 (.ibufWrite 63 5)).busy = false ∧ 63 < s0.cfg.ibufSize ∧ 63 < s0.cfg.cbufSize ∧ 127 < s0.cfg.obufSize ∧
    s0.cfg.ibufSize ≤ 64 ∧ s0.cfg.cbufSize ≤ 64 ∧ s0.cfg.obufSize ≤ 128 ∧
    (asked s0 (.ibufWrite 63 5)).host = [.ibufWrite 63 5] ∧ (asked s0 (.cbufRead 64)).host = [.cbufRead 64] := by decide

theorem witness_ResetActionReseedsTheBlock : (asked s0 .reset).busy = false ∧ (asked s0 .reset).host = [.reset] := by decide

theorem witness_ResetWindowReadsItsTable : Config.wf ⟨256, 1, 1, 2⟩ = true ∧ Config.wf ⟨65536, 64, 64, 4294967295⟩ = true := by decide

theorem witness_ResetMeetsTheInvariant : Config.wf ⟨257, 1, 1, 2⟩ = true ∧ Config.standard.wf = true := by decide

theorem witness_StepKeepsTheWindowInvariant : ∃ s s', WindowInv s ∧ step s = .next s' ∧ s'.host ≠ s.host :=
  ⟨asked s0 (cmd .nop), _, ⟨by decide, by decide, by decide, rfl, rfl, rfl, rfl⟩, rfl, by decide⟩

theorem witness_StepKeepsTheInvariant : ∃ s s', Machine.Inv s ∧ step s = .next s' ∧ s'.dict ≠ s.dict := by
  refine ⟨asked { s0 with ctrl := .patricia } (cmd .dictInit), _, ⟨⟨by decide, by decide, by decide, rfl, rfl, rfl, rfl⟩, dictInv_seed .trie⟩, rfl, ?_⟩
  intro h
  cases h

theorem witness_AssignedCodesHavePhrases : ∃ s, Machine.Inv s := ⟨s0, inv_s0⟩

theorem witness_PhrasesAreInjectiveAndSeeded : ∃ s, Machine.Inv s ∧ s.dict.phrase? 255 = some [255] := ⟨s0, inv_s0, seed_has_singleton .trie 255⟩

theorem witness_StoredPhrasesKeepTheirCodes :
    ∃ i s s', Machine.Inv s ∧ i ≠ Instr.dictInit ∧ i ≠ .encode ∧ exec i s = .next s' ∧ s.dict.phrase? 0 = some [0] :=
  ⟨.nop, s0, _, inv_s0, by decide, by decide, rfl, seed_has_singleton .trie 0⟩

/-- The seeded byte trie with "AB" under the code 256 (V-T3). -/
def abRoot : Forest := Forest.seed.addUnder (Byte.code 65) 0x42 (nextAsCode 256)

theorem inv_abRoot : TrieInv abRoot (256 + 1) := by
  refine trieInv_seed.addUnder (by decide) (by decide) ?_
  rw [Forest.childAt_node Forest.wf_seed (trieInv_seed.phrase_singleton 65), Option.map_eq_none_iff]
  cases hf : Forest.seed.find? ([65] ++ [0x42]) with
  | none => rfl
  | some x => exact absurd ((Forest.phrase?_eq_some_iff Forest.wf_seed x.1 _).2 ⟨x.2, hf⟩) (seed_has_no_pair .trie _ _ _)

theorem abRoot_phrase : abRoot.phrase? 256 = some [65, 0x42] :=
  (trieInv_seed.phrase_addUnder (by decide) (trieInv_seed.phrase_singleton 65) 0x42 256).trans (if_pos (by decide))

/-- T_INSERT 65, 0x42 on a block right after reset (V-T3). -/
def sTrieAB : State := { s0 with dict := .trie abRoot, nextCode := 256 + 1 }

theorem inv_sTrieAB : Machine.Inv sTrieAB := ⟨⟨by decide, by decide, by decide, rfl, rfl, rfl, rfl⟩, inv_abRoot⟩

theorem sTrieAB_phrase : sTrieAB.dict.phrase? 256 = some [65, 0x42] := abRoot_phrase

theorem witness_TrieDictionaryIsPrefixClosed :
    ∃ s root c p, Machine.Inv s ∧ s.dict = .trie root ∧ s.dict.phrase? c = some p ∧ 2 ≤ p.length :=
  ⟨sTrieAB, _, 256, _, inv_sTrieAB, rfl, sTrieAB_phrase, by decide⟩

theorem witness_NextCodeMovesOnlyByInsertion :
    (∃ s', exec (.tInsert false 0x42 65) s0 = .next s' ∧ s'.rc = .inserted) ∧ (∃ s', exec .lpm s0 = .next s' ∧ s'.rc ≠ .inserted) ∧
    ∃ s', exec .dictInit s0 = .next s' :=
  ⟨⟨_, rfl, by decide⟩, ⟨_, rfl, by decide⟩, ⟨_, rfl⟩⟩

theorem witness_BackendTagChangesOnlyByInitEncodeReset :
    (∃ s s', s.busy = false ∧ step s = .next s' ∧ issues s .dictInit ∧ s'.dbk ≠ s.dbk) ∧
    (∃ s s', s.busy = false ∧ step s = .next s' ∧ issues s .encode ∧ s'.rc = .ok) ∧
    ∃ s s', s.busy = false ∧ step s = .next s' ∧ s.host = [.reset] :=
  ⟨⟨asked { s0 with ctrl := .patricia } (cmd .dictInit), _, rfl, rfl, ⟨_, _, rfl, by decide⟩, by decide⟩,
    ⟨asked s0 (cmd .encode), _, rfl, rfl, ⟨_, _, rfl, by decide⟩, rfl⟩, ⟨asked s0 .reset, _, rfl, rfl, rfl⟩⟩

theorem witness_CommandsLeaveTheirOperands : ∃ s', exec .encode s0 = .next s' := ⟨_, rfl⟩

theorem witness_ResultsHaveOnlyTheirWriters :
    (∃ s', exec .dictInit { s0 with ctrl := .patricia } = .next s' ∧ s'.dict ≠ s0.dict) ∧
    (∃ s', exec .unpack (withInput s0 [1, 2]) = .next s' ∧ s'.codeLen ≠ (withInput s0 [1, 2]).codeLen) ∧
    (∃ s', exec .pack (withCodes s0 [1]) = .next s' ∧ s'.outLen ≠ (withCodes s0 [1]).outLen) ∧
    (∃ s', exec (.tChild true 0x41 0) s0 = .next s' ∧ s'.resCode ≠ s0.resCode) ∧
    (∃ s', exec (.dread 1) s0 = .next s' ∧ s'.resLen ≠ s0.resLen) :=
  ⟨⟨_, rfl, fun h => by cases h⟩, ⟨_, rfl, by decide⟩, ⟨_, rfl, by decide⟩, ⟨_, rfl, by decide +kernel⟩, ⟨_, rfl, by decide +kernel⟩⟩

theorem witness_HostActionsLeaveTheDictionary :
    ∃ s s' a rest, s.host = a :: rest ∧ isCmdWrite a = false ∧ a ≠ .reset ∧ step s = .next s' :=
  ⟨asked s0 (.ibufWrite 63 1), _, _, _, rfl, rfl, by decide, rfl⟩

theorem witness_IllegalCmdExactlyWhenListed :
    (∃ s', s0.issue 0x40000000 = .next s' ∧ s'.rc = .illegalCmd) ∧ decode 0x40000000 = .instr .pInsert ∧
    backendMismatch .pInsert s0.dbk = true ∧ backendMismatch (.tChild true 0 0) (seededPatricia cfgDef).dbk = true ∧
    decode 0x06000000 = .reject .reservedOpcode :=
  ⟨⟨_, rfl, rfl⟩, by decide, by decide, by decide, by decide⟩

theorem witness_BadOperandExactlyWhenListed :
    (Machine.Inv s0 ∧ backendMismatch (.dread 256) s0.dbk = false ∧ operandOutOfRange (.dread 256) s0 ∧ ¬operandOutOfRange (.dread 255) s0) ∧
    (Machine.Inv sAB ∧ backendMismatch .pInsert sAB.dbk = false ∧ ¬operandOutOfRange .pInsert sAB) ∧
    ∃ s', exec (.dread 256) s0 = .next s' ∧ s'.rc = .badOperand :=
  ⟨⟨inv_s0, rfl, by unfold operandOutOfRange; decide, by unfold operandOutOfRange; decide⟩,
    ⟨inv_sAB, rfl, by unfold operandOutOfRange; decide⟩, ⟨_, rfl, rfl⟩⟩

theorem witness_BackendIsNotObservable :
    ∃ (i : Instr) (s t : State), Machine.Inv s ∧ Machine.Inv t ∧ (∀ bk, backendMismatch i bk = false) ∧
      t = { s with dict := t.dict, ctrl := t.ctrl } ∧ (∀ c, t.dict.phrase? c = s.dict.phrase? c) ∧ t.dict ≠ s.dict := by
  refine ⟨.lpm, s0, seededPatricia cfgDef, inv_s0, inv_patricia, fun bk => by cases bk <;> rfl, rfl, fun c => ?_, fun h => by cases h⟩
  exact (Dict.phrase?_seed .patricia c).trans (Dict.phrase?_seed .trie c).symm

theorem witness_NopClearsTheStatus :
    (0x00000000 : Word).extractLsb' 25 7 = 0x00 ∧ (0x01FFFFFF : Word).extractLsb' 25 7 = 0x00 ∧ (0x01FFFFFF : Word).extractLsb' 0 25 ≠ 0 :=
  ⟨by decide, by decide, by decide⟩

theorem witness_DictInitSeedsTheSelectedBackend :
    (0x02000001 : Word).extractLsb' 25 7 = 0x01 ∧ (0x02000001 : Word).extractLsb' 0 25 ≠ 0 := ⟨by decide, by decide⟩

theorem witness_DreadDeliversThePhrase :
    ∃ (s : State) (c : Code) (p : Phrase), s.cfg.wf = true ∧ c.toNat < s.nextCode.toNat ∧ s.dict.phrase? c = some p ∧ p.length ≤ s.cfg.obufSize :=
  ⟨sTrieAB, 256, _, by decide, by decide, sTrieAB_phrase, by decide⟩

theorem witness_DreadOverflowTruncates :
    ∃ (s : State) (c : Code) (p : Phrase), s.cfg.wf = true ∧ c.toNat < s.nextCode.toNat ∧ s.dict.phrase? c = some p ∧ s.cfg.obufSize < p.length := by
  refine ⟨{ State.resetOf ⟨65536, 1, 1, 2⟩ with dict := .patricia (.edge 0x41 [0x42, 0x43] (some 256) .nil Radix.seed), nextCode := 257 },
    256, [0x41, 0x42, 0x43], by decide, by decide, by decide, by decide⟩

theorem witness_TChildFindsTheExtendedPhrase :
    (∃ (s : State) (r : Bool) (b : Byte) (node : Code) (q : Phrase) (c : Code), Machine.Inv s ∧ s.dbk = .trie ∧
      s.handlePhrase? r node = some q ∧ s.dict.phrase? c = some (q ++ [b])) ∧
    (∃ (s : State) (r : Bool) (b : Byte) (node : Code) (q : Phrase), Machine.Inv s ∧ s.dbk = .trie ∧
      s.handlePhrase? r node = some q ∧ ∀ c, s.dict.phrase? c ≠ some (q ++ [b])) :=
  ⟨⟨sTrieAB, false, 0x42, 65, [65], 256, inv_sTrieAB, rfl, by decide, sTrieAB_phrase⟩,
    ⟨s0, false, 0xFF, 255, [255], inv_s0, rfl, by decide +kernel, seed_has_no_pair .trie _ _⟩⟩

theorem witness_TChildStops :
    (seededPatricia cfgDef).dbk = .patricia ∧ s0.dbk = .trie ∧ ((true = true) ∧ (1 : Code) ≠ 0) ∧ s0.nextCode.toNat ≤ (256 : Code).toNat ∧
    Machine.Inv s0 := ⟨rfl, rfl, by decide, by decide, inv_s0⟩

theorem witness_TInsertAssignsTheNextCode :
    ∃ (s : State) (r : Bool) (b : Byte) (node : Code) (q : Phrase), Machine.Inv s ∧ s.dbk = .trie ∧ s.handlePhrase? r node = some q ∧
      s.nextCode.toNat < s.cfg.cap ∧ ∀ c, s.dict.phrase? c ≠ some (q ++ [b]) :=
  ⟨s0, false, 0xFF, 255, [255], inv_s0, rfl, by decide +kernel, by decide, seed_has_no_pair .trie _ _⟩

theorem witness_TInsertFullBeforeDuplicate :
    (Machine.Inv sFrozen ∧ sFrozen.dbk = .trie ∧ sFrozen.handlePhrase? true 0 = some [] ∧ sFrozen.cfg.cap ≤ sFrozen.nextCode.toNat) ∧
    (Machine.Inv s0 ∧ s0.handlePhrase? true 0 = some [] ∧ s0.nextCode.toNat < s0.cfg.cap ∧ s0.dict.phrase? 65 = some ([] ++ [65])) :=
  ⟨⟨inv_frozen, rfl, rfl, by decide⟩, ⟨inv_s0, rfl, by decide, seed_has_singleton .trie 65⟩⟩

theorem witness_PInsertAssignsTheNextCode :
    Machine.Inv sAB ∧ sAB.dbk = .patricia ∧ sAB.inLen.toNat ≤ sAB.cfg.ibufSize ∧ sAB.plen.toNat ≠ 0 ∧
    sAB.pos.toNat + sAB.plen.toNat ≤ sAB.inLen.toNat ∧ sAB.nextCode.toNat < sAB.cfg.cap ∧
    ∀ c, sAB.dict.phrase? c ≠ some (sAB.readIbuf sAB.pos.toNat sAB.plen.toNat) :=
  ⟨inv_sAB, rfl, by decide, by decide, by decide, by decide, fun c => seed_has_no_pair .patricia 0x41 0x42 c⟩

theorem witness_PInsertFullBeforeDuplicate :
    (Machine.Inv sABFrozen ∧ sABFrozen.dbk = .patricia ∧ sABFrozen.inLen.toNat ≤ sABFrozen.cfg.ibufSize ∧ sABFrozen.plen.toNat ≠ 0 ∧
      sABFrozen.pos.toNat + sABFrozen.plen.toNat ≤ sABFrozen.inLen.toNat ∧ sABFrozen.cfg.cap ≤ sABFrozen.nextCode.toNat) ∧
    (∃ s : State, Machine.Inv s ∧ s.dbk = .patricia ∧ s.inLen.toNat ≤ s.cfg.ibufSize ∧ s.plen.toNat ≠ 0 ∧
      s.pos.toNat + s.plen.toNat ≤ s.inLen.toNat ∧ s.nextCode.toNat < s.cfg.cap ∧
      s.dict.phrase? 0x42 = some (s.readIbuf s.pos.toNat s.plen.toNat)) :=
  ⟨⟨inv_sABFrozen, rfl, by decide, by decide, by decide, by decide⟩,
    ⟨{ sAB with pos := 1, plen := 1 }, ⟨⟨by decide, by decide, by decide, rfl, by decide, rfl, rfl⟩, dictInv_seed .patricia⟩, rfl, by decide,
      by decide, by decide, by decide, seed_has_singleton .patricia 0x42⟩⟩

theorem witness_LpmAnswersTheLongestPrefix :
    Machine.Inv sAB ∧ sAB.inLen.toNat ≤ sAB.cfg.ibufSize ∧ sAB.pos.toNat < sAB.inLen.toNat := ⟨inv_sAB, by decide, by decide⟩

theorem witness_LpmOfNothingIsNomatch :
    s0.inLen.toNat ≤ s0.cfg.ibufSize ∧ s0.pos = s0.inLen ∧ ({ sAB with pos := 2 } : State).pos = sAB.inLen := by decide

/-- An input that fills IBUF. -/
def sFull : State := { s0 with inLen := 64 }

theorem witness_EncodeCompletes : s0.cfg.wf = true ∧ s0.inLen.toNat ≤ s0.cfg.ibufSize ∧ sFull.inLen.toNat ≤ sFull.cfg.ibufSize := by decide

theorem witness_EncodeComputesLzwEncode : ∃ s', sAB.cfg.wf = true ∧ sAB.inLen.toNat ≤ sAB.cfg.ibufSize ∧ exec .encode sAB = .next s' :=
  ⟨_, by decide, by decide, rfl⟩

theorem witness_EncodeOutputSize :
    ∃ s', sFull.cfg.wf = true ∧ 1 ≤ sFull.inLen.toNat ∧ sFull.inLen.toNat ≤ sFull.cfg.ibufSize ∧ exec .encode sFull = .next s' :=
  ⟨_, by decide, by decide, by decide, rfl⟩

theorem witness_EncodeDependsOnlyOnItsInput :
    ∃ s' t', s0.cfg.wf = true ∧ (seededPatricia cfgDef).cfg.wf = true ∧ s0.cfg.cap = (seededPatricia cfgDef).cfg.cap ∧
      s0.inLen = (seededPatricia cfgDef).inLen ∧ (∀ i, i < s0.inLen.toNat → s0.ibufAt i = (seededPatricia cfgDef).ibufAt i) ∧
      exec .encode s0 = .next s' ∧ exec .encode (seededPatricia cfgDef) = .next t' :=
  ⟨_, _, by decide, by decide, rfl, rfl, fun _ _ => rfl, rfl, rfl⟩

theorem witness_EncodeNeverSplitsAnEdge :
    ∃ s' t', s0.cfg.wf = true ∧ s0.inLen.toNat ≤ s0.cfg.ibufSize ∧ exec .encode { s0 with ctrl := .patricia } = .next s' ∧
      exec .encode { s0 with ctrl := .trie } = .next t' :=
  ⟨_, _, by decide, by decide, rfl, rfl⟩

/-- "A", then the KwKwK code 256 (V-D4), in CBUF. -/
def sKwKwK : State := withCodes s0 [65, 256]

theorem witness_DecodeWritesTheDecoding :
    ∃ chunks, sKwKwK.cfg.wf = true ∧ sKwKwK.codeLen.toNat ≤ sKwKwK.cfg.cbufSize ∧
      lzwDecode sKwKwK.cfg.cap (sKwKwK.readCbuf 0 sKwKwK.codeLen.toNat) = ⟨chunks, none⟩ ∧ chunks.flatten.length ≤ sKwKwK.cfg.obufSize :=
  ⟨[[65], [65, 65]], by decide, by decide, by decide +kernel, by decide⟩

theorem witness_DecodeStopsAtABadCode :
    (∃ chunks, (withCodes s0 [65, 300]).cfg.wf = true ∧
      lzwDecode 65536 ((withCodes s0 [65, 300]).readCbuf 0 2) = ⟨chunks, some 1⟩ ∧ chunks.flatten.length ≤ 128) ∧
    lzwDecode 65536 ((withCodes s0 [256]).readCbuf 0 1) = ⟨[], some 0⟩ :=
  ⟨⟨[[65]], by decide, by decide +kernel, by decide⟩, by decide +kernel⟩

/-- 65, 256, 257, 258 on configuration SMALL (V-D14). -/
def sOver : State := withCodes (State.resetOf cfgSmall) [65, 256, 257, 258]

theorem witness_DecodeOverflowTruncates :
    ∃ run : DecodeRun, sOver.cfg.wf = true ∧ sOver.codeLen.toNat ≤ sOver.cfg.cbufSize ∧
      lzwDecode sOver.cfg.cap (sOver.readCbuf 0 sOver.codeLen.toNat) = run ∧ 3 < run.chunks.length ∧
      (run.chunks.take 3).flatten.length ≤ sOver.cfg.obufSize ∧ sOver.cfg.obufSize < (run.chunks.take 4).flatten.length :=
  ⟨⟨[[65], [65, 65], [65, 65, 65], [65, 65, 65, 65]], none⟩, by decide, by decide, by decide +kernel, by decide, by decide, by decide⟩

/-- 44_decoder R194 and V-D10b: under CAP = 257 the table freezes at 257 entries, so 257 is bad at index 2 after 65, 256 and at index 3 after
65, 256, 65. -/
theorem test_decode_frozen : lzwDecode 257 [65, 256, 257] = ⟨[[65], [65, 65]], some 2⟩ ∧
    lzwDecode 257 [65, 256, 65, 257] = ⟨[[65], [65, 65], [65]], some 3⟩ := by decide +kernel

theorem witness_CodesResolveOrAreBad :
    (resolveCode 256 singletons [65] 65535 = none ∧ resolveCode 257 singletons [65] 256 = some [65, 65]) ∧
    (singletons.length < 257 ∧ 256 ≤ singletons.length) ∧ ((255 : Code).toNat < 256 ∧ (lzwDecode 257 [65, 256]).badAt = none) ∧
    ((0 : Code).toNat < [[(65 : Byte)]].length ∧ (1 : Code).toNat = [[(65 : Byte)]].length ∧ [[(65 : Byte)]].length < 2) ∧
    ((1 : Code).toNat = [[(65 : Byte)]].length ∧ 1 ≤ [[(65 : Byte)]].length) ∧ [[(65 : Byte)]].length < (2 : Code).toNat ∧
    256 ≤ (256 : Code).toNat := by decide +kernel

theorem witness_DecodeOfEncodeIsTheInput :
    ∃ s1, sFull.cfg.wf = true ∧ sFull.inLen.toNat ≤ sFull.cfg.ibufSize ∧ exec .encode sFull = .next s1 := ⟨_, by decide, by decide, rfl⟩

theorem witness_PackWritesBigEndianPairs :
    (0x80000001 : Word).extractLsb' 25 7 = 0x40 ∧ (0x80000001 : Word).extractLsb' 0 25 ≠ 0 ∧
    s0.cfg.cbufSize < ({ s0 with codeLen := 65 } : State).codeLen.toNat ∧ s0.cfg.wf = true ∧ ({ s0 with codeLen := 64 } : State).codeLen.toNat ≤ s0.cfg.cbufSize := by decide

theorem witness_UnpackReadsBigEndianPairs :
    (0x82000001 : Word).extractLsb' 25 7 = 0x41 ∧ (0x82000001 : Word).extractLsb' 0 25 ≠ 0 ∧
    s0.cfg.ibufSize < ({ s0 with inLen := 65 } : State).inLen.toNat ∧ sFull.cfg.wf = true ∧ sFull.inLen.toNat ≤ sFull.cfg.ibufSize := by decide

theorem witness_UnpackOfPackIsTheCodes :
    ∃ s1 t t1 : State, (withCodes s0 [0x1234]).cfg.wf = true ∧ t.cfg.wf = true ∧
      (withCodes s0 [0x1234]).codeLen.toNat ≤ (withCodes s0 [0x1234]).cfg.cbufSize ∧ exec .pack (withCodes s0 [0x1234]) = .next s1 ∧
      t.inLen.toNat = 2 * (withCodes s0 [0x1234]).codeLen.toNat ∧ t.inLen.toNat ≤ t.cfg.ibufSize ∧
      (∀ j, j < 2 * (withCodes s0 [0x1234]).codeLen.toNat → t.ibufAt j = s1.obufAt j) ∧ exec .unpack t = .next t1 :=
  ⟨_, withInput s0 [0x12, 0x34], _, by decide, by decide, by decide, rfl, by decide, by decide, by decide, rfl⟩

end Sys2Proof.Tests
end

/-! ## The invariant of the registers and the buffers (scope: R7, R19) -/

namespace Sys2Proof

/-- CAP lies in its range (00_scope R6). -/
theorem Config.cap_bounds {g : Config} (h : g.wf = true) : 256 ≤ g.cap ∧ g.cap ≤ 65536 := by
  simp only [Config.wf, Config.capInRange, Bool.and_eq_true, decide_eq_true_eq] at h
  exact h.1

/-- CBUF has a code for each byte of IBUF, and OBUF two bytes for each code of CBUF (00_scope R7). -/
theorem Config.size_bounds {g : Config} (h : g.wf = true) : g.ibufSize ≤ g.cbufSize ∧ 2 * g.cbufSize ≤ g.obufSize := by
  simp only [Config.wf, Config.sizesInRange, Bool.and_eq_true, decide_eq_true_eq] at h
  obtain ⟨-, ⟨⟨-, hic⟩, hco⟩, -⟩ := h
  exact ⟨hic, hco⟩

end Sys2Proof

namespace Sys2Proof.Machine

/-! ### What each update of the state needs to keep the invariant -/

section
variable {s s' : State} (h : WindowInv s)
include h

theorem WindowInv.setRc (rc : RC) : WindowInv (s.setRc rc) := { h with }

theorem WindowInv.setResCode (c : Code) : WindowInv (s.setResCode c) := { h with }

theorem WindowInv.setResLen (n : Word) : WindowInv (s.setResLen n) := { h with }

theorem WindowInv.setErrIndex (i : Word) : WindowInv (s.setErrIndex i) := { h with }

theorem WindowInv.setHost (rest : List HostAction) : WindowInv { s with host := rest } := { h with }

theorem WindowInv.setLastRead (v : Option Word) : WindowInv { s with lastRead := v } := { h with }

theorem WindowInv.setDict (d : Dict) {n : BitVec 17} (hlow : 256 ≤ n.toNat) (hhigh : n.toNat ≤ s.cfg.cap) :
    WindowInv (s.setDict d n) := { h with nextLow := hlow, nextHigh := hhigh }

/-- An insertion into a dictionary that is not frozen (10_state R32). -/
theorem WindowInv.setDict_succ (d : Dict) (hroom : s.nextCode.toNat < s.cfg.cap) : WindowInv (s.setDict d (s.nextCode + 1)) := by
  have hcap := (Config.cap_bounds h.cfg).2
  have hlow := h.nextLow
  have hsucc : (s.nextCode + 1).toNat = s.nextCode.toNat + 1 := next_succ_toNat (by omega)
  exact h.setDict d (by omega) (by omega)

theorem WindowInv.dictInit (bk : Backend) : WindowInv (s.dictInit bk) :=
  h.setDict _ (Nat.le_refl 256) (Config.cap_bounds h.cfg).1

theorem WindowInv.putOutput {bs : List Byte} (hfit : bs.length ≤ s.cfg.obufSize) : WindowInv (s.putOutput bs) :=
  { h with obuf := Memory.wf_setAll bs ((Nat.zero_add _).trans_le hfit) h.obuf }

theorem WindowInv.putCodes {cs : List Code} (hfit : cs.length ≤ s.cfg.cbufSize) : WindowInv (s.putCodes cs) :=
  { h with cbuf := Memory.wf_setAll cs ((Nat.zero_add _).trans_le hfit) h.cbuf }

theorem WindowInv.setIbuf {i : Nat} (b : Byte) (hi : i < s.cfg.ibufSize) : WindowInv { s with ibuf := Memory.set s.ibuf i b } :=
  { h with ibuf := Memory.wf_set b hi h.ibuf }

theorem WindowInv.setCbuf {i : Nat} (c : Code) (hi : i < s.cfg.cbufSize) : WindowInv { s with cbuf := Memory.set s.cbuf i c } :=
  { h with cbuf := Memory.wf_set c hi h.cbuf }

theorem WindowInv.setObuf {i : Nat} (b : Byte) (hi : i < s.cfg.obufSize) : WindowInv { s with obuf := Memory.set s.obuf i b } :=
  { h with obuf := Memory.wf_set b hi h.obuf }

theorem WindowInv.writeReg (v : Word) (r : Reg) : WindowInv (s.writeReg v r) := by
  cases r <;> exact { h with }

theorem WindowInv.writeOffset (offset : Nat) (v : Word) : WindowInv (s.writeOffset offset v) := by
  unfold State.writeOffset
  split
  · exact h.writeReg v _
  · exact h

end

theorem windowInv_resetOf {g : Config} (hg : g.wf = true) : WindowInv (State.resetOf g) where
  cfg := hg
  nextLow := Nat.le_refl 256
  nextHigh := (Config.cap_bounds hg).1
  idle := rfl
  ibuf := rfl
  cbuf := rfl
  obuf := rfl

theorem WindowInv.resetAction {s : State} (h : WindowInv s) : WindowInv s.resetAction :=
  { windowInv_resetOf h.cfg with }

/-! ### The commands -/

section
variable {s s' : State} (h : WindowInv s)
include h

theorem WindowInv.execDread {c : Code} (he : execDread c s = .next s') : WindowInv s' := by
  obtain ⟨p, -, -, hfit, rfl⟩ | ⟨p, -, -, -, rfl⟩ | ⟨-, rfl⟩ := execDread_cases he
  · exact (((h.setResCode c).setResLen _).putOutput hfit).setRc .ok
  · exact (((h.setResCode c).setResLen _).putOutput (List.length_take_le _ p)).setRc .overflow
  · exact h.setRc .badOperand

theorem WindowInv.execTChild {r : Bool} {b : Byte} {node : Code} (he : execTChild r b node s = .next s') : WindowInv s' := by
  obtain ⟨-, rfl⟩ | ⟨-, -, rfl⟩ | ⟨_, _, -, -, -, rfl⟩ | ⟨_, _, c, -, -, -, rfl⟩ := execTChild_cases he
  · exact h.setRc .illegalCmd
  · exact h.setRc .badOperand
  · exact h.setRc .miss
  · exact (h.setResCode c).setRc .hit

theorem WindowInv.execTInsert {r : Bool} {b : Byte} {node : Code} (he : execTInsert r b node s = .next s') : WindowInv s' := by
  obtain ⟨-, rfl⟩ | ⟨-, -, rfl⟩ | ⟨_, _, -, -, -, rfl⟩ | ⟨_, _, c, -, -, -, -, rfl⟩ | ⟨_, _, -, -, hroom, -, rfl⟩ :=
    execTInsert_cases he
  · exact h.setRc .illegalCmd
  · exact h.setRc .badOperand
  · exact h.setRc .full
  · exact (h.setResCode c).setRc .duplicate
  · exact ((h.setDict_succ _ hroom).setResCode _).setRc .inserted

theorem WindowInv.execPInsert (he : execPInsert s = .next s') : WindowInv s' := by
  obtain ⟨-, rfl⟩ | ⟨-, -, rfl⟩ | ⟨_, -, -, -, rfl⟩ | ⟨_, _, _, _, c, -, -, -, -, -, rfl⟩ | ⟨_, _, _, _, -, -, hroom, -, -, rfl⟩ :=
    execPInsert_cases he
  · exact h.setRc .illegalCmd
  · exact h.setRc .badOperand
  · exact h.setRc .full
  · exact ((h.setResLen s.plen).setResCode c).setRc .duplicate
  · exact (((h.setResLen s.plen).setResCode _).setDict_succ _ hroom).setRc .inserted

theorem WindowInv.execLpm (he : execLpm s = .next s') : WindowInv s' := by
  obtain ⟨-, rfl⟩ | ⟨-, -, rfl⟩ | ⟨c, m, -, -, rfl⟩ := execLpm_cases he
  · exact h.setRc .badOperand
  · exact (h.setResLen 0).setRc .nomatch
  · exact ((h.setResCode c).setResLen _).setRc .ok

/-- ENCODE emits at most one code per byte of input, and its NEXT_CODE stays in range (43_encoder R175). -/
theorem WindowInv.encodeRun_bounds :
    s.encodeRun.codes.length ≤ s.inLen.toNat ∧ 256 ≤ s.encodeRun.next.toNat ∧ s.encodeRun.next.toNat ≤ s.cfg.cap := by
  obtain ⟨hlow, hhigh⟩ := Config.cap_bounds h.cfg
  obtain ⟨hlen, hnextLow, hnextHigh, -, -⟩ := encTrie_size hhigh hlow s.input
  rw [State.encodeRun, encodeInput_seed hhigh]
  exact ⟨by simpa [State.input] using hlen, hnextLow, hnextHigh⟩

theorem WindowInv.execEncode (he : execEncode s = .next s') : WindowInv s' := by
  obtain ⟨-, rfl⟩ | ⟨hin, rfl⟩ := execEncode_cases he
  · exact h.setRc .badOperand
  · obtain ⟨hlen, hlow, hhigh⟩ := h.encodeRun_bounds
    have hfit : s.encodeRun.codes.length ≤ s.cfg.cbufSize := (hlen.trans hin).trans (Config.size_bounds h.cfg).1
    exact (((h.dictInit s.ctrl).setDict _ hlow hhigh).putCodes hfit).setRc .ok

theorem WindowInv.execDecode (he : execDecode s = .next s') : WindowInv s' := by
  have hfit : s.decodePlaced.bytes.length ≤ s.cfg.obufSize := by
    rw [← Nat.zero_add s.decodePlaced.bytes.length]
    exact place_length_le s.decodeRun.chunks 0 0 (Nat.zero_le s.cfg.obufSize)
  obtain ⟨-, rfl⟩ | ⟨_, -, -, rfl⟩ | ⟨_, -, -, -, rfl⟩ | ⟨-, -, -, rfl⟩ := execDecode_cases he
  · exact h.setRc .badOperand
  · exact ((h.putOutput hfit).setErrIndex _).setRc .overflow
  · exact ((h.putOutput hfit).setErrIndex _).setRc .badCode
  · exact (h.putOutput hfit).setRc .ok

theorem WindowInv.execPack (he : execPack s = .next s') : WindowInv s' := by
  obtain ⟨-, rfl⟩ | ⟨hlen, rfl⟩ := execPack_cases he
  · exact h.setRc .badOperand
  · have hsize := (Config.size_bounds h.cfg).2
    have hfit : (packCodes s.codes).length ≤ s.cfg.obufSize := by
      rw [packCodes_length, State.codes, State.readCbuf_length]
      omega
    exact (h.putOutput hfit).setRc .ok

theorem WindowInv.execUnpack (he : execUnpack s = .next s') : WindowInv s' := by
  obtain ⟨-, rfl⟩ | ⟨hlen, rfl⟩ := execUnpack_cases he
  · exact h.setRc .badOperand
  · have hsize := (Config.size_bounds h.cfg).1
    have hfit : (unpackBytes s.input).length ≤ s.cfg.cbufSize := by
      rw [unpackBytes_length, State.input, State.readIbuf_length]
      omega
    exact (h.putCodes hfit).setRc .ok

/-- Every command keeps the invariant of the registers and the buffers (10_state R32, 00_scope R7). -/
theorem WindowInv.exec {i : Instr} (he : exec i s = .next s') : WindowInv s' := by
  cases i with
  | nop =>
    obtain rfl := (State.finish_eq_next ..).1 he
    exact h.setRc .ok
  | dictInit =>
    obtain rfl := (State.finish_eq_next ..).1 he
    exact (h.dictInit s.ctrl).setRc .ok
  | dread node => exact h.execDread he
  | tChild r byte node => exact h.execTChild he
  | tInsert r byte node => exact h.execTInsert he
  | pInsert => exact h.execPInsert he
  | lpm => exact h.execLpm he
  | encode => exact h.execEncode he
  | decode => exact h.execDecode he
  | pack => exact h.execPack he
  | unpack => exact h.execUnpack he

/-- A word written to CMD keeps it, be it a command or not (30_encoding R91). -/
theorem WindowInv.issue {w : Word} (he : s.issue w = .next s') : WindowInv s' := by
  cases hd : decode w with
  | instr i => exact h.exec (State.issue_of_instr hd ▸ he)
  | reject r =>
    rw [State.issue_of_reject hd] at he
    injection he with he
    exact he ▸ h.setRc .illegalCmd

/-- Every host action keeps it (00_scope R19). -/
theorem WindowInv.step (hs : step s = .next s') : WindowInv s' := by
  obtain ⟨-, rfl⟩ | ⟨a, rest, -, ⟨v, rfl⟩ | ⟨-, hact⟩⟩ := step_cases hs
  · exact h
  · exact (h.setHost rest).setLastRead (some v)
  · have hrest := h.setHost rest
    obtain ⟨w, -, hw⟩ | ⟨offset, v, -, -, rfl⟩ | ⟨i, b, -, hi, rfl⟩ | ⟨i, c, -, hi, rfl⟩ | ⟨i, b, -, hi, rfl⟩ | ⟨-, rfl⟩ := hact
    · exact hrest.issue hw
    · exact hrest.writeOffset offset v
    · exact hrest.setIbuf b hi
    · exact hrest.setCbuf c hi
    · exact hrest.setObuf b hi
    · exact hrest.resetAction

end

/-! ### The obligations -/

/-- Settles O18, from the step lemma of the invariant. -/
theorem stepKeepsTheWindowInvariant : Obligations.StepKeepsTheWindowInvariant :=
  fun _ _ h hs => h.step hs

/-- Settles O8: the step of a host with no action left. -/
theorem engineWaitsForTheHost : Obligations.EngineWaitsForTheHost :=
  fun _ hnil => step_of_nil hnil

end Sys2Proof.Machine

/-! ## What a command does to the dictionary (10_state R32, R40 to R42, R49) -/

namespace Sys2Proof.Machine

/-- What command `i`, taking `s` to `s'`, does to the dictionary and NEXT_CODE, with what its result code tells of it: one case for each
way a rule of the spec can treat them. -/
inductive DictEffect (i : Instr) (s s' : State) : Prop where
  /-- The dictionary stays: a command that reads it only, or an error or signal without insertion (40_dictionary_control R106). -/
  | kept (hinit : i ≠ .dictInit) (henc : i = .encode → s'.rc ≠ .ok) (hrc : s'.rc ≠ .inserted)
      (hdict : s'.dict = s.dict) (hnext : s'.nextCode = s.nextCode)
  /-- DICT_INIT (40_dictionary_control R102). -/
  | seeded (hi : i = .dictInit) (hrc : s'.rc ≠ .inserted) (hdict : s'.dict = Dict.seed s.ctrl) (hnext : s'.nextCode = 256)
  /-- ENCODE in range (43_encoder R174). -/
  | encoded (hi : i = .encode) (hrc : s'.rc ≠ .inserted) (hdict : s'.dict = s.encodeRun.dict) (hnext : s'.nextCode = s.encodeRun.next)
  /-- T_INSERT that returns INSERTED (41_prefix_trie R122). -/
  | attached {r : Bool} {b : Byte} {node : Code} {root : Forest} {parent : Handle} (hi : i = .tInsert r b node)
      (hroot : s.dict = .trie root) (hparent : s.handle? r node = some parent) (habsent : root.childAt parent b = none)
      (hroom : s.nextCode.toNat < s.cfg.cap) (hrc : s'.rc = .inserted)
      (hdict : s'.dict = .trie (root.attach parent b (nextAsCode s.nextCode))) (hnext : s'.nextCode = s.nextCode + 1)
  /-- P_INSERT that returns INSERTED (42_patricia R144). -/
  | inserted {root : Radix} {b : Byte} {rest : List Byte} (hi : i = .pInsert) (hroot : s.dict = .patricia root)
      (hres : (root.insert (nextAsCode s.nextCode) b rest).2 = .inserted) (hroom : s.nextCode.toNat < s.cfg.cap)
      (hrc : s'.rc = .inserted) (hdict : s'.dict = .patricia (root.insert (nextAsCode s.nextCode) b rest).1)
      (hnext : s'.nextCode = s.nextCode + 1)

/-- Every command treats the dictionary in one of these ways (20_memory R65). -/
theorem exec_dictEffect {i : Instr} {s s' : State} (he : exec i s = .next s') : DictEffect i s s' := by
  cases i with
  | nop =>
    obtain rfl := (State.finish_eq_next ..).1 he
    exact .kept nofun nofun nofun rfl rfl
  | dictInit =>
    obtain rfl := (State.finish_eq_next ..).1 he
    exact .seeded rfl nofun rfl rfl
  | dread node =>
    obtain ⟨_, -, -, -, rfl⟩ | ⟨_, -, -, -, rfl⟩ | ⟨-, rfl⟩ := execDread_cases he <;> exact .kept nofun nofun nofun rfl rfl
  | tChild r byte node =>
    obtain ⟨-, rfl⟩ | ⟨-, -, rfl⟩ | ⟨_, _, -, -, -, rfl⟩ | ⟨_, _, _, -, -, -, rfl⟩ := execTChild_cases he <;>
      exact .kept nofun nofun nofun rfl rfl
  | tInsert r byte node =>
    obtain ⟨-, rfl⟩ | ⟨-, -, rfl⟩ | ⟨_, _, -, -, -, rfl⟩ | ⟨_, _, _, -, -, -, -, rfl⟩ |
      ⟨root, parent, hroot, hparent, hroom, habsent, rfl⟩ := execTInsert_cases he
    case inr.inr.inr.inr => exact .attached rfl hroot hparent habsent hroom rfl rfl rfl
    all_goals exact .kept nofun nofun nofun rfl rfl
  | pInsert =>
    obtain ⟨-, rfl⟩ | ⟨-, -, rfl⟩ | ⟨_, -, -, -, rfl⟩ | ⟨_, _, _, _, _, -, -, -, -, -, rfl⟩ |
      ⟨root, b, rest, root', hroot, -, hroom, -, hins, rfl⟩ := execPInsert_cases he
    case inr.inr.inr.inr => exact .inserted (b := b) (rest := rest) rfl hroot (by rw [hins]) hroom rfl (by rw [hins]; rfl) rfl
    all_goals exact .kept nofun nofun nofun rfl rfl
  | lpm =>
    obtain ⟨-, rfl⟩ | ⟨-, -, rfl⟩ | ⟨_, _, -, -, rfl⟩ := execLpm_cases he <;> exact .kept nofun nofun nofun rfl rfl
  | encode =>
    obtain ⟨-, rfl⟩ | ⟨-, rfl⟩ := execEncode_cases he
    · exact .kept nofun nofun nofun rfl rfl
    · exact .encoded rfl nofun rfl rfl
  | decode =>
    obtain ⟨-, rfl⟩ | ⟨_, -, -, rfl⟩ | ⟨_, -, -, -, rfl⟩ | ⟨-, -, -, rfl⟩ := execDecode_cases he <;>
      exact .kept nofun nofun nofun rfl rfl
  | pack => obtain ⟨-, rfl⟩ | ⟨-, rfl⟩ := execPack_cases he <;> exact .kept nofun nofun nofun rfl rfl
  | unpack => obtain ⟨-, rfl⟩ | ⟨-, rfl⟩ := execUnpack_cases he <;> exact .kept nofun nofun nofun rfl rfl

/-! ### The insertions -/

/-- What a handle of format T names (41_prefix_trie R120). -/
theorem State.handle?_eq_some {s : State} {r : Bool} {node : Code} {a : Handle} (h : s.handle? r node = some a) :
    a = .root ∨ (a = .node node ∧ node.toNat < s.nextCode.toNat) := by
  unfold State.handle? at h
  split at h
  · split at h
    · injection h with h
      exact .inl h.symm
    · cases h
  · split at h
    · injection h with h
      exact .inr ⟨h.symm, by assumption⟩
    · cases h

/-- A handle under which a child is absent is not ROOT, whose children are always there (41_prefix_trie R124). -/
theorem TrieInv.parent_of_absent {root : Forest} {s : State} (h : TrieInv root s.nextCode) {r : Bool} {b : Byte} {node : Code}
    {parent : Handle} (hparent : s.handle? r node = some parent) (habsent : root.childAt parent b = none) :
    parent = .node node ∧ node.toNat < s.nextCode.toNat := by
  rcases State.handle?_eq_some hparent with rfl | hnode
  · rw [h.childAt_root] at habsent
    cases habsent
  · exact hnode

/-- ENCODE leaves a dictionary that satisfies its invariant (43_encoder R174). -/
theorem dictInv_encodeRun {s : State} (hcap : s.cfg.cap ≤ 65536) : DictInv s.encodeRun.dict s.encodeRun.next := by
  rw [State.encodeRun, encodeInput_seed hcap]
  exact dictInv_ofForest (trieInv_encTrie hcap _) _

/-- A word written to CMD is a command that is performed, or sets STATUS.RC and nothing else (30_encoding R91). -/
theorem State.issue_cases {s s' : State} {w : Word} (h : s.issue w = .next s') :
    (∃ i, decode w = .instr i ∧ exec i s = .next s') ∨ s' = s.setRc .illegalCmd := by
  cases hd : decode w with
  | instr i => exact .inl ⟨i, rfl, State.issue_of_instr hd ▸ h⟩
  | reject r =>
    rw [State.issue_of_reject hd] at h
    injection h with h
    exact .inr h.symm

section
variable {s s' : State} (h : Inv s)
include h

theorem Inv.cap_le : s.cfg.cap ≤ 65536 := (Config.cap_bounds h.window.cfg).2

/-- Every command keeps the invariant of the dictionary (10_state R43, R46). -/
theorem Inv.exec_dict {i : Instr} (he : exec i s = .next s') : DictInv s'.dict s'.nextCode := by
  have hcap := h.cap_le
  have hdict := h.dict
  cases exec_dictEffect he with
  | kept _ _ _ hd hn => rwa [hd, hn]
  | seeded _ _ hd hn => rw [hd, hn]; exact dictInv_seed s.ctrl
  | encoded _ _ hd hn => rw [hd, hn]; exact dictInv_encodeRun hcap
  | attached _ hroot hparent habsent hroom _ hd hn =>
    rw [hroot] at hdict
    obtain ⟨rfl, hassigned⟩ := TrieInv.parent_of_absent hdict hparent habsent
    rw [hd, hn]
    exact TrieInv.addUnder hdict (by omega) hassigned habsent
  | inserted _ hroot hres hroom _ hd hn =>
    rw [hroot] at hdict
    rw [hd, hn]
    exact PatriciaInv.insert hdict (by omega) hres

/-- A word written to CMD keeps it, be it a command or not (30_encoding R91). -/
theorem Inv.issue_dict {w : Word} (he : s.issue w = .next s') : DictInv s'.dict s'.nextCode := by
  obtain ⟨i, -, hexec⟩ | rfl := State.issue_cases he
  · exact h.exec_dict hexec
  · exact h.dict

end

/-! ## The host's actions (10_state R22 to R39) -/

/-! ### Register writes -/

/-- A register write can change the five RW registers only (10_state R23). -/
theorem State.writeReg_frame (s : State) (v : Word) (r : Reg) : s.writeReg v r =
    { s with
      ctrl := (s.writeReg v r).ctrl, inLen := (s.writeReg v r).inLen, pos := (s.writeReg v r).pos, plen := (s.writeReg v r).plen,
      codeLen := (s.writeReg v r).codeLen } := by
  cases r <;> rfl

/-- So can a write at any offset of the window other than that of CMD (10_state R38). -/
theorem State.writeOffset_frame (s : State) (offset : Nat) (v : Word) : s.writeOffset offset v =
    { s with
      ctrl := (s.writeOffset offset v).ctrl, inLen := (s.writeOffset offset v).inLen, pos := (s.writeOffset offset v).pos,
      plen := (s.writeOffset offset v).plen, codeLen := (s.writeOffset offset v).codeLen } := by
  unfold State.writeOffset
  split
  · exact s.writeReg_frame v _
  · rfl

theorem State.writeOffset_offset (s : State) (v : Word) (r : Reg) : s.writeOffset r.offset v = s.writeReg v r := by
  simp [State.writeOffset, regAt_offset]

/-- CTRL keeps bit [0] of what is written and reads 0 elsewhere (10_state R27). -/
theorem State.ctrlWord_writeReg (s : State) (v : Word) : (s.writeReg v .ctrl).ctrlWord = v &&& 1 := by
  apply BitVec.eq_of_getLsbD_eq
  intro i hi
  rw [State.getLsbD_ctrlWord, BitVec.getLsbD_and, State.writeReg, backendBit_backendOfBit]
  by_cases h : i = 0 <;> simp [h]

/-- The register written reads as written if it is RW, CTRL its bit [0] only, and as before if it is RO (10_state R23, R38). -/
theorem State.readReg_writeReg_same (s : State) (v : Word) (r : Reg) : (s.writeReg v r).readReg r =
    if r = .ctrl then v &&& 1 else if r ∈ [Reg.inLen, .pos, .plen, .codeLen] then v else s.readReg r := by
  cases r
  case ctrl => exact s.ctrlWord_writeReg v
  all_goals rfl

/-- A register write shows in the register written only (10_state R23). -/
theorem State.readReg_writeReg (s : State) (v : Word) (r r' : Reg) :
    (s.writeReg v r).readReg r' = if r' = r then (s.writeReg v r).readReg r else s.readReg r' := by
  cases r <;> cases r' <;> rfl

/-! ### The step of each access -/

section
variable {s : State} {rest : List HostAction} (hb : s.busy = false)
include hb

/-- A host read at a defined offset returns what stands there (20_memory R69). -/
theorem step_regRead {offset : Nat} (hd : regAccessDefined offset 32 = true) (hh : s.host = .regRead offset 32 :: rest) :
    step s = .next { s with host := rest, lastRead := some (s.readOffset offset) } := by
  rw [step_idle hb hh, State.perform, regAccess_of_defined hd]
  rfl

/-- A host write at a defined offset other than that of CMD (10_state R38). -/
theorem step_regWrite {offset : Nat} {v : Word} (hd : regAccessDefined offset 32 = true) (hcmd : offset ≠ Reg.offset .cmd)
    (hh : s.host = .regWrite offset 32 v :: rest) : step s = .next (State.writeOffset { s with host := rest } offset v) := by
  rw [step_idle hb hh, State.perform, regAccess_of_defined hd, if_neg hcmd]

/-- The step of a CMD write is the command it carries (10_state R24, 30_encoding R91). -/
theorem step_of_issues {i : Instr} (hi : issues s i) : ∃ rest, step s = exec i { s with host := rest } := by
  obtain ⟨w, rest, hh, hd⟩ := hi
  refine ⟨rest, ?_⟩
  rw [step_idle hb hh, State.perform, regAccess_of_defined (regAccessDefined_offset .cmd), if_pos rfl, State.issue_of_instr hd]

end

/-! ### What a step keeps -/

/-- A step is RESET, or the command of a CMD write, or it changes the host's side, the RW registers and the buffers only (10_state R48,
70_reset R266). -/
theorem step_kinds {s s' : State} (hs : step s = .next s') :
    (∃ rest, s.host = .reset :: rest ∧ s' = State.resetAction { s with host := rest }) ∨
    (∃ w rest, s.host = .regWrite (Reg.offset .cmd) 32 w :: rest ∧ State.issue { s with host := rest } w = .next s') ∨
    s' = { s with
      host := s.host.tail, lastRead := s'.lastRead, ctrl := s'.ctrl, inLen := s'.inLen, pos := s'.pos, plen := s'.plen,
      codeLen := s'.codeLen, ibuf := s'.ibuf, cbuf := s'.cbuf, obuf := s'.obuf } := by
  obtain ⟨hnil, rfl⟩ | ⟨a, rest, hh, hact⟩ := step_cases hs
  · have htail : s'.host = s'.host.tail := by rw [hnil]; rfl
    exact .inr (.inr (by rw [← htail]))
  · obtain ⟨v, rfl⟩ | ⟨-, ⟨w, rfl, hw⟩ | ⟨offset, v, -, -, rfl⟩ | ⟨i, b, -, -, rfl⟩ | ⟨i, c, -, -, rfl⟩ | ⟨i, b, -, -, rfl⟩ |
      ⟨rfl, rfl⟩⟩ := hact
    · exact .inr (.inr (by rw [hh]; rfl))
    · exact .inr (.inl ⟨w, rest, hh, hw⟩)
    · exact .inr (.inr (by rw [hh, State.writeOffset_frame]; rfl))
    · exact .inr (.inr (by rw [hh]; rfl))
    · exact .inr (.inr (by rw [hh]; rfl))
    · exact .inr (.inr (by rw [hh]; rfl))
    · exact .inl ⟨rest, hh, rfl⟩

/-- Every host action keeps the invariant (00_scope R19; 10_state R40, R41, R43, R46). -/
theorem Inv.step {s s' : State} (h : Inv s) (hs : step s = .next s') : Inv s' := by
  refine ⟨h.window.step hs, ?_⟩
  obtain ⟨rest, -, rfl⟩ | ⟨w, rest, -, hw⟩ | hframe := step_kinds hs
  · exact dictInv_seed .trie
  · have hrest : Inv { s with host := rest } := ⟨h.window.setHost rest, h.dict⟩
    exact hrest.issue_dict hw
  · rw [hframe]
    exact h.dict

/-! ## The backend is not observable (10_state R52) -/

/-- The match of a dictionary that satisfies its invariant depends on its phrases alone, whatever its structure (42_patricia R147). -/
theorem DictInv.lpm_congr {d d' : Dict} {n n' : BitVec 17} (h : DictInv d n) (h' : DictInv d' n')
    (hp : ∀ c, d'.phrase? c = d.phrase? c) (buf : List Byte) : d'.lpm buf = d.lpm buf := by
  obtain ⟨hl, hnone⟩ | ⟨c, p, hc, hpre, hl, hmax⟩ := h.lpm_spec buf <;>
    obtain ⟨hl', hnone'⟩ | ⟨c', p', hc', hpre', hl', hmax'⟩ := h'.lpm_spec buf
  · rw [hl, hl']
  · exact absurd hpre' (hnone c' p' (hp c' ▸ hc'))
  · exact absurd hpre (hnone' c p ((hp c).trans hc))
  · rw [hp] at hc'
    have hlen : p'.length = p.length := Nat.le_antisymm (hmax c' p' hc' hpre') (hmax' c p ((hp c).trans hc) hpre)
    obtain rfl : p' = p := (List.prefix_of_prefix_length_le hpre' hpre hlen.le).eq_of_length hlen
    rw [hl, hl', h.phrase_injective hc' hc]

/-- The block with another dictionary structure and another CTRL, and all else the same. -/
def State.withBackend (s : State) (d : Dict) (bk : Backend) : State := { s with dict := d, ctrl := bk }

section
variable (s : State) (d : Dict) (bk : Backend)

@[simp] theorem State.withBackend_cfg : (s.withBackend d bk).cfg = s.cfg := rfl
@[simp] theorem State.withBackend_dict : (s.withBackend d bk).dict = d := rfl
@[simp] theorem State.withBackend_codes : (s.withBackend d bk).codes = s.codes := rfl
@[simp] theorem State.withBackend_matchBuf : (s.withBackend d bk).matchBuf = s.matchBuf := rfl
@[simp] theorem State.withBackend_codeAssigned (c : Code) : (s.withBackend d bk).codeAssigned c = s.codeAssigned c := rfl
@[simp] theorem State.withBackend_inLenOk : (s.withBackend d bk).inLenOk = s.inLenOk := rfl
@[simp] theorem State.withBackend_codeLenOk : (s.withBackend d bk).codeLenOk = s.codeLenOk := rfl
@[simp] theorem State.withBackend_matchOk : (s.withBackend d bk).matchOk = s.matchOk := rfl

end

/-- Command `i` does the same from `s` as from the block with `d` and `bk` in their places, but for the structure it leaves, whose phrases
are the same too. -/
def SameButBackend (i : Instr) (s : State) (d : Dict) (bk : Backend) : Prop :=
  ∃ s' d', exec i s = .next s' ∧ exec i (s.withBackend d bk) = .next (s'.withBackend d' bk) ∧ ∀ c, d'.phrase? c = s'.dict.phrase? c

/-- ENCODE in range learns the phrases of a byte trie, in the structure of the selected backend (43_encoder R173, 42_patricia R149). -/
theorem State.encodeRun_eq {s : State} (hcap : s.cfg.cap ≤ 65536) : s.encodeRun =
    ⟨(encTrie s.cfg.cap s.input Forest.seed 256).codes, Dict.ofForest s.ctrl (encTrie s.cfg.cap s.input Forest.seed 256).dict,
      (encTrie s.cfg.cap s.input Forest.seed 256).next⟩ :=
  encodeInput_seed hcap s.input s.ctrl

theorem execEncode_of_inLenOk {s : State} (hok : s.inLenOk = true) : execEncode s =
    .next ((((s.dictInit s.ctrl).setDict s.encodeRun.dict s.encodeRun.next).putCodes s.encodeRun.codes).setRc .ok) := by
  rw [execEncode, if_pos hok]
  rfl

section
variable {s : State} {d : Dict} (hp : ∀ c, d.phrase? c = s.dict.phrase? c) (bk : Backend)

theorem sameButBackend_dictInit : SameButBackend .dictInit s d bk :=
  ⟨_, Dict.seed bk, rfl, rfl, fun c => (Dict.phrase?_seed bk c).trans (Dict.phrase?_seed s.ctrl c).symm⟩

include hp

theorem sameButBackend_nop : SameButBackend .nop s d bk := ⟨_, d, rfl, rfl, hp⟩

/-- DREAD of a phrase does not look at the structure (40_dictionary_control R104). -/
theorem sameButBackend_dread (node : Code) : SameButBackend (.dread node) s d bk := by
  by_cases hok : s.codeAssigned node = true
  · simp only [SameButBackend, exec, execDread, State.withBackend_codeAssigned, State.withBackend_dict, hp, hok, if_true]
    cases s.dict.phrase? node with
    | none => exact ⟨_, d, rfl, rfl, hp⟩
    | some p =>
      by_cases hlong : s.cfg.obufSize < p.length
      · exact ⟨_, d, if_pos hlong, if_pos hlong, hp⟩
      · exact ⟨_, d, if_neg hlong, if_neg hlong, hp⟩
  · exact ⟨_, d, if_neg hok, if_neg hok, hp⟩

theorem sameButBackend_lpm (hl : ∀ buf, d.lpm buf = s.dict.lpm buf) : SameButBackend .lpm s d bk := by
  by_cases hok : s.matchOk = true
  · simp only [SameButBackend, exec, execLpm, State.withBackend_matchOk, State.withBackend_dict, State.withBackend_matchBuf, hl, hok,
      if_true]
    split <;> exact ⟨_, d, rfl, rfl, hp⟩
  · exact ⟨_, d, if_neg hok, if_neg hok, hp⟩

/-- ENCODE reads nothing of the dictionary before it (43_encoder R174, R176). -/
theorem sameButBackend_encode (hcap : s.cfg.cap ≤ 65536) : SameButBackend .encode s d bk := by
  by_cases hok : s.inLenOk = true
  · refine ⟨_, Dict.ofForest bk (encTrie s.cfg.cap s.input Forest.seed 256).dict, execEncode_of_inLenOk hok,
      (execEncode_of_inLenOk (s := s.withBackend d bk) hok).trans ?_, fun c => ?_⟩
    · rw [State.encodeRun_eq hcap, State.encodeRun_eq (s := s.withBackend d bk) hcap]
      rfl
    · simp [State.encodeRun_eq hcap, Dict.phrase?_ofForest]
  · refine ⟨s.setRc .badOperand, d, ?_, ?_, hp⟩ <;> exact if_neg hok

theorem sameButBackend_decode : SameButBackend .decode s d bk := by
  by_cases hok : s.codeLenOk = true
  · simp only [SameButBackend, exec, execDecode, State.withBackend_codeLenOk, State.withBackend_codes, State.withBackend_cfg, hok,
      if_true]
    split <;> exact ⟨_, d, rfl, rfl, hp⟩
  · exact ⟨_, d, if_neg hok, if_neg hok, hp⟩

theorem sameButBackend_pack : SameButBackend .pack s d bk := by
  by_cases hok : s.codeLenOk = true
  · exact ⟨_, d, if_pos hok, if_pos hok, hp⟩
  · exact ⟨_, d, if_neg hok, if_neg hok, hp⟩

theorem sameButBackend_unpack : SameButBackend .unpack s d bk := by
  by_cases hok : s.inLenOk = true
  · exact ⟨_, d, if_pos hok, if_pos hok, hp⟩
  · exact ⟨_, d, if_neg hok, if_neg hok, hp⟩

end

/-- A command both backends accept does the same on two blocks in whose dictionaries the same phrases have the same codes
(43_encoder R173, 42_patricia R147). -/
theorem exec_sameButBackend {s : State} {d : Dict} (bk : Backend) (h : Inv s) (h' : DictInv d s.nextCode)
    (hp : ∀ c, d.phrase? c = s.dict.phrase? c) {i : Instr} (hi : ∀ bk, backendMismatch i bk = false) : SameButBackend i s d bk := by
  cases i with
  | nop => exact sameButBackend_nop hp bk
  | dictInit => exact sameButBackend_dictInit bk
  | dread node => exact sameButBackend_dread hp bk node
  | tChild r byte node => cases hi .patricia
  | tInsert r byte node => cases hi .patricia
  | pInsert => cases hi .trie
  | lpm => exact sameButBackend_lpm hp bk (h.dict.lpm_congr h' hp)
  | encode => exact sameButBackend_encode hp bk h.cap_le
  | decode => exact sameButBackend_decode hp bk
  | pack => exact sameButBackend_pack hp bk
  | unpack => exact sameButBackend_unpack hp bk

/-! ## What every command answers and leaves (60_exceptions R236, 10_state R27 to R30) -/

/-- Every command ends in a next state (60_exceptions R236). -/
theorem exec_answers (i : Instr) (s : State) : ∃ s', exec i s = .next s' := by
  cases i with
  | nop => exact ⟨_, rfl⟩
  | dictInit => exact ⟨_, rfl⟩
  | dread node => simp only [exec, execDread, State.deliverPhrase]; (repeat' split) <;> exact ⟨_, rfl⟩
  | tChild r byte node => simp only [exec, execTChild]; (repeat' split) <;> exact ⟨_, rfl⟩
  | tInsert r byte node => simp only [exec, execTInsert]; (repeat' split) <;> exact ⟨_, rfl⟩
  | pInsert => simp only [exec, execPInsert]; (repeat' split) <;> exact ⟨_, rfl⟩
  | lpm => simp only [exec, execLpm]; (repeat' split) <;> exact ⟨_, rfl⟩
  | encode => simp only [exec, execEncode]; split <;> exact ⟨_, rfl⟩
  | decode => simp only [exec, execDecode]; (repeat' split) <;> exact ⟨_, rfl⟩
  | pack => simp only [exec, execPack]; split <;> exact ⟨_, rfl⟩
  | unpack => simp only [exec, execUnpack]; split <;> exact ⟨_, rfl⟩

/-- So does every word written to CMD (30_encoding R91). -/
theorem State.issue_answers (s : State) (w : Word) : ∃ s', s.issue w = .next s' := by
  cases hd : decode w with
  | instr i => rw [State.issue_of_instr hd]; exact exec_answers i s
  | reject r => exact ⟨_, State.issue_of_reject hd⟩

/-- A command changes nothing but STATUS.RC, the result registers, CODE_LEN, CBUF, OBUF and the dictionary (20_memory R61, R65). -/
theorem exec_frame {i : Instr} {s s' : State} (he : exec i s = .next s') : s' = { s with
    rc := s'.rc, codeLen := s'.codeLen, outLen := s'.outLen, nextCode := s'.nextCode, resCode := s'.resCode, resLen := s'.resLen,
    errIndex := s'.errIndex, cbuf := s'.cbuf, obuf := s'.obuf, dict := s'.dict } := by
  cases i with
  | nop => obtain rfl := (State.finish_eq_next ..).1 he; rfl
  | dictInit => obtain rfl := (State.finish_eq_next ..).1 he; rfl
  | dread node => obtain ⟨_, -, -, -, rfl⟩ | ⟨_, -, -, -, rfl⟩ | ⟨-, rfl⟩ := execDread_cases he <;> rfl
  | tChild r byte node =>
    obtain ⟨-, rfl⟩ | ⟨-, -, rfl⟩ | ⟨_, _, -, -, -, rfl⟩ | ⟨_, _, _, -, -, -, rfl⟩ := execTChild_cases he <;> rfl
  | tInsert r byte node =>
    obtain ⟨-, rfl⟩ | ⟨-, -, rfl⟩ | ⟨_, _, -, -, -, rfl⟩ | ⟨_, _, _, -, -, -, -, rfl⟩ | ⟨_, _, -, -, -, -, rfl⟩ :=
      execTInsert_cases he <;> rfl
  | pInsert =>
    obtain ⟨-, rfl⟩ | ⟨-, -, rfl⟩ | ⟨_, -, -, -, rfl⟩ | ⟨_, _, _, _, _, -, -, -, -, -, rfl⟩ | ⟨_, _, _, _, -, -, -, -, -, rfl⟩ :=
      execPInsert_cases he <;> rfl
  | lpm => obtain ⟨-, rfl⟩ | ⟨-, -, rfl⟩ | ⟨_, _, -, -, rfl⟩ := execLpm_cases he <;> rfl
  | encode => obtain ⟨-, rfl⟩ | ⟨-, rfl⟩ := execEncode_cases he <;> rfl
  | decode =>
    obtain ⟨-, rfl⟩ | ⟨_, -, -, rfl⟩ | ⟨_, -, -, -, rfl⟩ | ⟨-, -, -, rfl⟩ := execDecode_cases he <;> rfl
  | pack => obtain ⟨-, rfl⟩ | ⟨-, rfl⟩ := execPack_cases he <;> rfl
  | unpack => obtain ⟨-, rfl⟩ | ⟨-, rfl⟩ := execUnpack_cases he <;> rfl

/-! ### Which host actions are refused -/

/-- The static check of a register access is the check the block makes (10_state R38). -/
theorem wf_regRead (g : Config) (offset width : Nat) : (HostAction.regRead offset width).wf g = regAccessDefined offset width := by
  rw [Bool.eq_iff_iff, regAccessDefined_iff]
  simp [HostAction.wf, and_assoc]

/-- A register access whose effect is a next state is refused only where the block does not define it (10_state R38). -/
theorem regAccess_refused_iff (g : Config) {offset width : Nat} {go : Outcome} (hgo : ∃ s', go = .next s') :
    (∃ r, regAccess offset width go = .refused r) ↔ (HostAction.regRead offset width).wf g = false := by
  obtain ⟨s', rfl⟩ := hgo
  rw [wf_regRead]
  by_cases hd : regAccessDefined offset width = true <;> simp [regAccess, hd]

/-- A buffer access whose effect is a next state is refused only outside the buffer (20_memory R64). -/
theorem bufAccess_refused_iff {size i : Nat} {go : Outcome} (hgo : ∃ s', go = .next s') :
    (∃ r, bufAccess size i go = .refused r) ↔ decide (i < size) = false := by
  obtain ⟨s', rfl⟩ := hgo
  by_cases hi : i < size <;> simp [bufAccess, hi]

/-- An action on a block that is not busy is refused exactly when the block does not define it (10_state R38, 20_memory R64). -/
theorem State.perform_refused_iff (s : State) (a : HostAction) : (∃ r, s.perform a = .refused r) ↔ a.wf s.cfg = false := by
  cases a with
  | regRead offset width => exact regAccess_refused_iff s.cfg ⟨_, rfl⟩
  | regWrite offset width v =>
    refine regAccess_refused_iff s.cfg ?_
    split
    · exact s.issue_answers v
    · exact ⟨_, rfl⟩
  | ibufRead i | ibufWrite i b | cbufRead i | cbufWrite i c | obufRead i | obufWrite i b => exact bufAccess_refused_iff ⟨_, rfl⟩
  | reset => simp [State.perform, HostAction.wf]

/-! ## The phrases of the dictionary (10_state R40 to R42) -/

theorem Dict.phrase?_ne_nil {d : Dict} {c : Code} {p : Phrase} (h : d.phrase? c = some p) : p ≠ [] := by
  cases d with
  | trie root => exact Forest.phrase?_ne_nil h
  | patricia root => exact Radix.phrase?_ne_nil h

/-- A code that has a phrase is not the next one to be assigned. -/
theorem DictInv.ne_nextAsCode {d : Dict} {n : BitVec 17} (h : DictInv d n) (hn : n.toNat < 65536) {c : Code} {p : Phrase}
    (hc : d.phrase? c = some p) : c ≠ nextAsCode n := by
  rintro rfl
  have hlt := (h.phrase_isSome_iff _).1 (Option.isSome_of_eq_some hc)
  exact h.codesBelow.not_mem_next hn ((h.codesBelow.2 _).2 hlt)

/-- An insertion into either structure adds a phrase under the next code and leaves the others (41_prefix_trie R122, 42_patricia R144). -/
theorem Inv.phrase_of_dictEffect {i : Instr} {s s' : State} (h : Inv s) (heff : DictEffect i s s') (hinit : i ≠ .dictInit)
    (henc : i ≠ .encode) {c : Code} {p : Phrase} (hc : s.dict.phrase? c = some p) : s'.dict.phrase? c = some p := by
  have hcap := h.cap_le
  have hdict := h.dict
  have hne (hroom : s.nextCode.toNat < s.cfg.cap) : c ≠ nextAsCode s.nextCode := hdict.ne_nextAsCode (by omega) hc
  cases heff with
  | kept _ _ _ hd _ => rwa [hd]
  | seeded hi => exact absurd hi hinit
  | encoded hi => exact absurd hi henc
  | attached _ hroot hparent habsent hroom _ hd _ =>
    rw [hroot] at hdict hc
    obtain ⟨rfl, hassigned⟩ := TrieInv.parent_of_absent hdict hparent habsent
    obtain ⟨q, hq⟩ := TrieInv.phrase_of_lt hdict hassigned
    rw [hd]
    exact (TrieInv.phrase_addUnder hdict (by omega) hq _ c).trans ((if_neg (hne hroom)).trans hc)
  | inserted _ hroot hres hroom _ hd _ =>
    rw [hroot] at hdict hc
    rw [hd]
    have hnew := hdict.codesBelow.not_mem_next (by omega)
    exact (Radix.phrase?_insert (PatriciaInv.wf hdict) hnew hres c).trans ((if_neg (hne hroom)).trans hc)

/-- A byte trie stores every non-empty beginning of a stored phrase (10_state R42). -/
theorem TrieInv.phrase_of_prefix {root : Forest} {n : BitVec 17} (h : TrieInv root n) {c : Code} {p p' : Phrase}
    (hc : root.phrase? c = some p) (hpre : p' <+: p) (hne : p' ≠ []) : ∃ c', root.phrase? c' = some p' := by
  obtain ⟨kids, hfind⟩ := (Forest.phrase?_eq_some_iff h.wf c p).1 hc
  obtain ⟨n', hn'⟩ := Option.isSome_iff_exists.1 (Forest.find?_of_prefix (Option.isSome_of_eq_some hfind) hpre hne)
  exact ⟨n'.1, (Forest.phrase?_eq_some_iff h.wf _ _).2 ⟨n'.2, hn'⟩⟩

/-! ## The backend tag (10_state R49) -/

@[simp] theorem encodeInput_backend (cap : Nat) (input : List Byte) (d : Dict) (next : BitVec 17) :
    (encodeInput cap input d next).dict.backend = d.backend := by
  cases d <;> rfl

theorem State.encodeRun_backend (s : State) : s.encodeRun.dict.backend = s.ctrl := by
  rw [State.encodeRun, encodeInput_backend, Dict.backend_seed]

/-- A command that changes the tag is DICT_INIT or ENCODE, and sets it from CTRL.BACKEND (10_state R49). -/
theorem dbk_of_dictEffect {i : Instr} {s s' : State} (heff : DictEffect i s s') :
    (s'.dbk = s.dbk ∧ i ≠ .dictInit ∧ (i = .encode → s'.rc ≠ .ok)) ∨ (s'.dbk = s.ctrl ∧ (i = .dictInit ∨ i = .encode)) := by
  cases heff with
  | kept hinit henc _ hd _ => exact .inl ⟨congrArg Dict.backend hd, hinit, henc⟩
  | seeded hi _ hd _ => exact .inr ⟨(congrArg Dict.backend hd).trans (Dict.backend_seed _), .inl hi⟩
  | encoded hi _ hd _ => exact .inr ⟨(congrArg Dict.backend hd).trans s.encodeRun_backend, .inr hi⟩
  | attached hi hroot _ _ _ _ hd _ =>
    have hdbk : s'.dbk = s.dbk := by rw [State.dbk, State.dbk, hd, hroot]; rfl
    exact .inl ⟨hdbk, by simp [hi], by simp [hi]⟩
  | inserted hi hroot _ _ _ hd _ =>
    have hdbk : s'.dbk = s.dbk := by rw [State.dbk, State.dbk, hd, hroot]; rfl
    exact .inl ⟨hdbk, by simp [hi], by simp [hi]⟩

/-- The step of a CMD write does to the dictionary what its command does (10_state R24). -/
theorem dictEffect_of_issues {s s' : State} (hb : s.busy = false) {i : Instr} (hi : issues s i) (hs : step s = .next s') :
    ∃ rest, DictEffect i { s with host := rest } s' := by
  obtain ⟨rest, hstep⟩ := step_of_issues hb hi
  exact ⟨rest, exec_dictEffect (hstep.symm.trans hs)⟩

/-- A step that changes the tag performs DICT_INIT or ENCODE, or is RESET (10_state R49). -/
theorem step_dbk_cases {s s' : State} (hs : step s = .next s') :
    s'.dbk = s.dbk ∨ issues s .dictInit ∨ issues s .encode ∨ ∃ rest, s.host = .reset :: rest := by
  obtain ⟨rest, hh, -⟩ | ⟨w, rest, hh, hw⟩ | hframe := step_kinds hs
  · exact .inr (.inr (.inr ⟨rest, hh⟩))
  · obtain ⟨i, hd, he⟩ | rfl := State.issue_cases hw
    · obtain ⟨hkeep, -⟩ | ⟨-, rfl | rfl⟩ := dbk_of_dictEffect (exec_dictEffect he)
      · exact .inl hkeep
      · exact .inr (.inl ⟨w, rest, hh, hd⟩)
      · exact .inr (.inr (.inl ⟨w, rest, hh, hd⟩))
    · exact .inl rfl
  · exact .inl (hframe ▸ rfl)

/-! ## STATUS and CTRL as the host reads them (10_state R25, R27) -/

/-- STATUS[3:0] is RC (10_state R25). -/
theorem State.extractLsb'_status_rc (s : State) : s.status.extractLsb' 0 4 = s.rc.bits := by
  apply BitVec.eq_of_getLsbD_eq
  intro i hi
  rw [BitVec.getLsbD_extractLsb', State.getLsbD_status]
  simp [hi]

/-- STATUS[31:7] is zero (10_state R25). -/
theorem State.extractLsb'_status_reserved (s : State) : s.status.extractLsb' 7 25 = 0 := by
  apply BitVec.eq_of_getLsbD_eq
  intro i hi
  rw [BitVec.getLsbD_extractLsb', State.getLsbD_status]
  simp [show ¬ 7 + i < 4 by omega, show ¬ 7 + i = 4 by omega, show ¬ 7 + i = 5 by omega, show ¬ 7 + i = 6 by omega]

theorem backendBit_eq_true_iff (bk : Backend) : backendBit bk = true ↔ bk = .patricia := by cases bk <;> decide

theorem State.ctrlWord_eq (s : State) : s.ctrlWord = if s.ctrl = .patricia then 1 else 0 := by
  unfold State.ctrlWord
  cases s.ctrl <;> rfl

/-- STATUS right after reset (10_state R25, R39). -/
theorem status_resetOf {g : Config} (hg : g.wf = true) : (State.resetOf g).status = if g.cap = 256 then 0x10 else 0 := by
  have hlow := (Config.cap_bounds hg).1
  have hfull : (State.resetOf g).fullFlag = decide (g.cap = 256) := by
    rw [Bool.eq_iff_iff, decide_eq_true_iff]
    exact decide_eq_true_iff.trans ⟨fun h => Nat.le_antisymm h hlow, Nat.le_of_eq⟩
  change (0 : BitVec 25) ++ BitVec.ofBool false ++ BitVec.ofBool false ++ BitVec.ofBool (State.resetOf g).fullFlag ++ RC.ok.bits = _
  rw [hfull]
  by_cases h : g.cap = 256
  · rw [if_pos h, decide_eq_true h]
    decide
  · rw [if_neg h, decide_eq_false h]
    decide

/-! ## The obligations of the state -/

/-- Settles O19, from the step lemma of the invariant. -/
theorem stepKeepsTheInvariant : Obligations.StepKeepsTheInvariant :=
  fun _ _ h hs => h.step hs

/-- Settles O33: the second block is the first with another structure and CTRL, and no command both backends accept tells them apart. -/
theorem backendIsNotObservable : Obligations.BackendIsNotObservable := by
  intro i s t hs ht hi heq hp
  have hdict : DictInv t.dict s.nextCode := by
    have hnext := congrArg State.nextCode heq
    exact hnext ▸ ht.dict
  obtain ⟨s', d', he, he', hp'⟩ := exec_sameButBackend t.ctrl hs hdict hp hi
  exact ⟨s', s'.withBackend d' t.ctrl, he, heq ▸ he', rfl, hp'⟩

/-- Settles O10: each action is an access whose effect, where the block defines it, is a next state. -/
theorem undefinedHostActionsAreRefused : Obligations.UndefinedHostActionsAreRefused := by
  intro s a rest hb hh
  rw [step_idle hb hh]
  exact State.perform_refused_iff { s with host := rest } a

/-- Settles O12, from the step of a register write and what a register write stores. -/
theorem registerWritesStoreOrAreIgnored : Obligations.RegisterWritesStoreOrAreIgnored := by
  intro s v rest hb
  refine ⟨step_regWrite hb (by decide) (by decide), step_regWrite hb (by decide) (by decide), step_regWrite hb (by decide) (by decide),
    step_regWrite hb (by decide) (by decide), step_regWrite hb (by decide) (by decide), ?_, ?_⟩
  · simp only [List.forall_mem_cons, List.not_mem_nil, false_imp_iff, implies_true, and_true]
    refine ⟨?_, ?_, ?_, ?_, ?_, ?_, ?_, ?_, ?_, ?_⟩ <;> exact step_regWrite hb (by decide) (by decide)
  · intro r hr hh
    refine ⟨State.writeReg { s with host := rest } v r, ?_, State.readReg_writeReg_same .., fun r' h => ?_, ?_⟩
    · rw [step_regWrite hb (regAccessDefined_offset r) (mt (Reg.offset_eq_cmd r).1 hr) hh, State.writeOffset_offset]
    · exact (State.readReg_writeReg ..).trans (if_neg h)
    · exact State.writeReg_frame ..

/-- Settles O13: each field is a range of bits of STATUS. -/
theorem statusReadsItsFields : Obligations.StatusReadsItsFields := by
  intro s
  refine ⟨?_, ?_, ?_, ?_, s.extractLsb'_status_reserved, rfl⟩
  · have hrc (rc : RC) (bits : BitVec 4) (hbits : rc.bits = bits) (h : s.rc = rc) :
        (s.readReg .status).extractLsb' 0 4 = bits ∧ s.rc.bits = bits :=
      ⟨s.extractLsb'_status_rc.trans (h ▸ hbits), h ▸ hbits⟩
    simp only [List.forall_mem_cons, List.not_mem_nil, false_imp_iff, implies_true, and_true]
    refine ⟨?_, ?_, ?_, ?_, ?_, ?_, ?_, ?_, ?_, ?_, ?_⟩ <;> exact hrc _ _ rfl
  · rw [State.readReg, State.getLsbD_status]
    exact decide_eq_true_iff
  · rw [State.readReg, State.getLsbD_status]
    exact backendBit_eq_true_iff _
  · rw [State.readReg, State.getLsbD_status]
    rfl

/-- Settles O20: the codes of the structure are those below NEXT_CODE, and a code of the structure has a phrase. -/
theorem assignedCodesHavePhrases : Obligations.AssignedCodesHavePhrases :=
  fun _ h c => Option.isSome_iff_exists.symm.trans (h.dict.phrase_isSome_iff c)

/-- Settles O21, from the invariant of the dictionary. -/
theorem phrasesAreInjectiveAndSeeded : Obligations.PhrasesAreInjectiveAndSeeded := by
  intro s h
  refine ⟨fun _ _ _ hc hc' => h.dict.phrase_injective hc hc', h.dict.phrase_singleton, fun c p hc => ?_, h.window.nextHigh⟩
  exact List.length_pos_iff.2 (Dict.phrase?_ne_nil hc)

/-- Settles O22: an insertion takes the next code, which had no phrase. -/
theorem storedPhrasesKeepTheirCodes : Obligations.StoredPhrasesKeepTheirCodes :=
  fun _ _ _ h hinit henc he _ _ hc => h.phrase_of_dictEffect (exec_dictEffect he) hinit henc hc

/-- Settles O23: the beginnings of the path to a node are paths. -/
theorem trieDictionaryIsPrefixClosed : Obligations.TrieDictionaryIsPrefixClosed := by
  intro s root h hroot c p hc hlen
  have hdict := h.dict
  rw [hroot] at hdict hc ⊢
  have hne : p.dropLast ≠ [] := List.ne_nil_of_length_pos (by rw [List.length_dropLast]; omega)
  exact TrieInv.phrase_of_prefix hdict hc p.dropLast_prefix hne

/-- Settles O25, from what a command does to the dictionary. -/
theorem nextCodeMovesOnlyByInsertion : Obligations.NextCodeMovesOnlyByInsertion := by
  intro i s s' he
  cases exec_dictEffect he with
  | kept hinit _ hrc _ hnext =>
    exact ⟨fun hi => absurd hi hinit, fun _ _ => ⟨fun h => absurd h hrc, fun _ => hnext⟩, fun h => absurd h hrc⟩
  | seeded hi hrc _ hnext => exact ⟨fun _ => hnext, fun hne => absurd hi hne, fun h => absurd h hrc⟩
  | encoded hi hrc _ _ => exact ⟨by simp [hi], fun _ hne => absurd hi hne, fun h => absurd h hrc⟩
  | attached hi _ _ _ hroom hrc _ hnext =>
    exact ⟨by simp [hi], fun _ _ => ⟨fun _ => ⟨hroom, hnext⟩, fun h => absurd hrc h⟩, fun _ => .inl ⟨_, _, _, hi⟩⟩
  | inserted hi _ _ hroom hrc _ hnext =>
    exact ⟨by simp [hi], fun _ _ => ⟨fun _ => ⟨hroom, hnext⟩, fun h => absurd hrc h⟩, fun _ => .inr hi⟩

/-- Settles O26, from what a command does to the tag and which steps can change it. -/
theorem backendTagChangesOnlyByInitEncodeReset : Obligations.BackendTagChangesOnlyByInitEncodeReset := by
  intro s s' hb hs
  refine ⟨fun hi => ?_, fun hi hok => ?_, fun rest hh => ?_, (step_dbk_cases hs).resolve_left⟩
  · obtain ⟨_, heff⟩ := dictEffect_of_issues hb hi hs
    obtain ⟨-, hne, -⟩ | ⟨hdbk, -⟩ := dbk_of_dictEffect heff
    · exact absurd rfl hne
    · exact hdbk
  · obtain ⟨_, heff⟩ := dictEffect_of_issues hb hi hs
    obtain ⟨-, -, hne⟩ | ⟨hdbk, -⟩ := dbk_of_dictEffect heff
    · exact absurd hok (hne rfl)
    · exact hdbk
  · rw [step_idle hb hh] at hs
    injection hs with hs
    exact hs ▸ rfl

/-- Settles O27, from the frame of the commands. -/
theorem commandsLeaveTheirOperands : Obligations.CommandsLeaveTheirOperands := by
  intro i s s' he
  rw [exec_frame he]
  exact ⟨rfl, rfl, rfl, rfl, rfl, rfl, rfl, rfl, rfl, rfl⟩

/-- Settles O29: such an action is none of the two kinds of step that reach the dictionary. -/
theorem hostActionsLeaveTheDictionary : Obligations.HostActionsLeaveTheDictionary := by
  intro s s' a rest hh hcmd hreset hs
  obtain ⟨_, hh', -⟩ | ⟨_, _, hh', -⟩ | hframe := step_kinds hs
  · rw [hh] at hh'
    exact absurd (List.cons.inj hh').1 hreset
  · rw [hh] at hh'
    rw [(List.cons.inj hh').1] at hcmd
    cases hcmd
  · rw [hframe]
    exact ⟨rfl, rfl, rfl, rfl, rfl, rfl, rfl, rfl, rfl, rfl, congrArg List.tail hh⟩

/-- Settles O11, from the step of each read. -/
theorem hostReadsChangeNothing : Obligations.HostReadsChangeNothing := by
  intro s rest hb
  refine ⟨?_, fun r hh => ?_, fun i hi hh => ?_, fun i hi hh => ?_, fun i hi hh => ?_⟩
  · rw [← s.ctrlWord_eq]
    simp only [List.forall_mem_cons, List.not_mem_nil, false_imp_iff, implies_true, and_true]
    refine ⟨?_, ?_, ?_, ?_, ?_, ?_, ?_, ?_, ?_, ?_, ?_, ?_, ?_, ?_, ?_, ?_⟩ <;> exact step_regRead hb (by decide)
  · rw [step_regRead hb (regAccessDefined_offset r) hh, readOffset_offset]
  all_goals
    rw [step_idle hb hh]
    exact bufAccess_of_lt hi _

/-- Settles O16: every register but STATUS and CAP reads a constant. -/
theorem resetWindowReadsItsTable : Obligations.ResetWindowReadsItsTable := by
  intro g hg
  have hctrl : (State.resetOf g).ctrlWord = 0 := State.ctrlWord_eq _
  refine ⟨?_, rfl⟩
  change [0, (State.resetOf g).status, (State.resetOf g).ctrlWord, 0, 0, 0, 0, 0, 256, 0, 0, 0, BitVec.ofNat 32 g.cap, 0, 0, 0] = _
  rw [hctrl, status_resetOf hg]

/-- Settles O17: the seeded TRIE dictionary meets its invariant. -/
theorem resetMeetsTheInvariant : Obligations.ResetMeetsTheInvariant :=
  fun _ hg => ⟨windowInv_resetOf hg, dictInv_seed .trie⟩

/-- Settles O32: every way a command ends writes STATUS.RC, and no condition of a rule names it. -/
theorem commandsDoNotReadTheResultCode : Obligations.CommandsDoNotReadTheResultCode := by
  intro i s rc
  cases i <;> rfl

end Sys2Proof.Machine

/-! ## Buffer accesses and the writers of the results (20_memory R64, R65, R68) -/

namespace Sys2Proof.Machine

/-! ### One element of a buffer -/

/-- A write gives its value to one element and leaves the others, whatever free values unwritten elements read as (20_memory R64, R76). -/
theorem Memory.getD_get?_set {α : Type} (m : List (Nat × α)) (i : Nat) (v : α) (free : Nat → α) :
    (Memory.get? (Memory.set m i v) i).getD (free i) = v ∧
    ∀ j, j ≠ i → (Memory.get? (Memory.set m i v) j).getD (free j) = (Memory.get? m j).getD (free j) := by
  refine ⟨?_, fun j hj => ?_⟩
  · rw [Memory.get?_set_same, Option.getD_some]
  · rw [Memory.get?_set_other m v hj]

section
variable {s t : State} {a : HostAction} {rest : List HostAction} {size i : Nat} (hb : s.busy = false) (hh : s.host = a :: rest)
  (ha : State.perform { s with host := rest } a = bufAccess size i (.next t))
include hb hh ha

/-- The step of a buffer access inside the buffer is the effect of the access (20_memory R64). -/
theorem step_bufAccess_of_lt (hi : i < size) : step s = .next t := by
  rw [step_idle hb hh, ha, bufAccess_of_lt hi]

/-- The step of a buffer access outside the buffer is refused (20_memory R64). -/
theorem step_bufAccess_of_le (hi : size ≤ i) : step s = .refused .bufferIndex := by
  rw [step_idle hb hh, ha, bufAccess_of_le hi]

end

/-- Settles O14, from the step of a buffer access and what a write does to each element. -/
theorem bufferAccessesMoveOneElement : Obligations.BufferAccessesMoveOneElement := by
  intro s i b c rest hb
  refine ⟨fun hi => ⟨fun hh => ?_, fun hh => ?_⟩, fun hi => ⟨fun hh => ?_, fun hh => ?_⟩, fun hi => ⟨fun hh => ?_, fun hh => ?_⟩, ?_⟩
  · obtain ⟨hsame, hother⟩ := Memory.getD_get?_set s.ibuf i b (Config.freeIbuf s.draw)
    exact ⟨_, step_bufAccess_of_lt hb hh rfl hi, hsame, hother, rfl⟩
  · exact step_bufAccess_of_lt hb hh rfl hi
  · obtain ⟨hsame, hother⟩ := Memory.getD_get?_set s.cbuf i c (Config.freeCbuf s.draw)
    exact ⟨_, step_bufAccess_of_lt hb hh rfl hi, hsame, hother, rfl⟩
  · exact step_bufAccess_of_lt hb hh rfl hi
  · obtain ⟨hsame, hother⟩ := Memory.getD_get?_set s.obuf i b (Config.freeObuf s.draw)
    exact ⟨_, step_bufAccess_of_lt hb hh rfl hi, hsame, hother, rfl⟩
  · exact step_bufAccess_of_lt hb hh rfl hi
  · refine ⟨?_, ?_, ?_⟩ <;> rintro hi (hh | hh) <;> exact step_bufAccess_of_le hb hh rfl hi

/-! ### What each command may write -/

/-- The state `s` with the fields that command `i` may write taken from `s'` (20_memory R65). -/
def State.withWritesOf (s s' : State) : Instr → State
  | .nop => { s with rc := s'.rc }
  | .dictInit => { s with rc := s'.rc, dict := s'.dict, nextCode := s'.nextCode }
  | .dread _ => { s with rc := s'.rc, resCode := s'.resCode, resLen := s'.resLen, obuf := s'.obuf, outLen := s'.outLen }
  | .tChild _ _ _ => { s with rc := s'.rc, resCode := s'.resCode }
  | .tInsert _ _ _ => { s with rc := s'.rc, resCode := s'.resCode, dict := s'.dict, nextCode := s'.nextCode }
  | .pInsert => { s with rc := s'.rc, resCode := s'.resCode, resLen := s'.resLen, dict := s'.dict, nextCode := s'.nextCode }
  | .lpm => { s with rc := s'.rc, resCode := s'.resCode, resLen := s'.resLen }
  | .encode => { s with rc := s'.rc, cbuf := s'.cbuf, codeLen := s'.codeLen, dict := s'.dict, nextCode := s'.nextCode }
  | .decode => { s with rc := s'.rc, errIndex := s'.errIndex, obuf := s'.obuf, outLen := s'.outLen }
  | .pack => { s with rc := s'.rc, obuf := s'.obuf, outLen := s'.outLen }
  | .unpack => { s with rc := s'.rc, cbuf := s'.cbuf, codeLen := s'.codeLen }

/-- A command writes the fields of its row and no other, however it ends (20_memory R65, 60_exceptions R238). -/
theorem exec_writes {i : Instr} {s s' : State} (he : exec i s = .next s') : s' = s.withWritesOf s' i := by
  cases i with
  | nop => obtain rfl := (State.finish_eq_next ..).1 he; rfl
  | dictInit => obtain rfl := (State.finish_eq_next ..).1 he; rfl
  | dread node => obtain ⟨_, -, -, -, rfl⟩ | ⟨_, -, -, -, rfl⟩ | ⟨-, rfl⟩ := execDread_cases he <;> rfl
  | tChild r byte node =>
    obtain ⟨-, rfl⟩ | ⟨-, -, rfl⟩ | ⟨_, _, -, -, -, rfl⟩ | ⟨_, _, _, -, -, -, rfl⟩ := execTChild_cases he <;> rfl
  | tInsert r byte node =>
    obtain ⟨-, rfl⟩ | ⟨-, -, rfl⟩ | ⟨_, _, -, -, -, rfl⟩ | ⟨_, _, _, -, -, -, -, rfl⟩ | ⟨_, _, -, -, -, -, rfl⟩ :=
      execTInsert_cases he <;> rfl
  | pInsert =>
    obtain ⟨-, rfl⟩ | ⟨-, -, rfl⟩ | ⟨_, -, -, -, rfl⟩ | ⟨_, _, _, _, _, -, -, -, -, -, rfl⟩ | ⟨_, _, _, _, -, -, -, -, -, rfl⟩ :=
      execPInsert_cases he <;> rfl
  | lpm => obtain ⟨-, rfl⟩ | ⟨-, -, rfl⟩ | ⟨_, _, -, -, rfl⟩ := execLpm_cases he <;> rfl
  | encode => obtain ⟨-, rfl⟩ | ⟨-, rfl⟩ := execEncode_cases he <;> rfl
  | decode => obtain ⟨-, rfl⟩ | ⟨_, -, -, rfl⟩ | ⟨_, -, -, -, rfl⟩ | ⟨-, -, -, rfl⟩ := execDecode_cases he <;> rfl
  | pack => obtain ⟨-, rfl⟩ | ⟨-, rfl⟩ := execPack_cases he <;> rfl
  | unpack => obtain ⟨-, rfl⟩ | ⟨-, rfl⟩ := execUnpack_cases he <;> rfl

/-- DECODE writes ERR_INDEX on BAD_CODE and OVERFLOW only (10_state R36, 44_decoder R195). -/
theorem execDecode_errIndex {s s' : State} (he : execDecode s = .next s') (hne : s'.errIndex ≠ s.errIndex) :
    s'.rc = .badCode ∨ s'.rc = .overflow := by
  obtain ⟨-, rfl⟩ | ⟨_, -, -, rfl⟩ | ⟨_, -, -, -, rfl⟩ | ⟨-, -, -, rfl⟩ := execDecode_cases he
  · exact absurd rfl hne
  · exact .inr rfl
  · exact .inl rfl
  · exact absurd rfl hne

/-- Settles O28: a field that a command changes stands in the command's row of `State.withWritesOf`. -/
theorem resultsHaveOnlyTheirWriters : Obligations.ResultsHaveOnlyTheirWriters := by
  intro i s s' he
  have herr : s'.errIndex ≠ s.errIndex → i = .decode := by
    rw [exec_writes he]
    cases i <;> simp [State.withWritesOf]
  refine ⟨?_, ?_, ?_, ?_, ?_, fun hne => ?_⟩
  case refine_6 =>
    obtain rfl := herr hne
    exact ⟨rfl, execDecode_errIndex he hne⟩
  all_goals
    rw [exec_writes he]
    cases i <;> simp [State.withWritesOf]

end Sys2Proof.Machine

/-! ## The command word (30_encoding R80 to R85) -/

namespace Sys2Proof

/-! ### The opcode map -/

/-- The commands of format N (30_encoding R81). -/
def formatN : List Instr := [.nop, .dictInit, .pInsert, .lpm, .encode, .decode, .pack, .unpack]

/-- Every command is of format N, C or T (30_encoding R81). -/
theorem Instr.format_cases (i : Instr) :
    i ∈ formatN ∨ (∃ c, i = .dread c) ∨ (∃ r b c, i = .tChild r b c) ∨ (∃ r b c, i = .tInsert r b c) := by
  cases i <;> simp [formatN]

theorem opcodeRow_mem_opcodeMap (i : Instr) : opcodeRow i ∈ opcodeMap := by
  cases i <;> simp [opcodeMap, opcodeRow]

/-- The rows of the opcode map are the rows of the commands. -/
theorem mem_opcodeMap_iff {row : OpcodeRow} : row ∈ opcodeMap ↔ ∃ i, opcodeRow i = row := by
  refine ⟨fun h => ?_, fun ⟨i, hi⟩ => hi ▸ opcodeRow_mem_opcodeMap i⟩
  simp only [opcodeMap, List.mem_cons, List.not_mem_nil, or_false] at h
  obtain rfl | rfl | rfl | rfl | rfl | rfl | rfl | rfl | rfl | rfl | rfl := h <;> exact ⟨_, rfl⟩

/-- An opcode is outside the table when it is no command's. -/
theorem reserved_iff {o : BitVec 7} : (∀ row ∈ opcodeMap, row.opc ≠ o) ↔ ∀ i, o ≠ (opcodeRow i).opc := by
  simp only [mem_opcodeMap_iff, forall_exists_index, forall_apply_eq_imp_iff, ne_comm]

/-- No two rows have the same opcode (30_encoding R83). -/
theorem opcodeMap_opc_injOn : ∀ row ∈ opcodeMap, ∀ row' ∈ opcodeMap, row.opc = row'.opc → row = row' := by decide

/-- The mask of every row covers OPC, and the row's word carries its opcode (30_encoding R83). -/
theorem opcField_opcodeRow : ∀ row ∈ opcodeMap, opcField row.mask = BitVec.allOnes 7 ∧ opcField row.word = row.opc := by decide

theorem encodedWordSelectsItsRow (i : Instr) : Laws.EncodedWordSelectsItsRow.Statement i := by
  cases i with
  | nop => exact Laws.EncodedWordSelectsItsRow.nop
  | dictInit => exact Laws.EncodedWordSelectsItsRow.dictInit
  | dread c => exact Laws.EncodedWordSelectsItsRow.dread c
  | tChild r b c => exact Laws.EncodedWordSelectsItsRow.tChild r b c
  | tInsert r b c => exact Laws.EncodedWordSelectsItsRow.tInsert r b c
  | pInsert => exact Laws.EncodedWordSelectsItsRow.pInsert
  | lpm => exact Laws.EncodedWordSelectsItsRow.lpm
  | encode => exact Laws.EncodedWordSelectsItsRow.encode
  | decode => exact Laws.EncodedWordSelectsItsRow.decode
  | pack => exact Laws.EncodedWordSelectsItsRow.pack
  | unpack => exact Laws.EncodedWordSelectsItsRow.unpack

theorem encode_of_mem_formatN : ∀ {i : Instr}, i ∈ formatN → encode i = assemble (opcodeRow i).opc false 0 0 := by decide

/-- A format-N row fixes every bit of its word (30_encoding R83). -/
theorem opcodeRow_of_mem_formatN : ∀ {i : Instr}, i ∈ formatN →
    (opcodeRow i).mask = BitVec.allOnes 32 ∧ (opcodeRow i).word = encode i := by decide

/-! ### The decoder, by the format of the opcode -/

section
variable {w : Word}

theorem decode_formatN {i : Instr} (hi : i ∈ formatN) (hopc : opcField w = (opcodeRow i).opc) : decode w = decodeFormatN w i := by
  simp only [formatN, List.mem_cons, List.not_mem_nil, or_false] at hi
  obtain rfl | rfl | rfl | rfl | rfl | rfl | rfl | rfl := hi <;> simp [decode, hopc, opcodeRow]

theorem decode_dread (hopc : opcField w = 0x02) : decode w = decodeFormatC w .dread := by simp [decode, hopc]

theorem decode_tChild (hopc : opcField w = 0x10) : decode w = decodeFormatT w .tChild := by simp [decode, hopc]

theorem decode_tInsert (hopc : opcField w = 0x11) : decode w = decodeFormatT w .tInsert := by simp [decode, hopc]

theorem decode_reserved (hopc : ∀ i, opcField w ≠ (opcodeRow i).opc) : decode w = .reject .reservedOpcode := by
  have hrow := reserved_iff.2 hopc
  simp only [opcodeMap, opcodeRow, List.forall_mem_cons, ne_eq, eq_comm (b := opcField w)] at hrow
  simp only [decode, hrow, if_false]

/-- A word of no command's opcode is the only one the decoder calls reserved (30_encoding R84). -/
theorem decode_eq_reserved_iff : decode w = .reject .reservedOpcode ↔ ∀ i, opcField w ≠ (opcodeRow i).opc := by
  refine ⟨fun h i hopc => ?_, decode_reserved⟩
  obtain hi | ⟨c, rfl⟩ | ⟨r, b, c, rfl⟩ | ⟨r, b, c, rfl⟩ := i.format_cases
  · rw [decode_formatN hi hopc, decodeFormatN] at h
    split at h <;> cases h
  · rw [decode_dread hopc, decodeFormatC] at h
    split at h <;> cases h
  · rw [decode_tChild hopc] at h
    cases h
  · rw [decode_tInsert hopc] at h
    cases h

/-! ### A legal word is the word of its command -/

theorem encode_of_mbzFormatN {i : Instr} (hi : i ∈ formatN) (hopc : opcField w = (opcodeRow i).opc) (hz : mbzFormatN w = 0) :
    encode i = w := by
  obtain ⟨hr, hb, hn⟩ := fields_of_mbzFormatN hz
  rw [encode_of_mem_formatN hi, ← assemble_fields w, hopc, hr, hb, hn]

theorem encode_of_mbzFormatC (hopc : opcField w = 0x02) (hz : mbzFormatC w = 0) : encode (.dread (nodeField w)) = w := by
  obtain ⟨hr, hb⟩ := fields_of_mbzFormatC hz
  conv_rhs => rw [← assemble_fields w, hopc, hr, hb]
  rfl

theorem encode_tChild_fields (hopc : opcField w = 0x10) : encode (.tChild (rField w) (byteField w) (nodeField w)) = w := by
  conv_rhs => rw [← assemble_fields w, hopc]
  rfl

theorem encode_tInsert_fields (hopc : opcField w = 0x11) : encode (.tInsert (rField w) (byteField w) (nodeField w)) = w := by
  conv_rhs => rw [← assemble_fields w, hopc]
  rfl

theorem decode_encode (i : Instr) : decode (encode i) = .instr i := by
  obtain hi | ⟨c, rfl⟩ | ⟨r, b, c, rfl⟩ | ⟨r, b, c, rfl⟩ := i.format_cases
  · rw [decode_formatN hi (encodedWordSelectsItsRow i).2, encode_of_mem_formatN hi]
    exact if_pos (mbzFormatN_assemble _)
  · rw [encode, decode_dread (opcField_assemble ..), decodeFormatC, nodeField_assemble]
    exact if_pos (mbzFormatC_assemble ..)
  · rw [encode, decode_tChild (opcField_assemble ..), decodeFormatT, rField_assemble, byteField_assemble, nodeField_assemble]
  · rw [encode, decode_tInsert (opcField_assemble ..), decodeFormatT, rField_assemble, byteField_assemble, nodeField_assemble]

theorem encode_of_decode {i : Instr} (h : decode w = .instr i) : encode i = w := by
  by_cases hres : ∀ j, opcField w ≠ (opcodeRow j).opc
  · rw [decode_reserved hres] at h
    cases h
  · obtain ⟨j, hopc⟩ := not_forall_not.1 hres
    obtain hj | ⟨c, rfl⟩ | ⟨r, b, c, rfl⟩ | ⟨r, b, c, rfl⟩ := j.format_cases
    · rw [decode_formatN hj hopc, decodeFormatN] at h
      split at h <;> cases h
      exact encode_of_mbzFormatN hj hopc ‹_›
    · rw [decode_dread hopc, decodeFormatC] at h
      split at h <;> cases h
      exact encode_of_mbzFormatC hopc ‹_›
    · rw [decode_tChild hopc] at h
      cases h
      exact encode_tChild_fields hopc
    · rw [decode_tInsert hopc] at h
      cases h
      exact encode_tInsert_fields hopc

theorem decode_eq_instr_iff {i : Instr} : decode w = .instr i ↔ encode i = w :=
  ⟨encode_of_decode, fun h => h ▸ decode_encode i⟩

/-! ### The word a row selects -/

/-- The mask of every row covers OPC, so a word that matches a row has the row's opcode (30_encoding R83). -/
theorem opcField_of_selects {row : OpcodeRow} (hrow : row ∈ opcodeMap) (h : w &&& row.mask = row.word) : opcField w = row.opc := by
  obtain ⟨hmask, hword⟩ := opcField_opcodeRow row hrow
  calc opcField w = opcField w &&& opcField row.mask := by rw [hmask, BitVec.and_allOnes]
    _ = opcField row.word := by rw [← h]; exact BitVec.extractLsb'_and.symm
    _ = row.opc := hword

/-- The mask of the format-C row covers the must-be-zero bits [24:16] too. -/
theorem mbzFormatC_of_selects (h : w &&& (opcodeRow (.dread 0)).mask = (opcodeRow (.dread 0)).word) : mbzFormatC w = 0 :=
  calc mbzFormatC w = mbzFormatC w &&& mbzFormatC (opcodeRow (.dread 0)).mask := (BitVec.and_allOnes).symm
    _ = mbzFormatC (opcodeRow (.dread 0)).word := by rw [← h]; exact BitVec.extractLsb'_and.symm
    _ = 0 := by decide

/-- A word that matches a row is the word of a command (30_encoding R83). -/
theorem exists_encode_of_selects {i : Instr} (h : w &&& (opcodeRow i).mask = (opcodeRow i).word) : ∃ j, encode j = w := by
  have hopc := opcField_of_selects (opcodeRow_mem_opcodeMap i) h
  obtain hi | ⟨c, rfl⟩ | ⟨r, b, c, rfl⟩ | ⟨r, b, c, rfl⟩ := i.format_cases
  · obtain ⟨hmask, hword⟩ := opcodeRow_of_mem_formatN hi
    rw [hmask, hword, BitVec.and_allOnes] at h
    exact ⟨i, h.symm⟩
  · exact ⟨_, encode_of_mbzFormatC hopc (mbzFormatC_of_selects h)⟩
  · exact ⟨_, encode_tChild_fields hopc⟩
  · exact ⟨_, encode_tInsert_fields hopc⟩

/-- The word of a command matches the command's row of the map (30_encoding R83). -/
theorem selects_of_encode {i : Instr} (h : encode i = w) : w &&& (opcodeRow i).mask = (opcodeRow i).word :=
  h ▸ (encodedWordSelectsItsRow i).1

end

/-- Settles O1, from the fields of an assembled word. -/
theorem decodeOfEncodeIsTheCommand : Obligations.DecodeOfEncodeIsTheCommand := decode_encode

/-- Settles O2: the fields of a legal word are those its command is assembled from. -/
theorem encodeOfDecodeIsTheWord : Obligations.EncodeOfDecodeIsTheWord := fun _ _ => encode_of_decode

/-- Settles O3: a word that matches a row has the row's opcode, and it is the word of a command. -/
theorem wordSelectsAtMostOneRow : Obligations.WordSelectsAtMostOneRow := by
  refine ⟨rfl, fun _ _ _ => rfl, fun w => ⟨?_, ?_, ?_, decode_eq_reserved_iff.trans reserved_iff.symm⟩⟩
  · intro row hrow row' hrow' h h'
    exact opcodeMap_opc_injOn row hrow row' hrow' ((opcField_of_selects hrow h).symm.trans (opcField_of_selects hrow' h'))
  · constructor
    · rintro ⟨i, hi⟩
      exact ⟨_, opcodeRow_mem_opcodeMap i, selects_of_encode (encode_of_decode hi)⟩
    · rintro ⟨row, hrow, h⟩
      obtain ⟨i, rfl⟩ := mem_opcodeMap_iff.1 hrow
      obtain ⟨j, hj⟩ := exists_encode_of_selects h
      exact ⟨j, decode_eq_instr_iff.2 hj⟩
  · intro i hi
    exact ⟨opcodeRow_mem_opcodeMap i, selects_of_encode (encode_of_decode hi)⟩

/-- Settles O6: the decoder run on each word. -/
theorem writtenOutWordsDecode : Obligations.WrittenOutWordsDecode := by
  unfold Obligations.WrittenOutWordsDecode
  decide

end Sys2Proof

/-! ## The command a CMD write performs (30_encoding R84, R85, R91) -/

namespace Sys2Proof.Machine

/-- The step of a CMD write on a block that is not busy (10_state R24). -/
theorem step_cmdWrite {s : State} {w : Word} {rest : List HostAction} (hb : s.busy = false)
    (hh : s.host = .regWrite (Reg.offset .cmd) 32 w :: rest) : step s = State.issue { s with host := rest } w := by
  rw [step_idle hb hh, State.perform, regAccess_of_defined (regAccessDefined_offset .cmd), if_pos rfl]

/-- The operand check of format T fails (41_prefix_trie R120). -/
theorem State.handle?_eq_none {s : State} {r : Bool} {node : Code}
    (h : (r = true ∧ node ≠ 0) ∨ (r = false ∧ s.nextCode.toNat ≤ node.toNat)) : s.handle? r node = none := by
  obtain ⟨rfl, hne⟩ | ⟨rfl, hle⟩ := h
  · rw [State.handle?, if_pos rfl, if_neg hne]
  · rw [State.handle?, if_neg Bool.false_ne_true, if_neg hle.not_gt]

section
variable {s : State} {r : Bool} {node : Code} (hd : s.dbk = .trie) (hh : s.handle? r node = none)
include hd hh

theorem execTChild_of_handle_none (b : Byte) : execTChild r b node s = .next (s.setRc .badOperand) := by
  obtain ⟨root, hroot⟩ := (State.dbk_eq_trie_iff s).1 hd
  simp [execTChild, hroot, hh]

theorem execTInsert_of_handle_none (b : Byte) : execTInsert r b node s = .next (s.setRc .badOperand) := by
  obtain ⟨root, hroot⟩ := (State.dbk_eq_trie_iff s).1 hd
  simp [execTInsert, hroot, hh]

end

/-- Settles O4: the opcodes of the table leave these ranges, and the decoder rejects a word of one of them. -/
theorem reservedOpcodeOnlySetsIllegalCmd : Obligations.ReservedOpcodeOnlySetsIllegalCmd := by
  refine ⟨fun o => ?_, fun s w hres => State.issue_of_reject (decode_reserved (reserved_iff.1 hres))⟩
  simp only [opcodeMap, opcodeRow, List.forall_mem_cons, List.not_mem_nil, false_implies, implies_true, and_true]
  bv_omega

/-- Settles O5: the check of each format, and on a TRIE dictionary the handle of format T. -/
theorem mustBeZeroBitsOnlySetIllegalCmd : Obligations.MustBeZeroBitsOnlySetIllegalCmd := by
  intro s w
  refine ⟨fun hopc hz => ?_, fun hopc hz => ?_, decode_tChild, decode_tInsert, fun hopc hd hbad => ?_⟩
  · obtain ⟨i, hi, hopc⟩ := List.mem_map (l := formatN) (f := fun i => (opcodeRow i).opc).1 hopc
    exact State.issue_of_reject ((decode_formatN hi hopc.symm).trans (if_neg hz))
  · exact State.issue_of_reject ((decode_dread hopc).trans (if_neg hz))
  · have hh := State.handle?_eq_none hbad
    simp only [List.mem_cons, List.not_mem_nil, or_false] at hopc
    obtain hopc | hopc := hopc
    · exact (State.issue_of_instr (decode_tChild hopc)).trans (execTChild_of_handle_none hd hh _)
    · exact (State.issue_of_instr (decode_tInsert hopc)).trans (execTInsert_of_handle_none hd hh _)

/-- Settles O7: the CMD write is a defined access, and it issues its word. -/
theorem stepPerformsTheDecodedCommand : Obligations.StepPerformsTheDecodedCommand := by
  intro s w rest hb hh
  have hstep := step_cmdWrite hb hh
  exact ⟨fun i hi => hstep.trans (State.issue_of_instr hi), fun r hr => hstep.trans (State.issue_of_reject hr)⟩

end Sys2Proof.Machine

/-! ## NOP, DICT_INIT and DREAD (40_dictionary_control R101, R102, R104) -/

namespace Sys2Proof

/-- The length of an OBUF is a 32-bit value (00_scope R7). -/
theorem Config.obufSize_lt {g : Config} (h : g.wf = true) : g.obufSize < 2 ^ 32 := by
  simp only [Config.wf, Config.sizesInRange, Bool.and_eq_true, decide_eq_true_eq] at h
  obtain ⟨-, -, hle⟩ := h
  omega

end Sys2Proof

namespace Sys2Proof.Machine

/-- A word of a format-N opcode performs its command, or sets ILLEGAL_CMD and nothing else (30_encoding R85, R91). -/
theorem State.issue_formatN {s : State} {w : Word} {i : Instr} (hi : i ∈ formatN) (hopc : opcField w = (opcodeRow i).opc) :
    s.issue w = if mbzFormatN w = 0 then exec i s else .next (s.setRc .illegalCmd) := by
  have hd := decode_formatN hi hopc
  split
  · exact State.issue_of_instr (hd.trans (if_pos ‹_›))
  · exact State.issue_of_reject (hd.trans (if_neg ‹_›))

/-- The state DREAD of code `c` with phrase `p` leaves, before STATUS.RC is written: the results, and as much of `p` as OBUF holds. -/
def State.withPhrase (s : State) (c : Code) (p : Phrase) : State :=
  ((s.setResCode c).setResLen (BitVec.ofNat 32 p.length)).putOutput (p.take s.cfg.obufSize)

/-- OUT_LEN counts the bytes delivered, without wrapping (20_memory R63, 00_scope R7). -/
theorem State.withPhrase_outLen_toNat {s : State} (c : Code) (p : Phrase) (hg : s.cfg.wf = true) :
    (s.withPhrase c p).outLen.toNat = min s.cfg.obufSize p.length := by
  have hlt := Config.obufSize_lt hg
  simp only [State.withPhrase, State.putOutput_outLen, List.length_take, BitVec.toNat_ofNat]
  omega

section
variable {s : State} {c : Code} {p : Phrase}

/-- DREAD of an assigned code delivers its phrase, and reports whether all of it fits (40_dictionary_control R104). -/
theorem execDread_of_phrase (hc : c.toNat < s.nextCode.toNat) (hp : s.dict.phrase? c = some p) :
    execDread c s = .next ((s.withPhrase c p).setRc (if s.cfg.obufSize < p.length then .overflow else .ok)) := by
  have hdeliver : execDread c s = s.deliverPhrase c p := by
    rw [execDread, State.codeAssigned, decide_eq_true hc, if_pos rfl, hp]
  rw [hdeliver, State.deliverPhrase, State.withPhrase]
  split
  · rfl
  · rw [List.take_of_length_le (by omega)]
    rfl

theorem State.withPhrase_obufAt_of_lt {i : Nat} (hi : i < s.cfg.obufSize) (hi' : i < p.length) :
    (s.withPhrase c p).obufAt i = p[i] := by
  rw [State.withPhrase, State.putOutput_obufAt, dif_pos (by rw [List.length_take]; omega), List.getElem_take]

theorem State.withPhrase_obufAt_of_le {i : Nat} (hi : min s.cfg.obufSize p.length ≤ i) :
    (s.withPhrase c p).obufAt i = s.obufAt i := by
  rw [State.withPhrase, State.putOutput_obufAt, dif_neg (by rw [List.length_take]; omega)]
  rfl

end

/-- Settles O36, from the phrases of the seeded dictionary. -/
theorem dictInitSeedsTheSelectedBackend : Obligations.DictInitSeedsTheSelectedBackend := by
  refine ⟨rfl, fun s w hopc hz => ?_, fun s => ⟨(s.dictInit s.ctrl).setRc .ok, rfl, rfl, ?_, rfl, ?_, ?_, rfl⟩⟩
  · exact (State.issue_formatN (i := .dictInit) (by decide) hopc).trans (if_neg hz)
  · exact Dict.backend_seed s.ctrl
  · exact decide_eq_true_iff
  · exact Dict.phrase?_seed s.ctrl

/-- Settles O37: the phrase fits, so all of it is delivered. -/
theorem dreadDeliversThePhrase : Obligations.DreadDeliversThePhrase := by
  intro s c p hg hc hp hfit
  have hmin : min s.cfg.obufSize p.length = p.length := Nat.min_eq_right hfit
  have he := execDread_of_phrase hc hp
  rw [if_neg hfit.not_gt] at he
  refine ⟨_, he, rfl, rfl, ?_, (State.withPhrase_outLen_toNat c p hg).trans hmin, fun i hi => ?_, fun i hi => ?_, rfl⟩
  · exact Nat.mod_eq_of_lt (hfit.trans_lt (Config.obufSize_lt hg))
  · exact State.withPhrase_obufAt_of_lt (by omega) hi
  · exact State.withPhrase_obufAt_of_le (hmin.trans_le hi)

/-- Settles O38: OBUF takes the beginning of the phrase, and the results are those of the whole phrase. -/
theorem dreadOverflowTruncates : Obligations.DreadOverflowTruncates := by
  intro s c p hg hc hp hlong
  have hmin : min s.cfg.obufSize p.length = s.cfg.obufSize := Nat.min_eq_left hlong.le
  have he := execDread_of_phrase hc hp
  rw [if_pos hlong] at he
  refine ⟨_, he, rfl, rfl, rfl, (State.withPhrase_outLen_toNat c p hg).trans hmin, fun i hi hi' => ?_, fun i hi => ?_, rfl⟩
  · exact State.withPhrase_obufAt_of_lt hi hi'
  · exact State.withPhrase_obufAt_of_le (hmin.trans_le hi)

/-- Settles O35: NOP is of format N, and only writes STATUS.RC. -/
theorem nopClearsTheStatus : Obligations.NopClearsTheStatus := by
  refine ⟨rfl, fun s => rfl, fun s w hopc => ?_⟩
  rw [State.issue_formatN (i := .nop) (by decide) hopc, mbzFormatN]
  split <;> rfl

end Sys2Proof.Machine

/-! ## T_CHILD and T_INSERT (41_prefix_trie R120 to R122) -/

namespace Sys2Proof.Machine

/-! ### The node of a handle -/

/-- The phrase of the node a handle names in a byte trie, the empty sequence for ROOT (41_prefix_trie R120). -/
def Forest.handlePhrase? (root : Forest) : Handle → Option Phrase
  | .root => some []
  | .node c => root.phrase? c

theorem State.handlePhrase?_of_trie {s : State} {root : Forest} (hroot : s.dict = .trie root) (r : Bool) (node : Code) :
    s.handlePhrase? r node = (s.handle? r node).bind root.handlePhrase? := by
  rw [State.handlePhrase?, hroot]
  rcases s.handle? r node with _ | _ | c <;> rfl

/-- The child at byte `b` of the node of phrase `q` is the node of phrase `q ++ [b]` (10_state R44, 41_prefix_trie R121, R124). -/
theorem TrieInv.childAt_eq_some_iff {root : Forest} {n : BitVec 17} (h : TrieInv root n) {a : Handle} {q : Phrase}
    (hq : root.handlePhrase? a = some q) (b : Byte) (c : Code) :
    root.childAt a b = some c ↔ root.phrase? c = some (q ++ [b]) := by
  rw [Forest.phrase?_eq_some_iff h.wf]
  cases a with
  | root =>
    cases hq
    simp [Forest.childAt, Forest.find?]
  | node parent =>
    rw [Forest.childAt_node h.wf hq]
    simp

theorem TrieInv.childAt_eq_none_iff {root : Forest} {n : BitVec 17} (h : TrieInv root n) {a : Handle} {q : Phrase}
    (hq : root.handlePhrase? a = some q) (b : Byte) : root.childAt a b = none ↔ ∀ c, root.phrase? c ≠ some (q ++ [b]) := by
  simp only [Option.eq_none_iff_forall_ne_some, ne_eq, h.childAt_eq_some_iff hq]

/-- A handle that has a phrase is valid and names a node of that phrase in the byte trie (41_prefix_trie R120). -/
theorem Inv.trie_of_handlePhrase {s : State} (h : Inv s) (hd : s.dbk = .trie) {r : Bool} {node : Code} {q : Phrase}
    (hq : s.handlePhrase? r node = some q) : ∃ root a, s.dict = .trie root ∧ TrieInv root s.nextCode ∧ s.handle? r node = some a ∧
      root.handlePhrase? a = some q := by
  obtain ⟨root, hroot⟩ := (State.dbk_eq_trie_iff s).1 hd
  rw [State.handlePhrase?_of_trie hroot] at hq
  obtain ⟨a, ha, hqa⟩ := Option.bind_eq_some_iff.1 hq
  have htrie := h.dict
  rw [hroot] at htrie
  exact ⟨root, a, hroot, htrie, ha, hqa⟩

/-! ### The two commands at a valid handle -/

theorem execTChild_of_patricia {s : State} (hd : s.dbk = .patricia) (r : Bool) (b : Byte) (node : Code) :
    execTChild r b node s = .next (s.setRc .illegalCmd) := by
  obtain ⟨root, hroot⟩ := (State.dbk_eq_patricia_iff s).1 hd
  simp [execTChild, hroot]

section
variable {s : State} {root : Forest} {r : Bool} {b : Byte} {node c : Code} {a : Handle}
variable (hroot : s.dict = .trie root) (ha : s.handle? r node = some a)
include hroot ha

theorem execTChild_of_child (hc : root.childAt a b = some c) : execTChild r b node s = .next ((s.setResCode c).setRc .hit) := by
  simp [execTChild, hroot, ha, hc]

theorem execTChild_of_no_child (hc : root.childAt a b = none) : execTChild r b node s = .next (s.setRc .miss) := by
  simp [execTChild, hroot, ha, hc]

/-- A frozen dictionary is reported before a child is looked up (60_exceptions R238). -/
theorem execTInsert_of_frozen (hfull : s.cfg.cap ≤ s.nextCode.toNat) : execTInsert r b node s = .next (s.setRc .full) := by
  simp [execTInsert, hroot, ha, State.frozen, hfull]

theorem execTInsert_of_child (hroom : s.nextCode.toNat < s.cfg.cap) (hc : root.childAt a b = some c) :
    execTInsert r b node s = .next ((s.setResCode c).setRc .duplicate) := by
  simp [execTInsert, hroot, ha, hc, State.frozen, hroom.not_ge]

theorem execTInsert_of_no_child (hroom : s.nextCode.toNat < s.cfg.cap) (hc : root.childAt a b = none) :
    execTInsert r b node s = .next (((s.setDict (.trie (root.attach a b (nextAsCode s.nextCode))) (s.nextCode + 1)).setResCode
      (nextAsCode s.nextCode)).setRc .inserted) := by
  simp [execTInsert, hroot, ha, hc, State.frozen, hroom.not_ge]

end

theorem eq_nextAsCode_iff {n : BitVec 17} (hn : n.toNat < 65536) (c : Code) : c = nextAsCode n ↔ c.toNat = n.toNat := by
  rw [← nextAsCode_toNat hn, BitVec.toNat_inj]

/-- T_CHILD at a handle whose node has phrase `q` looks up the phrase extended by the byte (41_prefix_trie R121). -/
theorem Inv.exec_tChild {s : State} (h : Inv s) (hd : s.dbk = .trie) {r : Bool} {node : Code} {q : Phrase}
    (hq : s.handlePhrase? r node = some q) (b : Byte) :
    (∀ c, s.dict.phrase? c = some (q ++ [b]) → exec (.tChild r b node) s = .next { s with rc := .hit, resCode := c }) ∧
    ((∀ c, s.dict.phrase? c ≠ some (q ++ [b])) → exec (.tChild r b node) s = .next { s with rc := .miss }) := by
  obtain ⟨root, a, hroot, htrie, ha, hqa⟩ := h.trie_of_handlePhrase hd hq
  refine ⟨fun c hc => execTChild_of_child (b := b) (c := c) hroot ha ?_, fun hnew => execTChild_of_no_child (b := b) hroot ha ?_⟩
  · rw [hroot] at hc
    exact (htrie.childAt_eq_some_iff hqa b c).2 hc
  · rw [hroot] at hnew
    exact (htrie.childAt_eq_none_iff hqa b).2 hnew

/-! ### The obligations of the byte trie -/

/-- Settles O39: the child of the handle's node is the node of the extended phrase, which at ROOT is a stored singleton. -/
theorem tChildFindsTheExtendedPhrase : Obligations.TChildFindsTheExtendedPhrase := by
  refine ⟨fun r b node => ?_, fun s r b node hd => execTChild_of_patricia hd r b node, fun s r b node hd hbad => ?_,
    fun s r b node q h hd hq => h.exec_tChild hd hq b, fun s b h hd => ?_⟩
  · exact ⟨opcField_assemble .., rField_assemble .., byteField_assemble .., nodeField_assemble ..⟩
  · exact execTChild_of_handle_none hd (State.handle?_eq_none hbad) b
  · have hroot : s.handlePhrase? true 0 = some [] := rfl
    exact (h.exec_tChild hd hroot b).1 b.code (h.dict.phrase_singleton b)

/-- Settles O40: a child is absent at a coded node only, and attaching it gives the next code the extended phrase. -/
theorem tInsertAssignsTheNextCode : Obligations.TInsertAssignsTheNextCode := by
  intro s r b node q h hd hq hroom hnew
  obtain ⟨root, a, hroot, htrie, ha, hqa⟩ := h.trie_of_handlePhrase hd hq
  have hn : s.nextCode.toNat < 65536 := hroom.trans_le h.cap_le
  rw [hroot] at hnew
  have habsent := (htrie.childAt_eq_none_iff hqa b).2 hnew
  obtain ⟨rfl, -⟩ := htrie.parent_of_absent ha habsent
  refine ⟨_, execTInsert_of_no_child hroot ha hroom habsent, rfl, nextAsCode_toNat hn, next_succ_toNat hn, rfl, fun c => ?_, rfl⟩
  rw [hroot]
  simp only [← eq_nextAsCode_iff hn]
  exact htrie.phrase_addUnder hn hqa b c

/-- Settles O41: the freeze is checked first, and a stored extended phrase is a child of the handle's node. -/
theorem tInsertFullBeforeDuplicate : Obligations.TInsertFullBeforeDuplicate := by
  intro s r b node q h hd hq
  obtain ⟨root, a, hroot, htrie, ha, hqa⟩ := h.trie_of_handlePhrase hd hq
  refine ⟨execTInsert_of_frozen hroot ha, fun c hroom hc => execTInsert_of_child (b := b) (c := c) hroot ha hroom ?_⟩
  rw [hroot] at hc
  exact (htrie.childAt_eq_some_iff hqa b c).2 hc

end Sys2Proof.Machine

/-! ## P_INSERT, LPM and the tree of ENCODE (42_patricia R140 to R149) -/

namespace Sys2Proof.Machine

/-! ### The longest match -/

/-- An empty buffer has no match, whatever the dictionary (42_patricia R145). -/
@[simp] theorem Dict.lpm_nil (d : Dict) : d.lpm [] = none := by
  cases d with
  | trie root => rfl
  | patricia root => cases root <;> rfl

section
variable {s : State} (hok : s.matchOk = true)
include hok

theorem execLpm_of_match {c : Code} {m : Nat} (hl : s.dict.lpm s.matchBuf = some (c, m)) :
    execLpm s = .next (((s.setResCode c).setResLen (BitVec.ofNat 32 m)).setRc .ok) := by
  rw [execLpm, if_pos hok, hl]
  rfl

theorem execLpm_of_no_match (hl : s.dict.lpm s.matchBuf = none) : execLpm s = .next ((s.setResLen 0).setRc .nomatch) := by
  rw [execLpm, if_pos hok, hl]
  rfl

end

/-- Settles O44: each structure's walk finds the longest stored beginning, and the stored singleton of the first byte is one. -/
theorem lpmAnswersTheLongestPrefix : Obligations.LpmAnswersTheLongestPrefix := by
  intro s h hin hpos
  have hok : s.matchOk = true := (State.matchOk_eq_true s).2 ⟨hin, hpos.le⟩
  have hbuf : s.matchBuf ≠ [] := by
    rw [← List.length_pos_iff, State.matchBuf, State.readIbuf_length]
    omega
  obtain ⟨c, p, hc, hpre, hl, hlen, hmax⟩ := h.dict.lpm_nonempty hbuf
  exact ⟨c, p, ⟨hc, hpre, hmax⟩, hlen, execLpm_of_match hok hl⟩

/-- Settles O45: at POS = IN_LEN the buffer is empty, and has no match. -/
theorem lpmOfNothingIsNomatch : Obligations.LpmOfNothingIsNomatch := by
  intro s hin hpos
  have hok : s.matchOk = true := (State.matchOk_eq_true s).2 ⟨hin, by rw [hpos]⟩
  have hbuf : s.matchBuf = [] := by
    rw [← List.length_eq_zero_iff, State.matchBuf, State.readIbuf_length, hpos, Nat.sub_self]
  exact execLpm_of_no_match hok (by rw [hbuf, Dict.lpm_nil])

/-! ### Insertion of a stored phrase and of a new one -/

section
variable {root : Radix} (hw : root.Wf) {b : Byte} {rest : List Byte} (c : Code)
include hw

theorem Radix.insert_of_stored {c' : Code} (hc : root.phrase? c' = some (b :: rest)) :
    root.insert c b rest = (root, .duplicate c') := by
  have hfind := (Radix.phrase?_eq_some_iff hw _ _).1 hc
  obtain ⟨x, hdup, hx⟩ | ⟨-, hnone, -⟩ := Radix.insert_spec root c b rest
  · rw [hdup, Option.some.inj (hx.symm.trans hfind)]
  · rw [hnone] at hfind
    cases hfind

theorem Radix.insert_of_new (hnew : ∀ c', root.phrase? c' ≠ some (b :: rest)) : (root.insert c b rest).2 = .inserted := by
  obtain ⟨x, -, hx⟩ | ⟨hins, -, -⟩ := Radix.insert_spec root c b rest
  · exact absurd ((Radix.phrase?_eq_some_iff hw _ _).2 hx) (hnew x)
  · exact hins

end

/-! ### P_INSERT of a phrase in range -/

/-- A phrase in range has a first byte (42_patricia R144). -/
theorem State.phrase_eq_cons {s : State} (hok : s.phraseOk = true) : ∃ b rest, s.phrase = b :: rest := by
  apply List.exists_cons_of_ne_nil
  rw [← List.length_pos_iff, State.phrase, State.readIbuf_length]
  exact Nat.pos_of_ne_zero ((State.phraseOk_eq_true s).1 hok).2.1

theorem Inv.patricia_of_dbk {s : State} (h : Inv s) (hd : s.dbk = .patricia) :
    ∃ root, s.dict = .patricia root ∧ PatriciaInv root s.nextCode := by
  obtain ⟨root, hroot⟩ := (State.dbk_eq_patricia_iff s).1 hd
  have hpat := h.dict
  rw [hroot] at hpat
  exact ⟨root, hroot, hpat⟩

section
variable {s : State} {root : Radix} {b : Byte} {rest : List Byte}
variable (hroot : s.dict = .patricia root) (hok : s.phraseOk = true)
include hroot hok

/-- A frozen dictionary is reported before the phrase is looked up (60_exceptions R238). -/
theorem execPInsert_of_frozen (hfull : s.cfg.cap ≤ s.nextCode.toNat) : execPInsert s = .next (s.setRc .full) := by
  simp [execPInsert, hroot, hok, State.frozen, hfull]

variable (hroom : s.nextCode.toNat < s.cfg.cap) (hp : s.phrase = b :: rest)
include hroom hp

theorem execPInsert_of_duplicate {root' : Radix} {c : Code} (hdup : root.insert (nextAsCode s.nextCode) b rest = (root', .duplicate c)) :
    execPInsert s = .next (((s.setResLen s.plen).setResCode c).setRc .duplicate) := by
  simp [execPInsert, hroot, hok, State.frozen, hroom.not_ge, hp, hdup]

theorem execPInsert_of_inserted (hins : (root.insert (nextAsCode s.nextCode) b rest).2 = .inserted) :
    execPInsert s = .next ((((s.setResLen s.plen).setResCode (nextAsCode s.nextCode)).setDict
      (.patricia (root.insert (nextAsCode s.nextCode) b rest).1) (s.nextCode + 1)).setRc .inserted) := by
  obtain ⟨root', hpair⟩ : ∃ root', root.insert (nextAsCode s.nextCode) b rest = (root', .inserted) := ⟨_, Prod.ext rfl hins⟩
  simp [execPInsert, hroot, hok, State.frozen, hroom.not_ge, hp, hpair]

end

/-- Settles O42: a phrase that is not stored is inserted, under a code that no node has yet. -/
theorem pInsertAssignsTheNextCode : Obligations.PInsertAssignsTheNextCode := by
  intro s h hd hin hlen hfit hroom hnew
  obtain ⟨root, hroot, hpat⟩ := h.patricia_of_dbk hd
  have hok : s.phraseOk = true := (State.phraseOk_eq_true s).2 ⟨hin, hlen, hfit⟩
  obtain ⟨b, rest, hp⟩ := State.phrase_eq_cons hok
  have hn : s.nextCode.toNat < 65536 := hroom.trans_le h.cap_le
  rw [hroot, ← State.phrase, hp] at hnew
  have hins := Radix.insert_of_new hpat.wf (nextAsCode s.nextCode) hnew
  refine ⟨_, execPInsert_of_inserted hroot hok hroom hp hins, rfl, nextAsCode_toNat hn, rfl, next_succ_toNat hn, rfl, fun c => ?_, rfl⟩
  rw [hroot, ← State.phrase, hp]
  simp only [← eq_nextAsCode_iff hn]
  exact Radix.phrase?_insert hpat.wf (hpat.codes.not_mem_next hn) hins c

/-- Settles O43: the freeze is checked first, and inserting a stored phrase answers its code and leaves the tree. -/
theorem pInsertFullBeforeDuplicate : Obligations.PInsertFullBeforeDuplicate := by
  intro s h hd hin hlen hfit
  obtain ⟨root, hroot, hpat⟩ := h.patricia_of_dbk hd
  have hok : s.phraseOk = true := (State.phraseOk_eq_true s).2 ⟨hin, hlen, hfit⟩
  obtain ⟨b, rest, hp⟩ := State.phrase_eq_cons hok
  refine ⟨execPInsert_of_frozen hroot hok, fun c hroom hc => ?_⟩
  rw [hroot, ← State.phrase, hp] at hc
  exact execPInsert_of_duplicate hroot hok hroom hp (Radix.insert_of_stored hpat.wf _ hc)

/-! ### The tree ENCODE builds -/

/-- The dictionary ENCODE in range leaves is the byte trie of its input, in the structure of the selected backend (42_patricia R149). -/
theorem execEncode_dict {s s' : State} (hcap : s.cfg.cap ≤ 65536) (hin : s.inLen.toNat ≤ s.cfg.ibufSize)
    (he : execEncode s = .next s') : s'.dict = Dict.ofForest s.ctrl (encTrie s.cfg.cap s.input Forest.seed 256).dict := by
  obtain ⟨hout, -⟩ | ⟨-, rfl⟩ := execEncode_cases he
  · exact absurd hout hin.not_gt
  · simp [State.encodeRun_eq hcap]

/-- Settles O50: on both backends ENCODE leaves the byte trie of the same input. -/
theorem encodeNeverSplitsAnEdge : Obligations.EncodeNeverSplitsAnEdge := by
  intro s s' t' hg hin hs ht
  have hcap := (Config.cap_bounds hg).2
  exact ⟨_, execEncode_dict (s := { s with ctrl := .trie }) hcap hin ht,
    execEncode_dict (s := { s with ctrl := .patricia }) hcap hin hs⟩

end Sys2Proof.Machine

/-! ## ENCODE (43_encoder R170 to R176) -/

namespace Sys2Proof.Machine

/-- What the byte-trie loop of ENCODE leaves on the input of `s`: the codes both backends emit, and the tree both build (43_encoder R173,
42_patricia R149). -/
def State.encodedTrie (s : State) : EncodeRun Forest := encTrie s.cfg.cap s.input Forest.seed 256

/-- The state ENCODE in range leaves, written with the byte-trie loop on either backend; `execEncode_eq` ties it to the command. -/
def State.encoded (s : State) : State :=
  ((s.setDict (Dict.ofForest s.ctrl s.encodedTrie.dict) s.encodedTrie.next).putCodes s.encodedTrie.codes).setRc .ok

/-- The run of ENCODE is made from the input bytes and CAP alone (43_encoder R176). -/
theorem State.encodedTrie_congr {s t : State} (hcap : s.cfg.cap = t.cfg.cap) (hlen : s.inLen = t.inLen)
    (hbuf : ∀ i, i < s.inLen.toNat → s.ibufAt i = t.ibufAt i) : s.encodedTrie = t.encodedTrie := by
  have hinput : s.input = t.input := by
    refine List.ext_getElem (by simp [State.input, hlen]) fun i hi hi' => ?_
    simp only [State.input, State.readIbuf_length] at hi
    simpa [State.input] using hbuf i hi
  rw [State.encodedTrie, State.encodedTrie, hcap, hinput]

section
variable {s : State} (hg : s.cfg.wf = true)
include hg

/-- ENCODE emits at most one code per byte of its input (43_encoder R175). -/
theorem State.encodedTrie_codes_length_le : s.encodedTrie.codes.length ≤ s.inLen.toNat := by
  obtain ⟨hlow, hhigh⟩ := Config.cap_bounds hg
  obtain ⟨hlen, -⟩ := encTrie_size hhigh hlow s.input
  exact hlen.trans_eq (s.readIbuf_length 0 s.inLen.toNat)

/-- CODE_LEN counts the codes emitted, without wrapping (20_memory R62, 00_scope R7). -/
theorem State.encoded_codeLen_toNat : s.encoded.codeLen.toNat = s.encodedTrie.codes.length :=
  Nat.mod_eq_of_lt ((State.encodedTrie_codes_length_le hg).trans_lt s.inLen.isLt)

/-- The abstract encode of the input emits the codes of the byte-trie loop, and lists its phrases (43_encoder R173). -/
theorem State.lzwEncode_input : (lzwEncode s.cfg.cap s.input).codes = s.encodedTrie.codes ∧
    Listed s.encodedTrie.dict s.encodedTrie.next (lzwEncode s.cfg.cap s.input).phrases :=
  lzwEncode_eq (Config.cap_bounds hg).2 (Config.cap_bounds hg).1 s.input

variable (hin : s.inLen.toNat ≤ s.cfg.ibufSize)
include hin

theorem execEncode_eq : execEncode s = .next s.encoded := by
  rw [execEncode_of_inLenOk (decide_eq_true hin), State.encodeRun_eq (Config.cap_bounds hg).2]
  rfl

theorem eq_encoded_of_exec {s' : State} (he : exec .encode s = .next s') : s' = s.encoded := by
  have hnext : Host.Outcome.next s' = .next s.encoded := he.symm.trans (execEncode_eq hg hin)
  injection hnext

end

section
variable (s : State) {i : Nat}

theorem State.encoded_cbufAt_of_lt (hi : i < s.encodedTrie.codes.length) : s.encoded.cbufAt i = s.encodedTrie.codes[i] := by
  rw [State.encoded, State.setRc_cbufAt, State.putCodes_cbufAt, dif_pos hi]

theorem State.encoded_cbufAt_of_le (hi : s.encodedTrie.codes.length ≤ i) : s.encoded.cbufAt i = s.cbufAt i := by
  rw [State.encoded, State.setRc_cbufAt, State.putCodes_cbufAt, dif_neg hi.not_gt, State.setDict_cbufAt]

end

/-- Settles O47: the abstract encode emits the codes of the byte-trie loop, and the tree of that loop, in the structure of either backend,
holds the phrases it lists. -/
theorem encodeComputesLzwEncode : Obligations.EncodeComputesLzwEncode := by
  intro s s' hg hin he
  obtain rfl := eq_encoded_of_exec hg hin he
  obtain ⟨hcodes, hlisted⟩ := State.lzwEncode_input hg
  rw [← State.input]
  refine ⟨?_, fun i hi => ?_, fun c => ?_, hlisted.len.symm⟩
  · rw [State.encoded_codeLen_toNat hg, hcodes]
  · simp only [hcodes] at hi ⊢
    exact s.encoded_cbufAt_of_lt hi
  · exact (Dict.phrase?_ofForest s.ctrl _ c).trans (hlisted.at_ c)

/-- Settles O48, from the size laws of the byte-trie loop. -/
theorem encodeOutputSize : Obligations.EncodeOutputSize := by
  intro s s' hg hpos hin he
  obtain rfl := eq_encoded_of_exec hg hin he
  obtain ⟨hlow, hhigh⟩ := Config.cap_bounds hg
  have hne : s.input ≠ [] := by
    rw [← List.length_pos_iff, State.input, State.readIbuf_length]
    exact hpos
  obtain ⟨-, -, -, hsize, hbelow⟩ := encTrie_size hhigh hlow s.input
  obtain ⟨hone, hnext⟩ := hsize hne
  rw [State.encoded_codeLen_toNat hg]
  refine ⟨hone, State.encodedTrie_codes_length_le hg, fun i hi => ?_, hhigh, hnext⟩
  rw [s.encoded_cbufAt_of_lt hi]
  exact hbelow i _ (List.getElem?_eq_getElem hi)

/-- Settles O49: both states run the byte-trie loop on the same bytes. -/
theorem encodeDependsOnlyOnItsInput : Obligations.EncodeDependsOnlyOnItsInput := by
  intro s t s' t' hgs hgt hcap hlen hins hint hbuf hes het
  obtain rfl := eq_encoded_of_exec hgs hins hes
  obtain rfl := eq_encoded_of_exec hgt hint het
  have hrun : s.encodedTrie = t.encodedTrie := State.encodedTrie_congr hcap hlen hbuf
  refine ⟨BitVec.eq_of_toNat_eq ?_, fun i hi => ?_⟩
  · rw [State.encoded_codeLen_toNat hgs, State.encoded_codeLen_toNat hgt, hrun]
  · rw [State.encoded_codeLen_toNat hgs] at hi
    rw [s.encoded_cbufAt_of_lt hi, t.encoded_cbufAt_of_lt (hrun ▸ hi)]
    simp only [hrun]

/-- Settles O46: a block write of the codes leaves CBUF beyond them. -/
theorem encodeCompletes : Obligations.EncodeCompletes := by
  intro s hg hin
  have hlen := State.encoded_codeLen_toNat hg
  refine ⟨s.encoded, execEncode_eq hg hin, rfl, Dict.backend_ofForest s.ctrl _, ?_, fun i hi => ?_, rfl⟩
  · exact hlen.trans_le (State.encodedTrie_codes_length_le hg)
  · exact s.encoded_cbufAt_of_le (hlen.symm.trans_le hi)

end Sys2Proof.Machine

/-! ## DECODE (44_decoder R190 to R198) -/

namespace Sys2Proof.Machine

/-! ### What a code stands for -/

@[simp] theorem DecodeRun.emit_chunks (p : Phrase) (r : DecodeRun) : (r.emit p).chunks = p :: r.chunks := rfl

@[simp] theorem DecodeRun.emit_badAt (p : Phrase) (r : DecodeRun) : (r.emit p).badAt = r.badAt := rfl

/-- The table starts with each byte's singleton at the byte's own index (44_decoder R190). -/
theorem singletons_getElem?_byte (b : Byte) : singletons[b.toNat]? = some [b] := by
  simp [singletons, List.getElem?_range b.isLt]

theorem length_of_mem_singletons {p : Phrase} (hp : p ∈ singletons) : p.length = 1 := by
  obtain ⟨b, -, rfl⟩ := List.mem_map.1 hp
  rfl

section
variable {cap : Nat} {table : List Phrase} {prev cur : Phrase} {c : Code}

theorem growTable_of_lt (h : table.length < cap) : growTable cap table prev cur = table ++ [prev ++ cur.take 1] := if_pos h

/-- A frozen table stays as it is (44_decoder R194). -/
theorem growTable_of_le (h : cap ≤ table.length) : growTable cap table prev cur = table := if_neg h.not_gt

theorem resolveCode_of_entry (h : c.toNat < table.length) : resolveCode cap table prev c = some table[c.toNat] := by
  rw [resolveCode, if_pos h, List.getElem?_eq_getElem h]

/-- The KwKwK case (44_decoder R192). -/
theorem resolveCode_of_next (h : c.toNat = table.length) (hroom : table.length < cap) :
    resolveCode cap table prev c = some (prev ++ prev.take 1) := by
  rw [resolveCode, if_neg h.not_lt, if_pos ⟨h, hroom⟩]

/-- A code that is no entry of a frozen table is bad (44_decoder R193). -/
theorem resolveCode_of_frozen (h : table.length ≤ c.toNat) (hfull : cap ≤ table.length) : resolveCode cap table prev c = none := by
  rw [resolveCode, if_neg h.not_gt, if_neg fun hn => hfull.not_gt hn.2]

/-- A code beyond the next unused index is bad (44_decoder R193). -/
theorem resolveCode_of_gt (h : table.length < c.toNat) : resolveCode cap table prev c = none := by
  rw [resolveCode, if_neg h.le.not_gt, if_neg fun hn => h.ne' hn.1]

/-- Neither an entry nor the next unused index reaches CAP (44_decoder R194). -/
theorem lt_cap_of_resolveCode (hT : table.length ≤ cap) (h : resolveCode cap table prev c = some cur) : c.toNat < cap := by
  by_contra hge
  obtain hfull | hroom := hT.eq_or_lt
  · rw [resolveCode_of_frozen (by omega) hfull.ge] at h
    cases h
  · rw [resolveCode_of_gt (by omega)] at h
    cases h

end

/-! ### The runs of LZWDecode -/

section
variable {cap : Nat} {table : List Phrase} {prev : Phrase} {c : Code}

theorem lzwDecodeLoop_of_bad (codes : List Code) (i : Nat) (h : resolveCode cap table prev c = none) :
    lzwDecodeLoop cap (c :: codes) i table prev = ⟨[], some i⟩ := by rw [lzwDecodeLoop, h]

theorem lzwDecodeLoop_of_resolved {cur : Phrase} (codes : List Code) (i : Nat) (h : resolveCode cap table prev c = some cur) :
    lzwDecodeLoop cap (c :: codes) i table prev =
      (lzwDecodeLoop cap codes (i + 1) (growTable cap table prev cur) cur).emit cur := by rw [lzwDecodeLoop, h]

theorem lzwDecode_of_singleton {p : Phrase} (codes : List Code) (h : singletons[c.toNat]? = some p) :
    lzwDecode cap (c :: codes) = (lzwDecodeLoop cap codes 1 singletons p).emit p := by rw [lzwDecode, h]

theorem lzwDecode_of_lt (codes : List Code) (h : c.toNat < 256) :
    lzwDecode cap (c :: codes) = (lzwDecodeLoop cap codes 1 singletons [c.setWidth 8]).emit [c.setWidth 8] := by
  have hc : (c.setWidth 8).toNat = c.toNat := by rw [BitVec.toNat_setWidth]; omega
  exact lzwDecode_of_singleton codes (hc ▸ singletons_getElem?_byte (c.setWidth 8))

/-- The first code must be a singleton (44_decoder R193). -/
theorem lzwDecode_of_ge (codes : List Code) (h : 256 ≤ c.toNat) : lzwDecode cap (c :: codes) = ⟨[], some 0⟩ := by
  rw [lzwDecode, List.getElem?_eq_none (singletons_length.trans_le h)]

end

/-- A run of `n` codes from index `i` gives a sequence for each of them, or for those before the one bad code whose index it gives
(44_decoder R191, R193). -/
def DecodeRun.Covers (r : DecodeRun) (i n : Nat) : Prop :=
  (r.badAt = none ∧ r.chunks.length = n) ∨ (r.badAt = some (i + r.chunks.length) ∧ r.chunks.length < n)

theorem DecodeRun.Covers.emit {r : DecodeRun} {i n : Nat} (h : r.Covers (i + 1) n) (p : Phrase) : (r.emit p).Covers i (n + 1) := by
  simp only [DecodeRun.Covers, DecodeRun.emit_badAt, DecodeRun.emit_chunks, List.length_cons]
  obtain ⟨hnone, hlen⟩ | ⟨hbad, hlen⟩ := h
  · exact .inl ⟨hnone, by omega⟩
  · exact .inr ⟨by rw [hbad, Nat.add_right_comm, Nat.add_assoc], by omega⟩

theorem DecodeRun.Covers.chunks_length_le {r : DecodeRun} {i n : Nat} (h : r.Covers i n) : r.chunks.length ≤ n := by
  obtain ⟨-, hlen⟩ | ⟨-, hlen⟩ := h <;> omega

theorem lzwDecodeLoop_covers (cap : Nat) (codes : List Code) (i : Nat) (table : List Phrase) (prev : Phrase) :
    (lzwDecodeLoop cap codes i table prev).Covers i codes.length := by
  induction codes generalizing i table prev with
  | nil => exact .inl ⟨rfl, rfl⟩
  | cons c codes ih =>
    cases hc : resolveCode cap table prev c with
    | none => exact lzwDecodeLoop_of_bad codes i hc ▸ .inr ⟨rfl, Nat.succ_pos _⟩
    | some cur => exact lzwDecodeLoop_of_resolved codes i hc ▸ (ih (i + 1) _ cur).emit cur

theorem lzwDecode_covers (cap : Nat) (codes : List Code) : (lzwDecode cap codes).Covers 0 codes.length := by
  cases codes with
  | nil => exact .inl ⟨rfl, rfl⟩
  | cons c codes =>
    obtain hlt | hge := Nat.lt_or_ge c.toNat 256
    · exact lzwDecode_of_lt codes hlt ▸ (lzwDecodeLoop_covers cap codes 1 singletons _).emit _
    · exact lzwDecode_of_ge codes hge ▸ .inr ⟨rfl, Nat.succ_pos _⟩

/-- The loop only goes past codes below CAP, as its table never passes CAP (44_decoder R194). -/
theorem lzwDecodeLoop_codes_lt {cap : Nat} {codes : List Code} {i : Nat} {table : List Phrase} {prev : Phrase} (hT : table.length ≤ cap)
    (h : (lzwDecodeLoop cap codes i table prev).badAt = none) : ∀ c ∈ codes, c.toNat < cap := by
  induction codes generalizing i table prev with
  | nil => simp
  | cons c codes ih =>
    cases hc : resolveCode cap table prev c with
    | none =>
      rw [lzwDecodeLoop_of_bad codes i hc] at h
      cases h
    | some cur =>
      rw [lzwDecodeLoop_of_resolved codes i hc] at h
      exact List.forall_mem_cons.2 ⟨lt_cap_of_resolveCode hT hc, ih (growTable_length_le hT prev cur) h⟩

/-- A decoding without a bad code has every code below CAP (44_decoder R194). -/
theorem lzwDecode_codes_lt {cap : Nat} {codes : List Code} (hcap : 256 ≤ cap) (h : (lzwDecode cap codes).badAt = none) :
    ∀ c ∈ codes, c.toNat < cap := by
  cases codes with
  | nil => simp
  | cons c codes =>
    obtain hlt | hge := Nat.lt_or_ge c.toNat 256
    · rw [lzwDecode_of_lt codes hlt] at h
      exact List.forall_mem_cons.2 ⟨hlt.trans_le hcap, lzwDecodeLoop_codes_lt (singletons_length.trans_le hcap) h⟩
    · rw [lzwDecode_of_ge codes hge] at h
      cases h

/-- The first code is bad exactly when it is no singleton (44_decoder R193): the loop's indices start at 1. -/
theorem lzwDecode_badAt_zero_iff {cap : Nat} {c : Code} {codes : List Code} :
    256 ≤ c.toNat ↔ (lzwDecode cap (c :: codes)).badAt = some 0 := by
  refine ⟨fun hge => by rw [lzwDecode_of_ge codes hge], fun h => ?_⟩
  by_contra hlt
  rw [lzwDecode_of_lt codes (Nat.lt_of_not_le hlt), DecodeRun.emit_badAt] at h
  obtain ⟨hnone, -⟩ | ⟨hbad, -⟩ := lzwDecodeLoop_covers cap codes 1 singletons [c.setWidth 8]
  · cases hnone.symm.trans h
  · have := Option.some.inj (hbad.symm.trans h)
    omega

/-- Settles O54, from what a code stands for and what a run covers. -/
theorem codesResolveOrAreBad : Obligations.CodesResolveOrAreBad := by
  refine ⟨fun cap table prev c => ⟨resolveCode_of_entry, resolveCode_of_next, fun h => resolveCode_of_frozen h.ge, resolveCode_of_gt⟩,
    fun cap table prev cur => ⟨growTable_of_lt, growTable_of_le⟩,
    fun cap i table prev c codes => ⟨rfl, lzwDecodeLoop_of_bad codes i, fun cur hc => ?_⟩,
    ⟨singletons_length, singletons_getElem?_byte⟩,
    fun cap c codes => ⟨lzwDecode_badAt_zero_iff, fun hge => ?_, fun hlt => ?_⟩,
    fun cap codes => lzwDecode_codes_lt⟩
  · rw [lzwDecodeLoop_of_resolved codes i hc]
    exact ⟨rfl, rfl⟩
  · rw [lzwDecode_of_ge codes hge]
  · rw [lzwDecode_of_lt codes hlt]
    exact ⟨rfl, rfl⟩

/-! ### The three ends of DECODE in range (44_decoder R195) -/

/-- OUT_LEN counts an output that fits, without wrapping (20_memory R63, 00_scope R7). -/
theorem State.putOutput_outLen_toNat {s : State} {bs : List Byte} (hg : s.cfg.wf = true) (hfit : bs.length ≤ s.cfg.obufSize) :
    (s.putOutput bs).outLen.toNat = bs.length :=
  Nat.mod_eq_of_lt (hfit.trans_lt (Config.obufSize_lt hg))

theorem State.putOutput_obufAt_of_lt {s : State} {bs : List Byte} {i : Nat} (hi : i < bs.length) : (s.putOutput bs).obufAt i = bs[i] := by
  rw [State.putOutput_obufAt, dif_pos hi]

theorem State.putOutput_obufAt_of_le {s : State} {bs : List Byte} {i : Nat} (hi : bs.length ≤ i) :
    (s.putOutput bs).obufAt i = s.obufAt i := by
  rw [State.putOutput_obufAt, dif_neg hi.not_gt]

/-- A run of DECODE covers CBUF[0..CODE_LEN). -/
theorem State.decodeRun_covers (s : State) : s.decodeRun.Covers 0 s.codeLen.toNat := by
  have h := lzwDecode_covers s.cfg.cap s.codes
  rwa [State.codes, State.readCbuf_length] at h

section
variable {s : State} (hok : s.codeLen.toNat ≤ s.cfg.cbufSize)
include hok

/-- DECODE whose output does not fit (60_exceptions R235). -/
theorem execDecode_of_overflow {i : Nat} (hi : i < s.decodeRun.chunks.length)
    (hfit : (s.decodeRun.chunks.take i).flatten.length ≤ s.cfg.obufSize)
    (hover : s.cfg.obufSize < (s.decodeRun.chunks.take (i + 1)).flatten.length) :
    execDecode s = .next (((s.putOutput (s.decodeRun.chunks.flatten.take s.cfg.obufSize)).setErrIndex (BitVec.ofNat 32 i)).setRc
      .overflow) := by
  have hplace := place_of_overflow (size := s.cfg.obufSize) s.decodeRun.chunks 0 0 i hi (by omega) (by omega)
  rw [Nat.sub_zero, Nat.zero_add, State.decodeRun] at hplace
  simp only [execDecode, State.codeLenOk, decide_eq_true hok, if_true, hplace, State.raise, State.decodeRun]

variable {chunks : List Phrase} (hfit : chunks.flatten.length ≤ s.cfg.obufSize)
include hfit

theorem execDecode_of_badCode {i : Nat} (hrun : s.decodeRun = ⟨chunks, some i⟩) :
    execDecode s = .next (((s.putOutput chunks.flatten).setErrIndex (BitVec.ofNat 32 i)).setRc .badCode) := by
  have hplace := place_of_fits (size := s.cfg.obufSize) chunks 0 0 (by omega)
  rw [State.decodeRun] at hrun
  simp only [execDecode, State.codeLenOk, decide_eq_true hok, if_true, hrun, hplace, State.raise]

theorem execDecode_of_good (hrun : s.decodeRun = ⟨chunks, none⟩) :
    execDecode s = .next ((s.putOutput chunks.flatten).setRc .ok) := by
  have hplace := place_of_fits (size := s.cfg.obufSize) chunks 0 0 (by omega)
  rw [State.decodeRun] at hrun
  simp only [execDecode, State.codeLenOk, decide_eq_true hok, if_true, hrun, hplace, State.finish]

end

/-- Settles O51: the whole output is placed and written. -/
theorem decodeWritesTheDecoding : Obligations.DecodeWritesTheDecoding := by
  intro s chunks hg hok hrun hfit
  exact ⟨_, execDecode_of_good hok hfit hrun, rfl, State.putOutput_outLen_toNat hg hfit,
    fun i hi => State.putOutput_obufAt_of_lt hi, fun i hi => State.putOutput_obufAt_of_le hi, rfl⟩

/-- Settles O52: the run gives a sequence for each code before the bad one. -/
theorem decodeStopsAtABadCode : Obligations.DecodeStopsAtABadCode := by
  intro s chunks i hg hok hrun hfit
  have hcovers : DecodeRun.Covers ⟨chunks, some i⟩ 0 s.codeLen.toNat := hrun ▸ s.decodeRun_covers
  obtain ⟨hnone, -⟩ | ⟨hbad, hlen⟩ := hcovers
  · cases hnone
  obtain rfl : i = chunks.length := (Option.some.inj hbad).trans (Nat.zero_add _)
  exact ⟨rfl, hlen, _, execDecode_of_badCode hok hfit hrun, rfl, Nat.mod_eq_of_lt (hlen.trans s.codeLen.isLt),
    State.putOutput_outLen_toNat hg hfit, fun j hj => State.putOutput_obufAt_of_lt hj, fun j hj => State.putOutput_obufAt_of_le hj, rfl⟩

/-- Settles O53: the whole output is longer than OBUF, so its beginning fills OBUF. -/
theorem decodeOverflowTruncates : Obligations.DecodeOverflowTruncates := by
  rintro s _ i hg hok rfl hi hfit hover
  have hlong : s.cfg.obufSize ≤ s.decodeRun.chunks.flatten.length :=
    hover.le.trans (List.take_prefix _ _).flatten.length_le
  have hlen : (s.decodeRun.chunks.flatten.take s.cfg.obufSize).length = s.cfg.obufSize := List.length_take_of_le hlong
  have hindex : i < 2 ^ 32 := (hi.trans_le s.decodeRun_covers.chunks_length_le).trans s.codeLen.isLt
  have hout := (State.putOutput_outLen_toNat hg hlen.le).trans hlen
  refine ⟨_, execDecode_of_overflow hok hi hfit hover, rfl, Nat.mod_eq_of_lt hindex, hout, fun j hj => ?_,
    fun j hj => State.putOutput_obufAt_of_le (hlen.trans_le hj), rfl⟩
  have hj' : j < s.decodeRun.chunks.flatten.length := hj.trans_le hlong
  calc some ((s.putOutput (s.decodeRun.chunks.flatten.take s.cfg.obufSize)).obufAt j)
      = some s.decodeRun.chunks.flatten[j] := by rw [State.putOutput_obufAt_of_lt (hlen.symm ▸ hj), List.getElem_take]
    _ = s.decodeRun.chunks.flatten[j]? := (List.getElem?_eq_getElem hj').symm

/-! ### The round trip (44_decoder R198) -/

/-- A freshly seeded dictionary matches the first byte and no more (43_encoder R170). -/
theorem longestMatch_singletons (b : Byte) (rest : List Byte) :
    ∃ c : Code, longestMatch singletons (b :: rest) = some (c, 1) ∧ singletons[c.toNat]? = some [b] := by
  have hsome : (longestMatch singletons (b :: rest)).isSome :=
    longestStored_exists (j := 0) (by simp) (by simpa using codeOf?_singleton (List.prefix_refl singletons) b)
  obtain ⟨⟨c, m⟩, hm⟩ := Option.isSome_iff_exists.1 hsome
  obtain ⟨hcode, -, hle⟩ := longestStored_some hm
  have hentry := codeOf?_spec (by simp) hcode
  obtain rfl : m = 1 := by
    have hlen := length_of_mem_singletons (List.mem_of_getElem? hentry)
    rw [List.length_take] at hlen
    omega
  exact ⟨c, hm, hentry⟩

/-- LZWDecode undoes LZWEncode (44_decoder R198): after the first code the decoder's table is one entry behind the encoder's dictionary,
which `decode_encodeLoop` carries through the rest. -/
theorem decode_encode_lzw {cap : Nat} (hlow : 256 ≤ cap) (hhigh : cap ≤ 65536) (input : List Byte) :
    (lzwDecode cap (lzwEncode cap input).codes).badAt = none ∧
    (lzwDecode cap (lzwEncode cap input).codes).chunks.flatten = input := by
  cases input with
  | nil => exact ⟨rfl, rfl⟩
  | cons b rest =>
    obtain ⟨c, hmatch, hentry⟩ := longestMatch_singletons b rest
    have hgrow : ∀ b' more, rest = b' :: more →
        (if 1 < (b :: rest).length ∧ singletons.length < cap then singletons ++ [(b :: rest).take (1 + 1)] else singletons) =
          growTable cap singletons [b] [b'] := by
      rintro b' more rfl
      simp [growTable]
    obtain ⟨hgood, hrest⟩ := decode_encodeLoop hhigh rest.length rest le_rfl singletons [b] 1 (List.cons_ne_nil b [])
      (List.prefix_refl singletons) (singletons_length.trans_le hlow) _ hgrow
    simp only [lzwEncode, List.length_cons, lzwEncodeLoop, hmatch, lzwDecode_of_singleton _ hentry] at hgood hrest ⊢
    exact ⟨hgood, congrArg (b :: ·) hrest⟩

section
variable {s : State} (hg : s.cfg.wf = true)
include hg

/-- CBUF[0..CODE_LEN) after ENCODE is the code sequence of the abstract encode (43_encoder R173). -/
theorem State.encoded_codes : s.encoded.codes = (lzwEncode s.cfg.cap s.input).codes := by
  obtain ⟨hcodes, -⟩ := State.lzwEncode_input hg
  rw [hcodes, State.codes, State.encoded_codeLen_toNat hg]
  refine List.ext_getElem (State.readCbuf_length ..) fun i _ hi => ?_
  rw [State.readCbuf_getElem, Nat.zero_add, s.encoded_cbufAt_of_lt hi]

/-- The decoder's run on what ENCODE wrote (44_decoder R198). -/
theorem State.encoded_decodeRun : ∃ chunks, s.encoded.decodeRun = ⟨chunks, none⟩ ∧ chunks.flatten = s.input := by
  obtain ⟨hlow, hhigh⟩ := Config.cap_bounds hg
  obtain ⟨hgood, hinput⟩ := decode_encode_lzw hlow hhigh s.input
  refine ⟨_, ?_, hinput⟩
  rw [← hgood, ← State.encoded_codes hg]
  rfl

end

/-- Settles O55: the codes fit CBUF, the input fits OBUF, and the decoder's run on the codes of ENCODE gives the input. -/
theorem decodeOfEncodeIsTheInput : Obligations.DecodeOfEncodeIsTheInput := by
  intro s s1 hg hin he
  obtain rfl := eq_encoded_of_exec hg hin he
  obtain ⟨chunks, hrun, hchunks⟩ := State.encoded_decodeRun hg
  obtain ⟨hic, hco⟩ := Config.size_bounds hg
  have hlen : s.input.length = s.inLen.toNat := s.readIbuf_length 0 s.inLen.toNat
  have hok : s.encoded.codeLen.toNat ≤ s.cfg.cbufSize :=
    (State.encoded_codeLen_toNat hg).trans_le ((State.encodedTrie_codes_length_le hg).trans (hin.trans hic))
  have hfit : chunks.flatten.length ≤ s.cfg.obufSize := by
    rw [hchunks, hlen]
    omega
  refine ⟨_, execDecode_of_good (s := s.encoded) hok hfit hrun, rfl, ?_, fun i hi => ?_⟩
  · simp [hchunks, hlen]
  · simp only [State.setRc_obufAt, hchunks]
    rw [State.putOutput_obufAt_of_lt (hlen.symm ▸ hi)]
    simp [State.input]

end Sys2Proof.Machine

/-! ## PACK and UNPACK (45_stream R210 to R214) -/

namespace Sys2Proof.Machine

/-- The two bytes of a code, high byte first, are the code (00_scope R16). -/
theorem codeHigh_append_codeLow (c : Code) : (codeHigh c ++ codeLow c : BitVec 16) = c :=
  (BitVec.extractLsb'_append_extractLsb'_eq_extractLsb' (start₂ := 8) (start₁ := 0) rfl).trans BitVec.extractLsb'_eq_self

/-! ### PACK -/

/-- What PACK in range leaves: the byte stream of the codes in OBUF (45_stream R210). -/
def State.packed (s : State) : State := (s.putOutput (packCodes s.codes)).setRc .ok

theorem execPack_of_out_of_range {s : State} (hout : s.cfg.cbufSize < s.codeLen.toNat) : execPack s = .next (s.setRc .badOperand) :=
  if_neg (by simpa [State.codeLenOk] using hout)

theorem execPack_of_in_range {s : State} (hin : s.codeLen.toNat ≤ s.cfg.cbufSize) : execPack s = .next s.packed :=
  if_pos (decide_eq_true hin)

theorem State.packCodes_codes_length (s : State) : (packCodes s.codes).length = 2 * s.codeLen.toNat := by
  rw [packCodes_length, State.codes, State.readCbuf_length]

/-- OUT_LEN counts two bytes for each code, without wrapping (20_memory R63, 00_scope R7). -/
theorem State.packed_outLen_toNat {s : State} (hg : s.cfg.wf = true) (hin : s.codeLen.toNat ≤ s.cfg.cbufSize) :
    s.packed.outLen.toNat = 2 * s.codeLen.toNat := by
  have hlen := s.packCodes_codes_length
  have hsize := (Config.size_bounds hg).2
  exact (State.putOutput_outLen_toNat hg (by omega)).trans hlen

theorem State.packed_obufAt_of_lt {s : State} {i : Nat} (hi : i < s.codeLen.toNat) :
    s.packed.obufAt (2 * i) = codeHigh (s.cbufAt i) ∧ s.packed.obufAt (2 * i + 1) = codeLow (s.cbufAt i) := by
  have hlen := s.packCodes_codes_length
  have hcode : s.codes[i]? = some (s.cbufAt i) := by simp [State.codes, State.readCbuf, hi]
  obtain ⟨hhigh, hlow⟩ := packCodes_getElem? s.codes i
  rw [hcode] at hhigh hlow
  simp only [State.packed, State.setRc_obufAt]
  rw [State.putOutput_obufAt_of_lt (by omega), State.putOutput_obufAt_of_lt (by omega)]
  exact ⟨(List.getElem_eq_iff _).2 hhigh, (List.getElem_eq_iff _).2 hlow⟩

theorem State.packed_obufAt_of_le {s : State} {j : Nat} (hj : 2 * s.codeLen.toNat ≤ j) : s.packed.obufAt j = s.obufAt j :=
  State.putOutput_obufAt_of_le (s.packCodes_codes_length.trans_le hj)

/-- Settles O56, from the bytes of each code of CBUF. -/
theorem packWritesBigEndianPairs : Obligations.PackWritesBigEndianPairs := by
  refine ⟨rfl, fun s w hopc hz => ?_, fun s hout => execPack_of_out_of_range hout, fun s hg hin => ?_⟩
  · exact (State.issue_formatN (i := .pack) (by decide) hopc).trans (if_neg hz)
  · exact ⟨s.packed, execPack_of_in_range hin, rfl, State.packed_outLen_toNat hg hin,
      fun i hi => State.packed_obufAt_of_lt hi, fun j hj => State.packed_obufAt_of_le hj, rfl⟩

/-! ### UNPACK -/

/-- What UNPACK in range leaves: the codes of the byte stream in CBUF (45_stream R211). -/
def State.unpacked (s : State) : State := (s.putCodes (unpackBytes s.input)).setRc .ok

theorem execUnpack_of_out_of_range {s : State} (hout : s.cfg.ibufSize < s.inLen.toNat) :
    execUnpack s = .next (s.setRc .badOperand) :=
  if_neg (by simpa [State.inLenOk] using hout)

theorem execUnpack_of_in_range {s : State} (hin : s.inLen.toNat ≤ s.cfg.ibufSize) : execUnpack s = .next s.unpacked :=
  if_pos (decide_eq_true hin)

theorem State.unpackBytes_input_length (s : State) : (unpackBytes s.input).length = s.inLen.toNat / 2 := by
  rw [unpackBytes_length, State.input, State.readIbuf_length]

/-- CODE_LEN counts a code for each whole byte pair, without wrapping (20_memory R62). -/
theorem State.unpacked_codeLen_toNat (s : State) : s.unpacked.codeLen.toNat = s.inLen.toNat / 2 := by
  have hlt := s.inLen.isLt
  simp only [State.unpacked, State.setRc_codeLen, State.putCodes_codeLen, State.unpackBytes_input_length, BitVec.toNat_ofNat]
  omega

theorem State.unpacked_cbufAt_of_lt {s : State} {i : Nat} (hi : i < s.inLen.toNat / 2) :
    s.unpacked.cbufAt i = s.ibufAt (2 * i) ++ s.ibufAt (2 * i + 1) := by
  have hlen : s.input.length = s.inLen.toNat := s.readIbuf_length 0 s.inLen.toNat
  have hpair := unpackBytes_getElem? s.input i (by omega)
  rw [State.unpacked, State.setRc_cbufAt, State.putCodes_cbufAt, dif_pos (s.unpackBytes_input_length.symm ▸ hi),
    (List.getElem_eq_iff _).2 hpair]
  simp only [State.input, State.readIbuf_getElem, Nat.zero_add]

theorem State.unpacked_cbufAt_of_le {s : State} {j : Nat} (hj : s.inLen.toNat / 2 ≤ j) : s.unpacked.cbufAt j = s.cbufAt j := by
  rw [State.unpacked, State.setRc_cbufAt, State.putCodes_cbufAt, dif_neg (s.unpackBytes_input_length.trans_le hj).not_gt]

/-- Settles O57, from the byte pair of each code of CBUF and its value. -/
theorem unpackReadsBigEndianPairs : Obligations.UnpackReadsBigEndianPairs := by
  refine ⟨rfl, fun s w hopc hz => ?_, fun s hout => execUnpack_of_out_of_range hout, fun s _ hin => ?_⟩
  · exact (State.issue_formatN (i := .unpack) (by decide) hopc).trans (if_neg hz)
  · refine ⟨s.unpacked, execUnpack_of_in_range hin, rfl, s.unpacked_codeLen_toNat, fun i hi => ?_,
      fun j hj => State.unpacked_cbufAt_of_le hj, rfl⟩
    rw [State.unpacked_cbufAt_of_lt hi, code_pair_toNat]

/-! ### The round trip (45_stream R214) -/

/-- Settles O58: each code of UNPACK is the byte pair PACK wrote of a code, and a code is its two bytes. -/
theorem unpackOfPackIsTheCodes : Obligations.UnpackOfPackIsTheCodes := by
  intro s s1 t t1 _ _ hk hpack hlen hin hcopy hunpack
  obtain ⟨-, (rfl : s1 = s.packed)⟩ := (execPack_cases hpack).resolve_left fun hout => hk.not_gt hout.1
  obtain ⟨-, (rfl : t1 = t.unpacked)⟩ := (execUnpack_cases hunpack).resolve_left fun hout => hin.not_gt hout.1
  refine ⟨BitVec.eq_of_toNat_eq ?_, fun i hi => ?_⟩
  · exact t.unpacked_codeLen_toNat.trans (by omega)
  · obtain ⟨hhigh, hlow⟩ := State.packed_obufAt_of_lt hi
    calc t.unpacked.cbufAt i = t.ibufAt (2 * i) ++ t.ibufAt (2 * i + 1) := State.unpacked_cbufAt_of_lt (by omega)
      _ = s.packed.obufAt (2 * i) ++ s.packed.obufAt (2 * i + 1) := by rw [hcopy _ (by omega), hcopy _ (by omega)]
      _ = codeHigh (s.cbufAt i) ++ codeLow (s.cbufAt i) := by rw [hhigh, hlow]
      _ = s.cbufAt i := codeHigh_append_codeLow _

end Sys2Proof.Machine

/-! ## How a command ends: ILLEGAL_CMD, BAD_OPERAND, or performed (60_exceptions R230, R232, R233) -/

namespace Sys2Proof.Machine

/-! ### The operand checks of the commands are the rows of R233 -/

theorem operandOutOfRange_tChild_iff {r : Bool} {b : Byte} {node : Code} {s : State} :
    operandOutOfRange (.tChild r b node) s ↔ s.handle? r node = none := by
  refine ⟨State.handle?_eq_none, fun h => ?_⟩
  cases r
  · exact .inr ⟨rfl, by simpa [State.handle?] using h⟩
  · exact .inl ⟨rfl, by simpa [State.handle?] using h⟩

theorem operandOutOfRange_tInsert_iff {r : Bool} {b : Byte} {node : Code} {s : State} :
    operandOutOfRange (.tInsert r b node) s ↔ s.handle? r node = none :=
  operandOutOfRange_tChild_iff (b := b)

theorem operandOutOfRange_pInsert_iff {s : State} : operandOutOfRange .pInsert s ↔ s.phraseOk = false := by
  rw [← Bool.not_eq_true, State.phraseOk_eq_true, operandOutOfRange]
  omega

theorem operandOutOfRange_lpm_iff {s : State} : operandOutOfRange .lpm s ↔ s.matchOk = false := by
  rw [← Bool.not_eq_true, State.matchOk_eq_true, operandOutOfRange]
  omega

/-! ### The backend tag of a structure (10_state R49) -/

theorem State.dbk_of_dict_trie {s : State} {root : Forest} (h : s.dict = .trie root) : s.dbk = .trie :=
  (State.dbk_eq_trie_iff s).2 ⟨root, h⟩

theorem State.dbk_of_dict_patricia {s : State} {root : Radix} (h : s.dict = .patricia root) : s.dbk = .patricia :=
  (State.dbk_eq_patricia_iff s).2 ⟨root, h⟩

/-! ### The three ways a command ends -/

/-- How command `i`, taking `s` to `s'`, ends: on the wrong backend, with an operand rejected, or performed with a result code of its
column that is neither of those errors (60_exceptions R230, R238). -/
inductive CommandEnd (i : Instr) (s s' : State) : Prop where
  /-- The command does not run on the current backend (60_exceptions R232). -/
  | wrongBackend (hm : backendMismatch i s.dbk = true) (hs : s' = s.setRc .illegalCmd)
  /-- An operand is out of range (60_exceptions R233), or DREAD finds no phrase, which no run reaches (log 7). -/
  | rejected (hm : backendMismatch i s.dbk = false)
      (hout : operandOutOfRange i s ∨ ∃ c, i = .dread c ∧ s.dict.phrase? c = none) (hs : s' = s.setRc .badOperand)
  /-- The backend and the operands are accepted. -/
  | performed (hm : backendMismatch i s.dbk = false) (hin : ¬ operandOutOfRange i s) (hrc : s'.rc ∈ reportable i)
      (hill : s'.rc ≠ .illegalCmd) (hbad : s'.rc ≠ .badOperand)

theorem execTChild_end {r : Bool} {b : Byte} {node : Code} {s s' : State} (he : execTChild r b node s = .next s') :
    CommandEnd (.tChild r b node) s s' := by
  have accepted {a : Handle} (hh : s.handle? r node = some a) : ¬ operandOutOfRange (.tChild r b node) s := by
    simp [operandOutOfRange_tChild_iff, hh]
  obtain ⟨hd, rfl⟩ | ⟨hd, hh, rfl⟩ | ⟨root, a, hroot, hh, -, rfl⟩ | ⟨root, a, c, hroot, hh, -, rfl⟩ := execTChild_cases he
  · exact .wrongBackend (by rw [hd]; rfl) rfl
  · exact .rejected (by rw [hd]; rfl) (.inl (operandOutOfRange_tChild_iff.2 hh)) rfl
  all_goals exact .performed (by rw [State.dbk_of_dict_trie hroot]; rfl) (accepted hh) (by simp [reportable]) nofun nofun

theorem execTInsert_end {r : Bool} {b : Byte} {node : Code} {s s' : State} (he : execTInsert r b node s = .next s') :
    CommandEnd (.tInsert r b node) s s' := by
  have accepted {a : Handle} (hh : s.handle? r node = some a) : ¬ operandOutOfRange (.tInsert r b node) s := by
    simp [operandOutOfRange_tInsert_iff, hh]
  obtain ⟨hd, rfl⟩ | ⟨hd, hh, rfl⟩ | ⟨root, a, hroot, hh, -, rfl⟩ | ⟨root, a, c, hroot, hh, -, -, rfl⟩ |
    ⟨root, a, hroot, hh, -, -, rfl⟩ := execTInsert_cases he
  · exact .wrongBackend (by rw [hd]; rfl) rfl
  · exact .rejected (by rw [hd]; rfl) (.inl (operandOutOfRange_tInsert_iff.2 hh)) rfl
  all_goals exact .performed (by rw [State.dbk_of_dict_trie hroot]; rfl) (accepted hh) (by simp [reportable]) nofun nofun

theorem execPInsert_end {s s' : State} (he : execPInsert s = .next s') : CommandEnd .pInsert s s' := by
  have accepted (hok : s.phraseOk = true) : ¬ operandOutOfRange .pInsert s := by simp [operandOutOfRange_pInsert_iff, hok]
  obtain ⟨hd, rfl⟩ | ⟨hd, hok, rfl⟩ | ⟨root, hroot, hok, -, rfl⟩ | ⟨root, _, _, _, _, hroot, hok, -, -, -, rfl⟩ |
    ⟨root, _, _, _, hroot, hok, -, -, -, rfl⟩ := execPInsert_cases he
  · exact .wrongBackend (by rw [hd]; rfl) rfl
  · exact .rejected (by rw [hd]; rfl) (.inl (operandOutOfRange_pInsert_iff.2 hok)) rfl
  all_goals exact .performed (by rw [State.dbk_of_dict_patricia hroot]; rfl) (accepted hok) (by simp [reportable]) nofun nofun

theorem execDread_end {c : Code} {s s' : State} (he : execDread c s = .next s') : CommandEnd (.dread c) s s' := by
  obtain ⟨p, hc, -, -, rfl⟩ | ⟨p, hc, -, -, rfl⟩ | ⟨hout | hnone, rfl⟩ := execDread_cases he
  · exact .performed rfl hc.not_ge (by simp [reportable]) nofun nofun
  · exact .performed rfl hc.not_ge (by simp [reportable]) nofun nofun
  · exact .rejected rfl (.inl hout) rfl
  · exact .rejected rfl (.inr ⟨c, rfl, hnone⟩) rfl

theorem execLpm_end {s s' : State} (he : execLpm s = .next s') : CommandEnd .lpm s s' := by
  have accepted (hok : s.matchOk = true) : ¬ operandOutOfRange .lpm s := by simp [operandOutOfRange_lpm_iff, hok]
  obtain ⟨hok, rfl⟩ | ⟨hok, -, rfl⟩ | ⟨c, m, hok, -, rfl⟩ := execLpm_cases he
  · exact .rejected rfl (.inl (operandOutOfRange_lpm_iff.2 hok)) rfl
  all_goals exact .performed rfl (accepted hok) (by simp [reportable]) nofun nofun

theorem execDecode_end {s s' : State} (he : execDecode s = .next s') : CommandEnd .decode s s' := by
  obtain ⟨hout, rfl⟩ | ⟨i, hin, -, rfl⟩ | ⟨i, hin, -, -, rfl⟩ | ⟨hin, -, -, rfl⟩ := execDecode_cases he
  · exact .rejected rfl (.inl hout) rfl
  all_goals exact .performed rfl hin.not_gt (by simp [reportable]) nofun nofun

/-- Every command ends in one of the three ways (60_exceptions R230, R232, R233). -/
theorem exec_end {i : Instr} {s s' : State} (he : exec i s = .next s') : CommandEnd i s s' := by
  cases i with
  | nop =>
    obtain rfl := (State.finish_eq_next ..).1 he
    exact .performed rfl not_false (by simp [reportable]) nofun nofun
  | dictInit =>
    obtain rfl := (State.finish_eq_next ..).1 he
    exact .performed rfl not_false (by simp [reportable]) nofun nofun
  | dread node => exact execDread_end he
  | tChild r byte node => exact execTChild_end he
  | tInsert r byte node => exact execTInsert_end he
  | pInsert => exact execPInsert_end he
  | lpm => exact execLpm_end he
  | encode =>
    obtain ⟨hout, rfl⟩ | ⟨hin, rfl⟩ := execEncode_cases he
    · exact .rejected rfl (.inl hout) rfl
    · exact .performed rfl hin.not_gt (by simp [reportable]) nofun nofun
  | decode => exact execDecode_end he
  | pack =>
    obtain ⟨hout, rfl⟩ | ⟨hin, rfl⟩ := execPack_cases he
    · exact .rejected rfl (.inl hout) rfl
    · exact .performed rfl hin.not_gt (by simp [reportable]) nofun nofun
  | unpack =>
    obtain ⟨hout, rfl⟩ | ⟨hin, rfl⟩ := execUnpack_cases he
    · exact .rejected rfl (.inl hout) rfl
    · exact .performed rfl hin.not_gt (by simp [reportable]) nofun nofun

/-! ### The two errors stand in the column of a command that can raise them -/

theorem illegalCmd_mem_reportable {i : Instr} {bk : Backend} (hm : backendMismatch i bk = true) : .illegalCmd ∈ reportable i := by
  cases i <;> simp [backendMismatch, reportable] at hm ⊢

theorem badOperand_mem_reportable {i : Instr} {s : State}
    (hout : operandOutOfRange i s ∨ ∃ c, i = .dread c ∧ s.dict.phrase? c = none) : .badOperand ∈ reportable i := by
  cases i <;> simp [operandOutOfRange, reportable] at hout ⊢

/-! ### When each error is reported -/

theorem CommandEnd.illegalCmd_iff {i : Instr} {s s' : State} (h : CommandEnd i s s') :
    s'.rc = .illegalCmd ↔ backendMismatch i s.dbk = true := by
  cases h with
  | wrongBackend hm hs => simp [hm, hs]
  | rejected hm _ hs => simp [hm, hs]
  | performed hm _ _ hill _ => simp [hm, hill]

/-- Under the invariant an assigned code has a phrase, so DREAD rejects unassigned codes only (10_state R40). -/
theorem Inv.operandOutOfRange_of_rejected {i : Instr} {s : State} (h : Inv s)
    (hout : operandOutOfRange i s ∨ ∃ c, i = .dread c ∧ s.dict.phrase? c = none) : operandOutOfRange i s := by
  obtain hout | ⟨c, rfl, hnone⟩ := hout
  · exact hout
  · have hc := h.dict.phrase_isSome_iff c
    rw [hnone] at hc
    exact Nat.not_lt.1 fun hlt => Bool.false_ne_true (hc.2 hlt)

theorem CommandEnd.badOperand_iff {i : Instr} {s s' : State} (h : CommandEnd i s s') (hinv : Inv s)
    (hm : backendMismatch i s.dbk = false) : s'.rc = .badOperand ↔ operandOutOfRange i s := by
  cases h with
  | wrongBackend hm' _ => simp [hm] at hm'
  | rejected _ hout hs => simp [hs, hinv.operandOutOfRange_of_rejected hout]
  | performed _ hin _ _ hbad => simp [hin, hbad]

theorem CommandEnd.rc_mem_reportable {i : Instr} {s s' : State} (h : CommandEnd i s s') : s'.rc ∈ reportable i := by
  cases h with
  | wrongBackend hm hs => exact hs ▸ illegalCmd_mem_reportable hm
  | rejected _ hout hs => exact hs ▸ badOperand_mem_reportable hout
  | performed _ _ hrc _ _ => exact hrc

/-- A command that reports one of the two errors has written STATUS.RC and nothing else (60_exceptions R232, R233). -/
theorem CommandEnd.eq_setRc {i : Instr} {s s' : State} (h : CommandEnd i s s')
    (hrc : s'.rc = .illegalCmd ∨ s'.rc = .badOperand) : s' = s.setRc s'.rc := by
  cases h with
  | wrongBackend _ hs => rw [hs]; rfl
  | rejected _ _ hs => rw [hs]; rfl
  | performed _ _ _ hill hbad => exact (hrc.elim hill hbad).elim

/-! ### The obligations -/

/-- Settles O24, from the ways a command ends. -/
theorem everyCommandReportsAResult : Obligations.EveryCommandReportsAResult := by
  intro i s
  obtain ⟨s', he⟩ := exec_answers i s
  exact ⟨s', he, (exec_end he).rc_mem_reportable⟩

/-- Settles O30: a word that is no command is rejected, and a command reports ILLEGAL_CMD on the wrong backend only. -/
theorem illegalCmdExactlyWhenListed : Obligations.IllegalCmdExactlyWhenListed := by
  intro s w
  obtain ⟨s', hs'⟩ := s.issue_answers w
  cases hd : decode w with
  | reject r =>
    have hissue := State.issue_of_reject (s := s) hd
    refine ⟨⟨fun _ => .inl ⟨r, rfl⟩, fun _ => ⟨_, hissue, rfl⟩⟩, fun t ht _ => ?_⟩
    rw [hissue] at ht
    injection ht with ht
    exact ht.symm
  | instr i =>
    rw [State.issue_of_instr hd] at hs' ⊢
    refine ⟨?_, fun t ht hrc => hrc ▸ (exec_end ht).eq_setRc (.inl hrc)⟩
    simp [hs', (exec_end hs').illegalCmd_iff]

/-- Settles O31: a command on its own backend is performed exactly when its operands are in range. -/
theorem badOperandExactlyWhenListed : Obligations.BadOperandExactlyWhenListed := by
  intro i s hinv hm
  obtain ⟨s', hs'⟩ := exec_answers i s
  refine ⟨?_, fun t ht hrc => hrc ▸ (exec_end ht).eq_setRc (.inr hrc)⟩
  simp [hs', (exec_end hs').badOperand_iff hinv hm]

end Sys2Proof.Machine

/-! ## RESET, host-protocol violations and the failure of a step (70_reset R260, R261, R264, R265, R273) -/

namespace Sys2Proof.Machine

/-! ### RESET -/

/-- RESET is taken whenever the block is not busy (70_reset R260). -/
theorem step_reset {s : State} {rest : List HostAction} (hb : s.busy = false) (hh : s.host = .reset :: rest) :
    step s = .next (State.resetAction { s with host := rest }) :=
  step_idle hb hh

/-- After RESET every buffer element holds the free value of the next draw (20_memory R76). -/
theorem State.bufAt_resetAction (s : State) (i : Nat) :
    s.resetAction.ibufAt i = Config.freeIbuf (s.draw + 1) i ∧ s.resetAction.cbufAt i = Config.freeCbuf (s.draw + 1) i ∧
    s.resetAction.obufAt i = Config.freeObuf (s.draw + 1) i :=
  ⟨rfl, rfl, rfl⟩

/-- Settles O15: the registers are those of `State.resetOf`, the dictionary is the seeded one, and the buffers are unwritten. -/
theorem resetActionReseedsTheBlock : Obligations.ResetActionReseedsTheBlock := by
  intro s rest hb hh
  exact ⟨_, step_reset hb hh, rfl, rfl, rfl, rfl, rfl, rfl, rfl, rfl, rfl, rfl, rfl, rfl, rfl, rfl, rfl, rfl,
    Dict.backend_seed .trie, Dict.phrase?_seed .trie, State.bufAt_resetAction { s with host := rest }⟩

/-! ### The block while it is busy -/

theorem isStatusRead_iff (a : HostAction) : isStatusRead a = true ↔ a = .regRead 0x04 32 := by
  cases a with
  | regRead offset width =>
    rw [isStatusRead, Bool.and_eq_true, decide_eq_true_iff, decide_eq_true_iff, HostAction.regRead.injEq]
    rfl
  | _ => simp [isStatusRead]

/-- While BUSY = 1 the read of STATUS is performed and every other action is a violation (70_reset R264, R265). -/
theorem State.take_busy {s : State} (h : s.busy = true) (a : HostAction) :
    s.take a = if a = .regRead 0x04 32 then s.perform a else .fault .hostProtocol := by
  by_cases ha : a = .regRead 0x04 32
  · simp [State.take, h, ha, (isStatusRead_iff _).2]
  · have hread : isStatusRead a = false := Bool.eq_false_iff.2 (mt (isStatusRead_iff a).1 ha)
    simp [State.take, h, ha, hread]

/-- A read of STATUS returns it, busy or not (70_reset R264). -/
theorem State.perform_statusRead (s : State) : s.perform (.regRead 0x04 32) = s.returned s.status := rfl

/-- Settles O9: what a busy block does with an action other than the read of STATUS, and with that read. -/
theorem hostActionWhileBusyFaults : Obligations.HostActionWhileBusyFaults := by
  intro s a rest hb hh
  have hstep := (step_of_cons hh).trans (State.take_busy (by exact hb) a)
  refine ⟨fun ha => hstep.trans (if_neg ha), ?_⟩
  rintro rfl
  exact hstep.trans ((if_pos rfl).trans (State.perform_statusRead _))

/-! ### Where a step faults -/

theorem regAccess_ne_fault {offset width : Nat} {go : Outcome} (hgo : ∃ s', go = .next s') (f : Fault) :
    regAccess offset width go ≠ .fault f := by
  obtain ⟨s', rfl⟩ := hgo
  unfold regAccess
  split <;> exact nofun

theorem bufAccess_ne_fault {size i : Nat} {go : Outcome} (hgo : ∃ s', go = .next s') (f : Fault) :
    bufAccess size i go ≠ .fault f := by
  obtain ⟨s', rfl⟩ := hgo
  unfold bufAccess
  split <;> exact nofun

/-- An action that is performed never faults: it answers a next state or is refused (60_exceptions R236). -/
theorem State.perform_ne_fault (s : State) (a : HostAction) (f : Fault) : s.perform a ≠ .fault f := by
  cases a with
  | regRead offset width => exact regAccess_ne_fault ⟨_, rfl⟩ f
  | regWrite offset width v =>
    refine regAccess_ne_fault ?_ f
    split
    · exact s.issue_answers v
    · exact ⟨_, rfl⟩
  | ibufRead i | ibufWrite i b | cbufRead i | cbufWrite i c | obufRead i | obufWrite i b => exact bufAccess_ne_fault ⟨_, rfl⟩ f
  | reset => exact nofun

/-- The one fault of a step is the host-protocol violation (70_reset R265). -/
theorem step_eq_fault_iff (s : State) :
    step s = .fault .hostProtocol ↔ s.busy = true ∧ ∃ a rest, s.host = a :: rest ∧ a ≠ .regRead 0x04 32 := by
  constructor
  · intro h
    cases hh : s.host with
    | nil => simp [step_of_nil hh] at h
    | cons a rest =>
      cases hb : s.busy with
      | false => exact absurd ((step_idle hb hh).symm.trans h) (State.perform_ne_fault _ a _)
      | true =>
        refine ⟨rfl, a, rest, rfl, fun ha => ?_⟩
        rw [(hostActionWhileBusyFaults s a rest hb hh).2 ha] at h
        cases h
  · rintro ⟨hb, a, rest, hh, ha⟩
    exact (hostActionWhileBusyFaults s a rest hb hh).1 ha

/-! ### When a step fails -/

/-- The error class is the four codes of its row (60_exceptions R231). -/
theorem rcClass_eq_error_iff (rc : RC) : rcClass rc = .error ↔ rc ∈ [RC.badCode, .overflow, .illegalCmd, .badOperand] := by
  cases rc <;> decide

/-- A register write that answers a next state was made on a block that is not busy, 32 bits wide (10_state R38, 70_reset R265). -/
theorem idle_of_regWrite_answers {s s' : State} {offset width : Nat} {w : Word} {rest : List HostAction}
    (hh : s.host = .regWrite offset width w :: rest) (hs : step s = .next s') : s.busy = false ∧ width = 32 := by
  cases hb : s.busy with
  | true =>
    rw [(hostActionWhileBusyFaults s _ rest hb hh).1 nofun] at hs
    cases hs
  | false =>
    refine ⟨rfl, ?_⟩
    rw [step_idle hb hh, State.perform, regAccess] at hs
    split at hs
    · next hd => exact ((regAccessDefined_iff offset width).1 hd).1
    · cases hs

/-- A step fails in two ways: the next state of a CMD write reports an error, or the step is a fault (70_reset R273). -/
theorem stepFails_iff (s : State) : stepFails s = true ↔
    (∃ width w rest s', s.host = .regWrite (Reg.offset .cmd) width w :: rest ∧ step s = .next s' ∧ rcClass s'.rc = .error) ∨
    step s = .fault .hostProtocol := by
  unfold stepFails
  split
  · next offset width w rest s' hh hs =>
    simp [hh, hs]
  · next hs => simp [hs]
  · next hfault hcmd =>
    refine iff_of_false Bool.false_ne_true ?_
    rintro (⟨width, w, rest, s', hh, hs, -⟩ | hs)
    · exact hcmd _ _ _ _ _ hh hs
    · exact hfault hs

/-- Settles O34: the error class is its four codes, a CMD write that answers is made on a block that is not busy, and the one fault is the
violation. -/
theorem stepFailsOnErrorsAndViolations : Obligations.StepFailsOnErrorsAndViolations := by
  intro s
  rw [stepFails_iff, step_eq_fault_iff]
  refine or_congr_left ⟨?_, ?_⟩
  · rintro ⟨width, w, rest, s', hh, hs, herr⟩
    obtain ⟨hb, rfl⟩ := idle_of_regWrite_answers hh hs
    exact ⟨hb, w, rest, s', hh, hs, (rcClass_eq_error_iff _).1 herr⟩
  · rintro ⟨-, w, rest, s', hh, hs, herr⟩
    exact ⟨32, w, rest, s', hh, hs, (rcClass_eq_error_iff _).2 herr⟩

end Sys2Proof.Machine
